-- ==== Sys2Proof/Word.lean ====
section
/-! DEFINITION. The word types of the Packet Codec (rules R10, R11, R70): bytes, 16-bit values, 32-bit values. -/

namespace Sys2Proof

/-- A byte: 8 bits, unsigned (R10). -/
abbrev Byte := BitVec 8

/-- A 16-bit value: `IMM`, a checksum, an identifier, a sequence number (R70, R85, R86). -/
abbrev Half := BitVec 16

/-- A 32-bit value: a command word, `ACC`, `VAL` (R70, R21, R75). -/
abbrev Word := BitVec 32

end Sys2Proof
end

