-- ==== Sys2Proof/Syntax.lean ====
section
/-! DEFINITION. The seventeen commands of rule R79, one constructor per row of spec/opcode_table.json, with the operand fields `A` and `IMM` of rule R70 that each format uses. -/

namespace Sys2Proof

/-- A command (R79). An operand keeps the width of the field it comes from (R70, R77): `A` is a byte, `IMM` is 16 bits. The
formats I8 and AI8 carry the whole `IMM`, whose high byte `Instr.wf` requires to be zero (R73, R74). -/
inductive Instr where
  /-- `NOP` (R160). -/
  | nop
  /-- `SRST` (R161). -/
  | srst
  /-- `RDS sel` (R162). -/
  | rds (sel : Byte)
  /-- `CKCLR` (R109). -/
  | ckclr
  /-- `CKPUT imm8` (R110). -/
  | ckput (imm : Half)
  /-- `CKRUN base, len` (R111). -/
  | ckrun (base : Byte) (len : Half)
  /-- `CKFIN` (R112). -/
  | ckfin
  /-- `STB addr, b` (R163). -/
  | stb (addr : Byte) (imm : Half)
  /-- `LDB addr` (R164). -/
  | ldb (addr : Byte)
  /-- `WRF sel, v` (R121). -/
  | wrf (sel : Byte) (imm : Half)
  /-- `BUILD id` (R122). -/
  | build (ident : Half)
  /-- `SEAL` (R123). -/
  | sealTx
  /-- `NEXT` (R124). -/
  | nextSeq
  /-- `SETRXLEN n` (R141). -/
  | setrxlen (n : Half)
  /-- `RDF sel` (R142). -/
  | rdf (sel : Byte)
  /-- `CLASS` (R144). -/
  | classify
  /-- `DESC` (R145). -/
  | desc
  deriving DecidableEq, Repr

/-- The mnemonic of a command as rule R79's table spells it. -/
def Instr.mnemonic : Instr → String
  | .nop => "NOP"
  | .srst => "SRST"
  | .rds _ => "RDS"
  | .ckclr => "CKCLR"
  | .ckput _ => "CKPUT"
  | .ckrun _ _ => "CKRUN"
  | .ckfin => "CKFIN"
  | .stb _ _ => "STB"
  | .ldb _ => "LDB"
  | .wrf _ _ => "WRF"
  | .build _ => "BUILD"
  | .sealTx => "SEAL"
  | .nextSeq => "NEXT"
  | .setrxlen _ => "SETRXLEN"
  | .rdf _ => "RDF"
  | .classify => "CLASS"
  | .desc => "DESC"

end Sys2Proof
end

