-- ==== Sys2Proof/WellFormed.lean ====
section
/-! DEFINITION. Which instructions are commands: the reserved high byte of `IMM` in the formats I8 and AI8 is zero (R73, R74, R81). -/

namespace Sys2Proof

/-- An instruction is well formed when the operand bits its format reserves are zero. Only `CKPUT` (format I8) and `STB`
(format AI8) carry reserved operand bits, `IMM[15:8]` (R73, R74). A `WRF` of an 8-bit field with a larger value is a legal
word, refused by `WRF`'s own rule (R81). -/
def Instr.wf : Instr → Bool
  | .nop => true
  | .srst => true
  | .rds _ => true
  | .ckclr => true
  | .ckput imm => imm.extractLsb' 8 8 == 0
  | .ckrun _ _ => true
  | .ckfin => true
  | .stb _ imm => imm.extractLsb' 8 8 == 0
  | .ldb _ => true
  | .wrf _ _ => true
  | .build _ => true
  | .sealTx => true
  | .nextSeq => true
  | .setrxlen _ => true
  | .rdf _ => true
  | .classify => true
  | .desc => true

end Sys2Proof
end

