-- ==== Sys2Proof/Decode.lean ====
section
/-! DEFINITION. The decoder of a 32-bit command word, total and refusing by name (R70 to R74, R76, R79 to R82), and after it the encoder (R83). -/

namespace Sys2Proof

/-- Why a word is no command (R80). Either way the block raises `IllegalCommand`. -/
inductive DecodeError where
  /-- `OP` is not one of the seventeen opcodes. -/
  | undefinedOpcode
  /-- `OP` is defined and a bit its format requires to be zero is one. -/
  | reservedBits
  deriving DecidableEq, Repr

/-- The operand formats (R71 to R74). -/
inductive Format where
  /-- No operands: `A` = 0 and `IMM` = 0. -/
  | z
  /-- One selector or address in `A`: `IMM` = 0. -/
  | a
  /-- One 8-bit immediate: `A` = 0 and `IMM[15:8]` = 0. -/
  | i8
  /-- One 16-bit immediate: `A` = 0. -/
  | i16
  /-- `A` and an 8-bit immediate: `IMM[15:8]` = 0. -/
  | ai8
  /-- `A` and a 16-bit immediate: nothing reserved. -/
  | ai16
  deriving DecidableEq, Repr

/-- One opcode of rule R76: its number, its format, and the command its operand fields make. -/
structure Opcode where
  op : Byte
  format : Format
  make : Byte → Half → Instr

/-- `OP`, bits 31:24 (R70). -/
def opField (w : Word) : Byte := w.extractLsb' 24 8

/-- `A`, bits 23:16 (R70). -/
def aField (w : Word) : Byte := w.extractLsb' 16 8

/-- `IMM`, bits 15:0 (R70). -/
def immField (w : Word) : Half := w.extractLsb' 0 16

/-- The reserved bits of a format are all zero (R71 to R74, R81). -/
def reservedClear (f : Format) (a : Byte) (imm : Half) : Bool :=
  match f with
  | .z => a == 0 && imm == 0
  | .a => imm == 0
  | .i8 => a == 0 && imm.extractLsb' 8 8 == 0
  | .i16 => a == 0
  | .ai8 => imm.extractLsb' 8 8 == 0
  | .ai16 => true

/-- The opcode map (R76, and the `OP`, format and operands columns of R79). -/
def opcodes : List Opcode :=
  [ ⟨0x00, .z, fun _ _ => .nop⟩,
    ⟨0x01, .z, fun _ _ => .srst⟩,
    ⟨0x02, .a, fun a _ => .rds a⟩,
    ⟨0x10, .z, fun _ _ => .ckclr⟩,
    ⟨0x11, .i8, fun _ imm => .ckput imm⟩,
    ⟨0x12, .ai16, fun a imm => .ckrun a imm⟩,
    ⟨0x13, .z, fun _ _ => .ckfin⟩,
    ⟨0x20, .ai8, fun a imm => .stb a imm⟩,
    ⟨0x21, .a, fun a _ => .ldb a⟩,
    ⟨0x30, .ai16, fun a imm => .wrf a imm⟩,
    ⟨0x31, .i16, fun _ imm => .build imm⟩,
    ⟨0x32, .z, fun _ _ => .sealTx⟩,
    ⟨0x33, .z, fun _ _ => .nextSeq⟩,
    ⟨0x40, .i16, fun _ imm => .setrxlen imm⟩,
    ⟨0x41, .a, fun a _ => .rdf a⟩,
    ⟨0x42, .z, fun _ _ => .classify⟩,
    ⟨0x43, .z, fun _ _ => .desc⟩ ]

/-- The command a word is, or why it is none (R79, R80). Total on all 2^32 words. -/
def decode (w : Word) : Except DecodeError Instr :=
  match opcodes.find? (fun r => r.op == opField w) with
  | none => .error .undefinedOpcode
  | some r =>
    if reservedClear r.format (aField w) (immField w) then .ok (r.make (aField w) (immField w))
    else .error .reservedBits

/-- The word `OP * 2^24 + A * 2^16 + IMM` (R83). -/
def packWord (op a : Byte) (imm : Half) : Word := op ++ a ++ imm

/-- The `OP` of a command (R79). -/
def Instr.op : Instr → Byte
  | .nop => 0x00
  | .srst => 0x01
  | .rds _ => 0x02
  | .ckclr => 0x10
  | .ckput _ => 0x11
  | .ckrun _ _ => 0x12
  | .ckfin => 0x13
  | .stb _ _ => 0x20
  | .ldb _ => 0x21
  | .wrf _ _ => 0x30
  | .build _ => 0x31
  | .sealTx => 0x32
  | .nextSeq => 0x33
  | .setrxlen _ => 0x40
  | .rdf _ => 0x41
  | .classify => 0x42
  | .desc => 0x43

/-- The `A` field of a command's word: its selector or address, else zero (R71 to R74). -/
def Instr.aOperand : Instr → Byte
  | .nop => 0
  | .srst => 0
  | .rds sel => sel
  | .ckclr => 0
  | .ckput _ => 0
  | .ckrun base _ => base
  | .ckfin => 0
  | .stb addr _ => addr
  | .ldb addr => addr
  | .wrf sel _ => sel
  | .build _ => 0
  | .sealTx => 0
  | .nextSeq => 0
  | .setrxlen _ => 0
  | .rdf sel => sel
  | .classify => 0
  | .desc => 0

/-- The `IMM` field of a command's word: its immediate, else zero (R71 to R74, R77). -/
def Instr.immOperand : Instr → Half
  | .nop => 0
  | .srst => 0
  | .rds _ => 0
  | .ckclr => 0
  | .ckput imm => imm
  | .ckrun _ len => len
  | .ckfin => 0
  | .stb _ imm => imm
  | .ldb _ => 0
  | .wrf _ imm => imm
  | .build ident => ident
  | .sealTx => 0
  | .nextSeq => 0
  | .setrxlen n => n
  | .rdf _ => 0
  | .classify => 0
  | .desc => 0

/-- The word of a command (R83). For a well-formed instruction, `decode` gives the instruction back. -/
def encode (i : Instr) : Word := packWord i.op i.aOperand i.immOperand

/-- The instruction the decoder reads from a word of `nbits` bits, the bits above them zero (every row of the table is one
whole 32-bit word, numbered as the table numbers it). -/
def decodeTableWord (nbits w : Nat) : Option Instr :=
  (decode (BitVec.ofNat 32 (w % 2 ^ nbits))).toOption

end Sys2Proof
end

