-- ==== Sys2Proof/Config.lean ====
section
/-! DEFINITION. What one implementation fixes (R8, R9) and the free values (R40, U1): nothing in Lean can evaluate an `opaque` one. -/

namespace Sys2Proof

/-- `PAYLOAD_INIT` (R9, R245; OPEN by D16): byte `j` of the 64-byte marker that `BUILD` writes, for `j` in 0..63. No command
uses another index. Fixed for a run. Log entry 1. -/
opaque Config.payloadInit : Nat → Byte

/-- The FREE VALUE of a buffer byte after reset (R40, U1 `any value`): `Config.resetByte r a` is what the byte of `BUF` at
address `a` holds after reset number `r` until a command writes it. Log entry 2. -/
opaque Config.resetByte : Nat → Nat → Byte

/-- `TX_BASE` (R9): the first address of `TXB`. -/
@[simp] abbrev Config.txBase : Nat := 0x00

/-- `RX_BASE` (R9): the first address of `RXB`. -/
@[simp] abbrev Config.rxBase : Nat := 0x80

/-- `MSG_LEN` (R8): bytes of an Echo message, the size of `TXB`. -/
@[simp] abbrev Config.msgLen : Nat := 72

/-- `PAYLOAD_LEN` (R8): bytes of the payload. -/
@[simp] abbrev Config.payloadLen : Nat := 64

/-- `ICMP_HDR_LEN` (R8): bytes of type, code and checksum; the identifier follows them. -/
@[simp] abbrev Config.icmpHdrLen : Nat := 4

/-- `ECHO_HDR_LEN` (R8): ICMP header plus identifier plus sequence number. -/
@[simp] abbrev Config.echoHdrLen : Nat := 8

/-- `IPH_LEN` (R8): bytes of the IPv4 header the decoder assumes. -/
@[simp] abbrev Config.iphLen : Nat := 20

/-- `RX_CAP` (R8): bytes of an EchoReply, the size of `RXB`. -/
@[simp] abbrev Config.rxCap : Nat := 92

/-- `T_ECHO_REQUEST` (R8). -/
@[simp] abbrev Config.echoRequest : Byte := 8

/-- `T_ECHO_REPLY` (R8). -/
@[simp] abbrev Config.echoReply : Byte := 0

/-- `SEQ_FIRST` (R8): the first sequence number. -/
@[simp] abbrev Config.seqFirst : Half := 1

/-- `MAX_ATTEMPTS` (R8): the host's cap on probes. -/
@[simp] abbrev Config.maxAttempts : Nat := 5

/-- `WAIT_TIMEOUT_S` (R8): the host's seconds of the reply wait. -/
@[simp] abbrev Config.waitTimeoutS : Nat := 5

/-- `INTERVAL_S` (R8): the host's seconds between attempts. -/
@[simp] abbrev Config.intervalS : Nat := 1

end Sys2Proof
end

