-- ==== Sys2Proof/Machine/State.lean ====
section
/-! DEFINITION. The state of the block (R20), the six causes (R211), the response (R75), the host's inputs (R189, R240), and the state after reset (R40). -/

namespace Sys2Proof.Machine

/-- The fault causes of the block (R211). A cause is no stop: the command that raises one completes (R210, `State.raise`). -/
inductive Cause where
  /-- Code 1: the word matches no row of R79, or `WRF` of an 8-bit field with a value above 0xFF (R212). -/
  | illegalCommand
  /-- Code 2: a selector names nothing the command accepts (R213). -/
  | illegalField
  /-- Code 3: `SETRXLEN` above 92 (R214). -/
  | lengthRange
  /-- Code 4: an address in a hole of `BUF` or above 0xFF (R215). -/
  | addressRange
  /-- Code 5: a byte of `RXB` at or past `RXLEN` is read (R216). -/
  | shortDatagram
  /-- Code 6: an addition to `ACC` would reach 2^32 (R217). -/
  | accOverflow
  deriving DecidableEq, Repr

/-- The response a command returns (R75). -/
structure Response where
  /-- `ERR`: 0, or the code of the cause raised. -/
  err : Byte
  /-- `VAL`: the result, 0 for a command without one and whenever `err` is not 0. -/
  val : Word
  deriving DecidableEq, Repr

/-- What the host can do to the block between two commands. -/
inductive HostInput where
  /-- Issue a 32-bit command word (R17, R189). -/
  | command (w : Word)
  /-- Apply the reset input (R240, R241). -/
  | reset
  deriving DecidableEq, Repr

/-- The bytes of `BUF` that commands have written since reset: (address, byte) pairs with rising addresses. An address
that is not listed holds no written byte. -/
abbrev Memory := List Host.Cell

/-- The canonical form of memory: addresses strictly rise. (An unlisted address holds no written byte, so no listed byte
equals what an unlisted address holds.) -/
abbrev Memory.wf (m : Memory) : Prop := (m.map Prod.fst).Pairwise (· < ·)

/-- The state of the block (R20) and three fields of the model's own. -/
structure State where
  /-- `ACC` (R21): the running sum of the 16-bit words fed so far. -/
  acc : Word
  /-- `HOLD` (R22): the first byte of a word whose second byte has not come; 0 whenever `PHASE` = 0. -/
  hold : Byte
  /-- `PHASE` (R23), 1 bit: set when `HOLD` holds a pending byte. -/
  phase : Bool
  /-- `CKR` (R24): the last checksum computed. -/
  ckr : Half
  /-- `RXLEN` (R25): the number of valid bytes in `RXB`. -/
  rxlen : Byte
  /-- `ESR` (R26, R29): one sticky bit per fault cause. -/
  esr : Byte
  /-- `TXB` and `RXB` (R35, R36): the written bytes of the one address space `BUF` (R50). -/
  mem : Memory
  /-- The MODEL's own: which reset the unwritten buffer bytes date from; it selects their free values. Log entry 2. -/
  resets : Nat
  /-- The MODEL's own: what the host has issued and the block has not yet accepted, oldest first. Log entry 3. -/
  inputs : List HostInput
  /-- The MODEL's own: the response to the last command; none before the first. An output, no state (R27). Log entry 4. -/
  rsp : Option Response
  deriving DecidableEq, Repr

/-- The block right after reset (R40): every register 0, no buffer byte written, nothing issued, no response yet. -/
def State.reset : State :=
  { acc := 0, hold := 0, phase := false, ckr := 0, rxlen := 0, esr := 0, mem := [], resets := 0, inputs := [], rsp := none }

/-- Why the machine stops with a fault: NEVER. Every command completes (R256) and the spec's own faults are responses after
which the block is ready for the next command (R210), so this type has no constructor and nobody raises it. Safe and exact. -/
inductive Fault where
  deriving DecidableEq, Repr

/-- Why the machine refuses an instruction. -/
inductive Refusal where
  /-- The instruction has no meaning in the model yet. Raised only by an arm of `exec` for such an instruction; there is
  none. Safe. -/
  | notModelled (mnemonic : String)
  deriving DecidableEq, Repr

end Sys2Proof.Machine
end

