-- ==== Sys2Proof/Machine/Flags.lean ====
section
/-! DEFINITION. The flags: the code and the `ESR` bit of each cause (R211, R29). `PHASE`, the only other flag (R30), is computed by `feed` in Machine/Arith.lean. -/

namespace Sys2Proof.Machine

/-- The code of a cause, which is also its bit number in `ESR` (R211). -/
def causeCode : Cause → Nat
  | .illegalCommand => 1
  | .illegalField => 2
  | .lengthRange => 3
  | .addressRange => 4
  | .shortDatagram => 5
  | .accOverflow => 6

/-- The `ERR` of a cause (R210). -/
def causeErr (c : Cause) : Byte := BitVec.ofNat 8 (causeCode c)

/-- The `ESR` bit of a cause, `2^code` (R210). -/
def causeBit (c : Cause) : Byte := BitVec.ofNat 8 (2 ^ causeCode c)

/-- `ESR` after a cause is raised: `ESR | 2^code`; the bit is sticky (R210, R29). -/
def esrAfter (esr : Byte) (c : Cause) : Byte := esr ||| causeBit c

end Sys2Proof.Machine
end

