-- ==== Sys2Proof/Machine/Operands.lean ====
section
/-! DEFINITION. Operand forms: words and byte lists (R12, R14), register selectors (R32), field selectors and their table (R78), the address windows (R50). -/

namespace Sys2Proof.Machine

/-- `WORD(hi, lo)`: the 16-bit word whose first wire byte is `hi` (R12). -/
def wireWord (hi lo : Byte) : Half := hi ++ lo

/-- The high byte of a 16-bit value, `v[15:8]`. -/
def hiByte (v : Half) : Byte := v.extractLsb' 8 8

/-- The low byte of a 16-bit value, `v[7:0]`. -/
def loByte (v : Half) : Byte := v.extractLsb' 0 8

/-- The number whose bytes are the list, first byte most significant (R12, R14); `acc` is the number read so far. -/
def beNat (acc : Nat) : List Byte → Nat
  | [] => acc
  | b :: bs => beNat (acc * 256 + b.toNat) bs

/-- The low `n` bytes of a value, most significant first: `v[8(n-k)-1 : 8(n-k-1)]` for k = 0..n-1 (R14). -/
def beBytes : Nat → Word → List Byte
  | 0, _ => []
  | n + 1, v => v.extractLsb' (8 * n) 8 :: beBytes n v

/-- `Implemented(a)` (R50): the address lies in the TX window or in the RX window. -/
def implemented (a : Nat) : Bool := decide (a ≤ 0x47) || (decide (0x80 ≤ a) && decide (a ≤ 0xDB))

/-- The address lies in the RX window (R50, R66). -/
def inRxWindow (a : Nat) : Bool := decide (0x80 ≤ a) && decide (a ≤ 0xDB)

/-- Every one of the `n` addresses from `a` on is implemented: the `AddressRange` test of R66. No address wraps: one above
0xFF is not implemented. -/
def allImplemented : Nat → Nat → Bool
  | _, 0 => true
  | a, n + 1 => implemented a && allImplemented (a + 1) n

/-- The registers `RDS` can select (R32). -/
inductive RegSel where
  | esr
  | ckr
  | acc
  /-- `CKST`: `PHASE` and `HOLD` together. -/
  | ckst
  | rxlen
  deriving DecidableEq, Repr

/-- The register an 8-bit selector names (R32); 0x05 to 0xFF name none. -/
def regSel? (a : Byte) : Option RegSel :=
  match a.toNat with
  | 0x00 => some .esr
  | 0x01 => some .ckr
  | 0x02 => some .acc
  | 0x03 => some .ckst
  | 0x04 => some .rxlen
  | _ => none

/-- The two packet buffers (R20). -/
inductive Buffer where
  | txb
  | rxb
  deriving DecidableEq, Repr

/-- The `BUF` address of a buffer's byte 0 (R14). -/
def Buffer.base : Buffer → Nat
  | .txb => Config.txBase
  | .rxb => Config.rxBase

/-- The 24 packet fields (R78): five of the template, five of the reply, fourteen of the IPv4 header. -/
inductive FieldSel where
  | tType | tCode | tCksum | tId | tSeq
  | rType | rCode | rCksum | rId | rSeq
  | ipVihl | ipTos | ipTotlen | ipId | ipFlagfrag | ipTtl | ipProto | ipHcsum | ipSrc | ipDst
  | ipVer | ipIhl | ipFlags | ipFragoff
  deriving DecidableEq, Repr

/-- The field an 8-bit selector names (R78, first two columns). -/
def fieldSel? (a : Byte) : Option FieldSel :=
  match a.toNat with
  | 0x00 => some .tType
  | 0x01 => some .tCode
  | 0x02 => some .tCksum
  | 0x03 => some .tId
  | 0x04 => some .tSeq
  | 0x10 => some .rType
  | 0x11 => some .rCode
  | 0x12 => some .rCksum
  | 0x13 => some .rId
  | 0x14 => some .rSeq
  | 0x20 => some .ipVihl
  | 0x21 => some .ipTos
  | 0x22 => some .ipTotlen
  | 0x23 => some .ipId
  | 0x24 => some .ipFlagfrag
  | 0x25 => some .ipTtl
  | 0x26 => some .ipProto
  | 0x27 => some .ipHcsum
  | 0x28 => some .ipSrc
  | 0x29 => some .ipDst
  | 0x2A => some .ipVer
  | 0x2B => some .ipIhl
  | 0x2C => some .ipFlags
  | 0x2D => some .ipFragoff
  | _ => none

/-- Where a packet field lies (R78): its buffer, the index of its first byte, its bytes, and for a sub-byte field the bits
`[hi:lo]` taken. -/
structure Field where
  buf : Buffer
  idx : Nat
  bytes : Nat
  slice : Option (Nat × Nat)
  deriving DecidableEq, Repr

/-- The row of a field in the table of R78. -/
def fieldOf : FieldSel → Field
  | .tType => ⟨.txb, 0, 1, none⟩
  | .tCode => ⟨.txb, 1, 1, none⟩
  | .tCksum => ⟨.txb, 2, 2, none⟩
  | .tId => ⟨.txb, Config.icmpHdrLen, 2, none⟩
  | .tSeq => ⟨.txb, 6, 2, none⟩
  | .rType => ⟨.rxb, Config.iphLen, 1, none⟩
  | .rCode => ⟨.rxb, 21, 1, none⟩
  | .rCksum => ⟨.rxb, 22, 2, none⟩
  | .rId => ⟨.rxb, Config.iphLen + Config.icmpHdrLen, 2, none⟩
  | .rSeq => ⟨.rxb, 26, 2, none⟩
  | .ipVihl => ⟨.rxb, 0, 1, none⟩
  | .ipTos => ⟨.rxb, 1, 1, none⟩
  | .ipTotlen => ⟨.rxb, 2, 2, none⟩
  | .ipId => ⟨.rxb, 4, 2, none⟩
  | .ipFlagfrag => ⟨.rxb, 6, 2, none⟩
  | .ipTtl => ⟨.rxb, 8, 1, none⟩
  | .ipProto => ⟨.rxb, 9, 1, none⟩
  | .ipHcsum => ⟨.rxb, 10, 2, none⟩
  | .ipSrc => ⟨.rxb, 12, 4, none⟩
  | .ipDst => ⟨.rxb, 16, 4, none⟩
  | .ipVer => ⟨.rxb, 0, 1, some (7, 4)⟩
  | .ipIhl => ⟨.rxb, 0, 1, some (3, 0)⟩
  | .ipFlags => ⟨.rxb, 6, 2, some (15, 13)⟩
  | .ipFragoff => ⟨.rxb, 6, 2, some (12, 0)⟩

/-- The `BUF` address of a field's first byte (R142). -/
def fieldAddr (f : Field) : Nat := f.buf.base + f.idx

/-- The template field a selector names for `WRF`: only the five `T_` selectors, which are the `TXB` rows (R78, R121). -/
def txField? (a : Byte) : Option Field :=
  match fieldSel? a with
  | none => none
  | some f => if (fieldOf f).buf = .txb then some (fieldOf f) else none

/-- The bits of a field's value that the field takes: all of them, or `v[hi:lo]` (R78, R142). -/
def takeSlice (slice : Option (Nat × Nat)) (v : Word) : Word :=
  match slice with
  | none => v
  | some (hi, lo) => (v.extractLsb' lo (hi - lo + 1)).setWidth 32

end Sys2Proof.Machine
end

