-- ==== Sys2Proof/Machine/Ops.lean ====
section
/-! DEFINITION. The named operations over buffer memory and registers (R14, R32, R66), the response (R75), raising a cause (R210) and the reset input (R240). -/

namespace Sys2Proof.Machine

/-- The byte written at an address, if one has been written since reset. -/
def Memory.get? : Memory → Nat → Option Byte
  | [], _ => none
  | (k, b) :: rest, a => if k = a then some b else Memory.get? rest a

/-- Memory with byte `b` written at address `a`, in canonical form. -/
def Memory.set : Memory → Nat → Byte → Memory
  | [], a, b => [(a, b)]
  | (k, c) :: rest, a, b =>
    if a < k then (a, b) :: (k, c) :: rest
    else if a = k then (a, b) :: rest
    else (k, c) :: Memory.set rest a b

/-- What an address that nothing has written since reset reads as: a free value (R40, U1). -/
def State.unwritten (s : State) (a : Nat) : Byte := Config.resetByte s.resets a

/-- `BUF[a]` (R14). Raw: it makes no check. -/
def State.readByte (s : State) (a : Nat) : Byte := (s.mem.get? a).getD (s.unwritten a)

/-- `BUF[a] <- b` (R14). Raw: it makes no check. -/
def State.writeByte (s : State) (a : Nat) (b : Byte) : State := { s with mem := s.mem.set a b }

/-- `[BUF[a], BUF[a+1], ..., BUF[a+n-1]]`. -/
def State.readBytes (s : State) (a : Nat) : Nat → List Byte
  | 0 => []
  | n + 1 => s.readByte a :: s.readBytes (a + 1) n

/-- Writes the bytes of the list at `a`, `a+1`, and so on. -/
def State.writeBytes (s : State) (a : Nat) : List Byte → State
  | [] => s
  | b :: bs => (s.writeByte a b).writeBytes (a + 1) bs

/-- `MemRead(a, n)` for n in 1, 2, 4: first byte most significant (R14, R52). -/
def State.memRead (s : State) (a n : Nat) : Word := BitVec.ofNat 32 (beNat 0 (s.readBytes a n))

/-- `MemWrite(a, n, v)` for n in 1, 2, 4: first byte most significant (R14, R52). -/
def State.memWrite (s : State) (a n : Nat) (v : Word) : State := s.writeBytes a (beBytes n v)

/-- The 72 bytes of `TXB` in wire order (R35). -/
def State.txb (s : State) : List Byte := s.readBytes Config.txBase Config.msgLen

/-- The byte at an address is not a byte of `RXB` at or past `RXLEN` (R66, second test). -/
def State.received (s : State) (a : Nat) : Bool :=
  !(inRxWindow a && decide (s.rxlen.toNat ≤ a - Config.rxBase))

/-- Every one of the `n` bytes from `a` on passes the `ShortDatagram` test (R66). -/
def State.allReceived (s : State) : Nat → Nat → Bool
  | _, 0 => true
  | a, n + 1 => s.received a && s.allReceived (a + 1) n

/-- Type and code of the reply lie below `RXLEN`: the test of `CLASS` and `DESC` (R144, R145). -/
def State.hasTypeCode (s : State) : Bool := decide (22 ≤ s.rxlen.toNat)

/-- `RXB[i]` (R14). -/
def State.rxByte (s : State) (i : Nat) : Byte := s.readByte (Config.rxBase + i)

/-- The 32-bit value of a register as `RDS` returns it (R32). -/
def State.readReg (s : State) : RegSel → Word
  | .esr => s.esr.setWidth 32
  | .ckr => s.ckr.setWidth 32
  | .acc => s.acc
  | .ckst => (BitVec.ofBool s.phase ++ s.hold).setWidth 32
  | .rxlen => s.rxlen.setWidth 32

/-- A command ends without a cause: `RSP = (0, v)` (R15, R75). -/
def State.respond (s : State) (v : Word) : State := { s with rsp := some ⟨0, v⟩ }

/-- RAISING A CAUSE, the block's only exception (R15, R210): no register and no buffer byte changes but the cause's bit of
`ESR`, and the response is (code, 0). Nothing is saved and control goes nowhere (R219). There is no return: the next
command executes normally whatever `ESR` holds (R220). -/
def State.raise (s : State) (c : Cause) : State :=
  { s with esr := esrAfter s.esr c, rsp := some ⟨causeErr c, 0⟩ }

/-- The reset input (R240): every register at its reset value, every buffer byte unspecified anew, no response (R241). What
the host has issued behind it stays issued. -/
def State.hardReset (s : State) : State :=
  { State.reset with resets := s.resets + 1, inputs := s.inputs }

/-- The one word a host may form of a response, `ERR` at 63:56 and `VAL` at 31:0 (R75). -/
def Response.packed (r : Response) : BitVec 64 := r.err ++ (0 : BitVec 24) ++ r.val

/-- The outcome of a command or step. -/
abbrev Result := Host.Outcome State Fault Refusal

end Sys2Proof.Machine
end

