-- ==== Sys2Proof/Machine/Buffer.lean ====
section
/-! DEFINITION. The buffer-byte commands STB and LDB (R163, R164). -/

namespace Sys2Proof.Machine

/-- `STB addr, b` (R163): stores `IMM[7:0]`, at any implemented address whatever `RXLEN` is. -/
def execStb (addr : Byte) (imm : Half) (s : State) : Result :=
  if !implemented addr.toNat then .next (s.raise .addressRange)
  else .next ((s.writeByte addr.toNat (loByte imm)).respond 0)

/-- `LDB addr` (R164): returns one byte; a hole is `AddressRange`, a byte of `RXB` not received is `ShortDatagram`. -/
def execLdb (addr : Byte) (s : State) : Result :=
  if !implemented addr.toNat then .next (s.raise .addressRange)
  else if !s.received addr.toNat then .next (s.raise .shortDatagram)
  else .next (s.respond ((s.readByte addr.toNat).setWidth 32))

end Sys2Proof.Machine
end

