-- ==== Sys2Proof/Machine/Arith.lean ====
section
/-! DEFINITION. The pure functions of the checksum unit (R100 to R104) and of the reply decoder (R146 to R148), each defined once (R16). -/

namespace Sys2Proof.Machine

/-- `SUM32(bs)` (R100): the sum of the 16-bit words in wire order, an odd trailing byte as the high byte of a last word. -/
def sum32 : List Byte → Nat
  | [] => 0
  | [b] => b.toNat * 256
  | hi :: lo :: rest => (wireWord hi lo).toNat + sum32 rest

/-- `FOLD(a)` for a below 2^32 (R101), in the rule's straight-line form: bits 31:16 are added into bits 15:0 twice. -/
def fold (a : Nat) : Half :=
  let f1 := a % 0x10000 + a / 0x10000
  BitVec.ofNat 16 (f1 % 0x10000 + f1 / 0x10000)

/-- `CSUM(bs)` (R102), for a byte list whose raw sum is below 2^32. -/
def csum (bs : List Byte) : Half := 0xFFFF - fold (sum32 bs)

/-- The stream state `(ACC, HOLD, PHASE)` (R103). -/
structure Stream where
  acc : Word
  hold : Byte
  phase : Bool
  deriving DecidableEq, Repr

/-- `CLEAR` (R103). -/
def clearStream : Stream := ⟨0, 0, false⟩

/-- `FEED(S, b)` (R103); `none` is overflow. -/
def feed (S : Stream) (b : Byte) : Option Stream :=
  if S.phase = false then some ⟨S.acc, b, true⟩
  else if 2 ^ 32 ≤ S.acc.toNat + (wireWord S.hold b).toNat then none
  else some ⟨BitVec.ofNat 32 (S.acc.toNat + (wireWord S.hold b).toNat), 0, false⟩

/-- `FEEDS(S, bs)` (R103): the bytes in order, overflow if any step is. -/
def feeds (S : Stream) : List Byte → Option Stream
  | [] => some S
  | b :: bs =>
    match feed S b with
    | none => none
    | some S' => feeds S' bs

/-- The sum `FIN` folds (R104): `ACC` plus the held byte as the high byte of a last word. -/
def finSum (S : Stream) : Nat := S.acc.toNat + (if S.phase then S.hold.toNat * 256 else 0)

/-- `FIN(S)` (R104); `none` is overflow. -/
def fin (S : Stream) : Option Half :=
  if 2 ^ 32 ≤ finSum S then none else some (0xFFFF - fold (finSum S))

/-- The stream registers of a state. -/
def State.stream (s : State) : Stream := ⟨s.acc, s.hold, s.phase⟩

/-- A state with the stream registers written. -/
def State.setStream (s : State) (S : Stream) : State := { s with acc := S.acc, hold := S.hold, phase := S.phase }

/-- `CLS_OF(t, c)` (R146): 0 success, 1 self-echo, 2 error reply. -/
def clsOf (t c : Byte) : Word :=
  if t = Config.echoReply ∧ c = 0 then 0
  else if t = Config.echoRequest ∧ c = 0 then 1
  else 2

/-- `TKIND` of a type (R147). -/
def tkind (t : Byte) : Nat :=
  match t.toNat with
  | 3 => 1
  | 5 => 2
  | 11 => 3
  | 12 => 4
  | _ => 0

/-- `KNOWN(type)` (R147): the codes with a string of their own, as the document lists them. -/
def knownCodes (t : Byte) : List Nat :=
  match t.toNat with
  | 3 => [0, 1, 2, 3, 4, 5, 6, 7, 8, 11, 12, 13, 14, 15]
  | 5 => [1, 3]
  | 11 => [0, 1]
  | 12 => [0, 1, 2]
  | _ => []

/-- `DESC_OF(t, c)` (R148): `t * 2^16 + c * 2^8 + CKNOWN * 8 + TKIND`. -/
def descOf (t c : Byte) : Word :=
  let n := if tkind t ≠ 0 ∧ c.toNat ∈ knownCodes t then 1 else 0
  BitVec.ofNat 32 (t.toNat * 2 ^ 16 + c.toNat * 2 ^ 8 + n * 8 + tkind t)

end Sys2Proof.Machine
end

