-- ==== Sys2Proof/Machine/Checksum.lean ====
section
/-! DEFINITION. The checksum unit's commands CKCLR, CKPUT, CKRUN, CKFIN (R109 to R112). -/

namespace Sys2Proof.Machine

/-- The end of a command that feeds the stream: the new stream, or `AccOverflow` with nothing changed (R110, R111). -/
def finishFeed (s : State) : Option Stream → Result
  | none => .next (s.raise .accOverflow)
  | some S => .next ((s.setStream S).respond 0)

/-- `CKCLR` (R109): clears the stream; `CKR` is kept. -/
def execCkclr (s : State) : Result := .next ((s.setStream clearStream).respond 0)

/-- `CKPUT imm8` (R110): feeds the byte `IMM[7:0]`. -/
def execCkput (imm : Half) (s : State) : Result := finishFeed s (feed s.stream (loByte imm))

/-- `CKRUN base, len` (R111): feeds `len` bytes of `BUF` from `base`, all or nothing. -/
def execCkrun (base : Byte) (len : Half) (s : State) : Result :=
  if !allImplemented base.toNat len.toNat then .next (s.raise .addressRange)
  else if !s.allReceived base.toNat len.toNat then .next (s.raise .shortDatagram)
  else finishFeed s (feeds s.stream (s.readBytes base.toNat len.toNat))

/-- `CKFIN` (R112): the checksum of the bytes fed so far, into `CKR` and the response; the stream is kept. -/
def execCkfin (s : State) : Result :=
  match fin s.stream with
  | none => .next (s.raise .accOverflow)
  | some c => .next ({ s with ckr := c }.respond (c.setWidth 32))

end Sys2Proof.Machine
end

