-- ==== Sys2Proof/Machine/Decoder.lean ====
section
/-! DEFINITION. The reply decoder's commands SETRXLEN, RDF, CLASS, DESC (R141, R142, R144, R145). -/

namespace Sys2Proof.Machine

/-- `SETRXLEN n` (R141): declares the received length, at most 92. -/
def execSetrxlen (n : Half) (s : State) : Result :=
  if Config.rxCap < n.toNat then .next (s.raise .lengthRange)
  else .next ({ s with rxlen := loByte n }.respond 0)

/-- A field of `RXB` reaches past `RXLEN` (R142); a field of `TXB` never does. -/
def State.fieldShort (s : State) (f : Field) : Bool := decide (f.buf = .rxb ∧ s.rxlen.toNat < f.idx + f.bytes)

/-- `RDF sel` (R142): returns one field. -/
def execRdf (sel : Byte) (s : State) : Result :=
  match fieldSel? sel with
  | none => .next (s.raise .illegalField)
  | some f =>
    if s.fieldShort (fieldOf f) then .next (s.raise .shortDatagram)
    else .next (s.respond (takeSlice (fieldOf f).slice (s.memRead (fieldAddr (fieldOf f)) (fieldOf f).bytes)))

/-- `CLASS` (R144): classifies the datagram by type and code and by nothing else (R140). -/
def execClass (s : State) : Result :=
  if !s.hasTypeCode then .next (s.raise .shortDatagram)
  else .next (s.respond (clsOf (s.rxByte 20) (s.rxByte 21)))

/-- `DESC` (R145): the error descriptor of the datagram. -/
def execDesc (s : State) : Result :=
  if !s.hasTypeCode then .next (s.raise .shortDatagram)
  else .next (s.respond (descOf (s.rxByte 20) (s.rxByte 21)))

end Sys2Proof.Machine
end

