-- ==== Sys2Proof/Machine/Encoder.lean ====
section
/-! DEFINITION. The Echo message encoder's commands WRF, BUILD, SEAL, NEXT (R121 to R124). -/

namespace Sys2Proof.Machine

/-- `MemWrite` of one template field (R121). -/
def State.writeField (s : State) (f : Field) (v : Half) : State := s.memWrite (fieldAddr f) f.bytes (v.setWidth 32)

/-- The 16-bit value of one template field. -/
def State.readField16 (s : State) (f : FieldSel) : Half := (s.memRead (fieldAddr (fieldOf f)) 2).setWidth 16

/-- THE EFFECT OF `SEAL` (R123), shared by `SEAL`, `BUILD` and `NEXT`: zero the checksum field, sum the 72 bytes, store the
checksum; the checksum unit is overwritten and `CKR` holds the checksum stored. -/
def State.sealed (s : State) : State :=
  let z := s.writeField (fieldOf .tCksum) 0
  let a := sum32 z.txb
  let c : Half := 0xFFFF - fold a
  { z.writeField (fieldOf .tCksum) c with acc := BitVec.ofNat 32 a, hold := 0, phase := false, ckr := c }

/-- The template `BUILD` writes before it seals (R122), for a payload given byte by byte. -/
def State.built (payload : Nat → Byte) (ident : Half) (s : State) : State :=
  (((((s.writeField (fieldOf .tType) (Config.echoRequest.setWidth 16)).writeField (fieldOf .tCode) 0).writeField
    (fieldOf .tCksum) 0).writeField (fieldOf .tId) ident).writeField (fieldOf .tSeq) Config.seqFirst).writeBytes
    Config.echoHdrLen ((List.range Config.payloadLen).map payload)

/-- The template with its sequence number one higher, modulo 2^16 (R124, R126). -/
def State.advanced (s : State) : State := s.writeField (fieldOf .tSeq) (s.readField16 .tSeq + 1)

/-- `WRF sel, v` (R121): the selector test, then the 8-bit value test (R218), then the write. -/
def execWrf (sel : Byte) (imm : Half) (s : State) : Result :=
  match txField? sel with
  | none => .next (s.raise .illegalField)
  | some f =>
    if f.bytes = 1 ∧ hiByte imm ≠ 0 then .next (s.raise .illegalCommand)
    else .next ((s.writeField f imm).respond 0)

/-- `BUILD id` (R122): writes the whole template and seals it; returns the checksum. -/
def execBuild (ident : Half) (s : State) : Result :=
  let t := (s.built Config.payloadInit ident).sealed
  .next (t.respond (t.ckr.setWidth 32))

/-- `SEAL` (R123): returns the checksum. -/
def execSeal (s : State) : Result :=
  let t := s.sealed
  .next (t.respond (t.ckr.setWidth 32))

/-- `NEXT` (R124): advances the sequence number and seals; returns the sequence number and the checksum. -/
def execNext (s : State) : Result :=
  let t := s.advanced.sealed
  .next (t.respond (s.advanced.readField16 .tSeq ++ t.ckr))

end Sys2Proof.Machine
end

