-- ==== Sys2Proof/Machine/System.lean ====
section
/-! DEFINITION. The system commands NOP, SRST, RDS (R160 to R162). -/

namespace Sys2Proof.Machine

/-- `NOP` (R160): does nothing. -/
def execNop (s : State) : Result := .next (s.respond 0)

/-- Every register at 0, the buffers kept (R161). -/
def State.softReset (s : State) : State :=
  { s with acc := 0, hold := 0, phase := false, ckr := 0, rxlen := 0, esr := 0 }

/-- `SRST` (R161): the soft reset. -/
def execSrst (s : State) : Result := .next (s.softReset.respond 0)

/-- `RDS sel` (R162): returns a register. -/
def execRds (sel : Byte) (s : State) : Result :=
  match regSel? sel with
  | none => .next (s.raise .illegalField)
  | some r => .next (s.respond (s.readReg r))

end Sys2Proof.Machine
end

