-- ==== Sys2Proof/Machine/Dispatch.lean ====
section
/-! DEFINITION. One arm per command, each one call of its meaning. -/

namespace Sys2Proof.Machine

/-- One command, executed to completion (R17, R59). -/
def exec (i : Instr) (s : State) : Host.Outcome State Fault Refusal :=
  match i with
  | .nop => Sys2Proof.Machine.execNop s
  | .srst => Sys2Proof.Machine.execSrst s
  | .rds sel => Sys2Proof.Machine.execRds sel s
  | .ckclr => Sys2Proof.Machine.execCkclr s
  | .ckput imm => Sys2Proof.Machine.execCkput imm s
  | .ckrun base len => Sys2Proof.Machine.execCkrun base len s
  | .ckfin => Sys2Proof.Machine.execCkfin s
  | .stb addr imm => Sys2Proof.Machine.execStb addr imm s
  | .ldb addr => Sys2Proof.Machine.execLdb addr s
  | .wrf sel imm => Sys2Proof.Machine.execWrf sel imm s
  | .build ident => Sys2Proof.Machine.execBuild ident s
  | .sealTx => Sys2Proof.Machine.execSeal s
  | .nextSeq => Sys2Proof.Machine.execNext s
  | .setrxlen n => Sys2Proof.Machine.execSetrxlen n s
  | .rdf sel => Sys2Proof.Machine.execRdf sel s
  | .classify => Sys2Proof.Machine.execClass s
  | .desc => Sys2Proof.Machine.execDesc s

end Sys2Proof.Machine
end

