-- ==== Sys2Proof/Machine/Issue.lean ====
section
/-! DEFINITION. How the block answers what the host does: a command word decoded and executed (R17, R80), the reset input (R240), nothing issued (R230). -/

namespace Sys2Proof.Machine

/-- A state with its oldest host input accepted. -/
def State.withInputs (s : State) (q : List HostInput) : State := { s with inputs := q }

/-- A command word (R17): a word that is no command raises `IllegalCommand` (R80), any other is executed. -/
def issueWord (w : Word) (s : State) : Result :=
  match decode w with
  | .error _ => .next (s.raise .illegalCommand)
  | .ok i => exec i s

/-- One step: the oldest input the host has issued is answered whole (R59, R62); with none the block holds its state (R230). -/
def answer (s : State) : Result :=
  match s.inputs with
  | [] => .next s
  | .reset :: q => .next (s.withInputs q).hardReset
  | .command w :: q => issueWord w (s.withInputs q)

/-- The command word whose low `nbits` bits are `w`'s and whose other bits are zero. -/
def tableWord (nbits w : Nat) : Word := BitVec.ofNat 32 (w % 2 ^ nbits)

end Sys2Proof.Machine
end

