-- ==== Sys2Proof/Machine/Sequences.lean ====
section
/-! DEFINITION. Lists of commands: how they run in order (R17, R28), and the pseudo-commands (R84). -/

namespace Sys2Proof.Machine

/-- The commands of a list, executed in list order (R17, R28). -/
def execAll : List Instr → State → Result
  | [], s => .next s
  | i :: is, s =>
    match exec i s with
    | .next t => execAll is t
    | .fault f => .fault f
    | .refused r => .refused r

/-- The state after one command. Every command answers a next state (R256), so the other two arms are never taken. -/
def State.after (s : State) (i : Instr) : State :=
  match exec i s with
  | .next t => t
  | .fault _ => s
  | .refused _ => s

/-- The state after the commands of a list, in list order (R17). -/
def State.afterAll (s : State) : List Instr → State
  | [] => s
  | i :: is => (s.after i).afterAll is

/-- The response to the last command (R75); after a command there always is one (R17). -/
def State.response (s : State) : Response := s.rsp.getD ⟨0, 0⟩

/-- The `VAL` of each command of a list, in list order (R17). -/
def State.valuesOf (s : State) : List Instr → List Word
  | [] => []
  | i :: is => (s.after i).response.val :: (s.after i).valuesOf is

/-- A state with the host having issued the words of these commands behind everything else (R189). -/
def State.issued (s : State) (is : List Instr) : State :=
  s.withInputs (s.inputs ++ is.map (fun i => .command (encode i)))

/-- `CKSUM base, len` (R84). -/
def cksum (base : Byte) (len : Half) : List Instr := [.ckclr, .ckrun base len, .ckfin]

/-- `VERIFYTX` (R84). -/
def verifyTx : List Instr := cksum 0x00 72

/-- `VERIFYRX` for a current `RXLEN` of n, n ≥ 20 (R84). -/
def verifyRx (n : Nat) : List Instr := cksum 0x94 (BitVec.ofNat 16 (n - Config.iphLen))

/-- Stores of the bytes of a list into `RXB` from index `i` on. -/
def storeRx : Nat → List Byte → List Instr
  | _, [] => []
  | i, b :: bs => .stb (BitVec.ofNat 8 (Config.rxBase + i)) (b.setWidth 16) :: storeRx (i + 1) bs

/-- `LDRX b0, b1, ...` of at most 92 bytes (R84). -/
def ldrx (bs : List Byte) : List Instr := storeRx 0 bs ++ [.setrxlen (BitVec.ofNat 16 bs.length)]

/-- `SETSEQ v` (R84). -/
def setSeq (v : Half) : List Instr := [.wrf 0x04 v, .sealTx]

/-- The list rule R84 says has the effect of `SEAL`, for the checksum `c` its `CKFIN` returns. -/
def sealByHand (c : Half) : List Instr :=
  [.wrf 0x02 0, .ckclr, .ckrun 0x00 72, .ckfin, .wrf 0x02 c]

end Sys2Proof.Machine
end

