-- ==== Sys2Proof/Machine/Probe.lean ====
section
/-! DEFINITION. The host's run of probes (R182 to R187, R194 to R196): what it issues, reading the block's responses, and where it stops. -/

namespace Sys2Proof.Machine

/-- What the network does with one attempt (R183 to R185): the part of a run that the host does not decide. -/
inductive NetEvent where
  /-- The transmission fails (R183). -/
  | sendFailure
  /-- No reply within the wait (R184). -/
  | timeout
  /-- An error while waiting (R184). -/
  | waitError
  /-- The read of the datagram fails (R185). -/
  | readFailure
  /-- A datagram is read (R185). -/
  | datagram (bs : List Byte)
  deriving DecidableEq, Repr

/-- The failures that abort a whole run (R183 to R185, R193 (a)). -/
inductive HostFatal where
  | send
  | wait
  | read
  /-- `CLASS` raised `ShortDatagram`: fatal, as a read failure is (R185, D11). -/
  | shortDatagram
  deriving DecidableEq, Repr

/-- Why a run is over (R184 to R186). -/
inductive HostStop where
  /-- All the attempts allowed were made, the last one with success (R186). -/
  | capReached
  /-- The wait elapsed (R184). -/
  | timedOut
  /-- `CLASS` returned 1 (R185, R195). -/
  | selfEcho
  /-- `CLASS` returned 2; the `VAL` of `DESC` (R185). -/
  | errorReply (descriptor : Word)
  /-- The run is aborted. -/
  | fatal (cause : HostFatal)
  deriving DecidableEq, Repr

/-- What the host does, one thing at a time. Only `issue` reaches the block. -/
inductive HostAction where
  /-- Issues a command (R182 to R186). -/
  | issue (i : Instr)
  /-- Transmits a message (R183). -/
  | transmit (message : List Byte)
  /-- Waits for a reply, at most this many seconds (R184). -/
  | wait (seconds : Nat)
  /-- Reads one datagram from the socket (R185). -/
  | receive
  /-- Sleeps between two attempts (R186). -/
  | sleep (seconds : Nat)
  deriving DecidableEq, Repr

/-- The command an action issues. -/
def commandOf? : HostAction → Option Instr
  | .issue i => some i
  | .transmit _ => none
  | .wait _ => none
  | .receive => none
  | .sleep _ => none

/-- The message an action transmits. -/
def messageOf? : HostAction → Option (List Byte)
  | .issue _ => none
  | .transmit m => some m
  | .wait _ => none
  | .receive => none
  | .sleep _ => none

/-- The identifier the host passes to `BUILD` for a process id (R196). -/
def hostIdent (pid : Nat) : Half := BitVec.ofNat 16 pid

/-- Send (R183): the 72 bytes of the template, in rising order. -/
def hostSend : List Instr := (List.range Config.msgLen).map (fun i => .ldb (BitVec.ofNat 8 i))

/-- Receive (R185): at most the first 92 bytes stored, then their number declared. -/
def hostReceive (datagram : List Byte) : List Instr := ldrx (datagram.take Config.rxCap)

/-- What the host does after `CLASS` (R185). -/
inductive HostMove where
  /-- The attempt succeeded. -/
  | goOn
  /-- The reply is an ICMP error: `DESC`, then stop. -/
  | describe
  /-- Stop at once. -/
  | halt (r : HostStop)
  deriving DecidableEq, Repr

/-- What the host does after the response to `CLASS` (R185): a fault is fatal, 0 is success, 1 stops at once, 2 asks for the
descriptor. -/
def hostAfterClass (r : Response) : HostMove :=
  if r.err ≠ 0 then .halt (.fatal .shortDatagram)
  else if r.val = 0 then .goOn
  else if r.val = 1 then .halt .selfEcho
  else .describe

/-- One attempt as far as it got: what the host did, why it stops (none after a success), the block after it. -/
structure HostAttempt where
  actions : List HostAction
  stop : Option HostStop
  block : State
  deriving DecidableEq, Repr

/-- The datagram the 72 values of the send make, first byte first (R183). -/
def hostMessage (s : State) : List Byte := (s.valuesOf hostSend).map (fun v => v.setWidth 8)

/-- Step 2 (R183): read the template, transmit it. -/
def hostSendActions (s : State) : List HostAction := hostSend.map .issue ++ [.transmit (hostMessage s)]

/-- Steps 4 and 5 (R185), on a datagram read. -/
def hostClassify (d : List Byte) (s : State) : HostAttempt :=
  let commands := hostReceive d ++ [.classify]
  let t := s.afterAll commands
  match hostAfterClass t.response with
  | .goOn => ⟨commands.map .issue, none, t⟩
  | .halt r => ⟨commands.map .issue, some r, t⟩
  | .describe => ⟨commands.map .issue ++ [.issue .desc], some (.errorReply (t.after .desc).response.val), t.after .desc⟩

/-- Steps 2 to 5 of one attempt (R183 to R185). -/
def hostAttempt (e : NetEvent) (s : State) : HostAttempt :=
  let sent := hostSendActions s
  let t := s.afterAll hostSend
  match e with
  | .sendFailure => ⟨sent, some (.fatal .send), t⟩
  | .timeout => ⟨sent ++ [.wait Config.waitTimeoutS], some .timedOut, t⟩
  | .waitError => ⟨sent ++ [.wait Config.waitTimeoutS], some (.fatal .wait), t⟩
  | .readFailure => ⟨sent ++ [.wait Config.waitTimeoutS, .receive], some (.fatal .read), t⟩
  | .datagram d =>
    let a := hostClassify d t
    ⟨sent ++ [.wait Config.waitTimeoutS, .receive] ++ a.actions, a.stop, a.block⟩

/-- Advance (R186): the commands after a successful attempt `k`; `NEXT` only where an attempt follows (D20). -/
def hostAdvance (k : Nat) : List Instr := if k < Config.maxAttempts then [.nextSeq] else []

/-- The sleep after a successful attempt `k`, skipped after the last (R186). -/
def hostPause (k : Nat) : List HostAction := if k < Config.maxAttempts then [.sleep Config.intervalS] else []

/-- A run of the host: what it did, how many replies it received (R185), why it stopped, and the block at its end. -/
structure HostRun where
  actions : List HostAction
  received : Nat
  stop : HostStop
  block : State
  deriving DecidableEq, Repr

/-- The attempts from number `k` on, `left` of them at most, one after the other until one stops the run (R186, R191).
`net k` is what the network does with attempt `k`. -/
def hostAttempts (net : Nat → NetEvent) : (left k : Nat) → State → HostRun
  | 0, _, s => ⟨[], 0, .capReached, s⟩
  | left + 1, k, s =>
    let a := hostAttempt (net k) s
    match a.stop with
    | some r => ⟨a.actions, 0, r, a.block⟩
    | none =>
      let r := hostAttempts net left (k + 1) (a.block.afterAll (hostAdvance k))
      ⟨a.actions ++ (hostAdvance k).map .issue ++ hostPause k ++ r.actions, r.received + 1, r.stop, r.block⟩

/-- A whole run (R182 to R187): Build once, then the attempts. -/
def hostRun (pid : Nat) (net : Nat → NetEvent) (s : State) : HostRun :=
  let r := hostAttempts net Config.maxAttempts 1 (s.after (.build (hostIdent pid)))
  { r with actions := .issue (.build (hostIdent pid)) :: r.actions }

/-- The command trace of a run (R187). -/
def HostRun.commands (r : HostRun) : List Instr := r.actions.filterMap commandOf?

/-- The messages of a run, in the order sent, their number is the attempts sent (R180, R190). The message of a
transmission that failed is among them: DESIGN CHOICE, unsafe, log entry 12 (the spec gives no count after a fatal error). -/
def HostRun.sent (r : HostRun) : List (List Byte) := r.actions.filterMap messageOf?

/-- The replies lost (R190). -/
def HostRun.loss (r : HostRun) : Nat := r.sent.length - r.received

end Sys2Proof.Machine
end

