-- ==== Sys2Proof/Safety.lean ====
section
/-! DEFINITION. The terms claims are stated in: the invariant (R34), a sealed template (R125), a good run (R198), the access table (R33), the match and mask table (R79), the traces of a run (R187), and the other forms of the checksum (R54, R101, R106). -/

namespace Sys2Proof.Machine

/-- The invariants of R34 ((d) is the width of `ACC`), memory in canonical form, and no byte in a hole of `BUF` (R37). -/
abbrev State.Inv (s : State) : Prop :=
  (s.phase = false → s.hold = 0) ∧ s.rxlen.toNat ≤ 92 ∧ s.esr.getLsbD 0 = false ∧ s.esr.getLsbD 7 = false ∧
    Memory.wf s.mem ∧ ∀ c ∈ s.mem, implemented c.1 = true

/-- The registers are at their reset values and the buffers hold anything (R40, R240). -/
abbrev State.RegistersReset (s : State) : Prop :=
  s.acc = 0 ∧ s.hold = 0 ∧ s.phase = false ∧ s.ckr = 0 ∧ s.rxlen = 0 ∧ s.esr = 0

/-- No fault recorded: a run that ends here is good (R198, R220). -/
abbrev State.Good (s : State) : Prop := s.esr = 0

/-- The 72 bytes of `TXB` with the checksum field taken as zero (R85, R125). -/
def State.txbZeroField (s : State) : List Byte := (s.txb.set 2 0).set 3 0

/-- The template satisfies the ICMPHeader invariant (R85, R125): bytes 2 and 3 hold `CSUM` of the 72 bytes computed with
those two bytes as zero. -/
abbrev State.Sealed (s : State) : Prop := s.readField16 .tCksum = csum s.txbZeroField

/-- A set of pieces of state: registers by name, bytes of `BUF` by address. -/
structure Footprint where
  acc : Bool := false
  hold : Bool := false
  phase : Bool := false
  ckr : Bool := false
  rxlen : Bool := false
  esr : Bool := false
  byte : Nat → Bool := fun _ => false

/-- The addresses of a template or reply field. -/
def fieldBytes (f : Option Field) (a : Nat) : Bool :=
  match f with
  | none => false
  | some f => decide (fieldAddr f ≤ a ∧ a < fieldAddr f + f.bytes)

/-- The column `writes` of R33: what a command that does not fault may write. -/
def writesOf : Instr → Footprint
  | .nop => {}
  | .srst => { acc := true, hold := true, phase := true, ckr := true, rxlen := true, esr := true }
  | .rds _ => {}
  | .ckclr => { acc := true, hold := true, phase := true }
  | .ckput _ => { acc := true, hold := true, phase := true }
  | .ckrun _ _ => { acc := true, hold := true, phase := true }
  | .ckfin => { ckr := true }
  | .stb addr _ => { byte := fun a => decide (a = addr.toNat) }
  | .ldb _ => {}
  | .wrf sel _ => { byte := fieldBytes (txField? sel) }
  | .build _ => { acc := true, hold := true, phase := true, ckr := true, byte := fun a => decide (a < 72) }
  | .sealTx => { acc := true, hold := true, phase := true, ckr := true, byte := fun a => decide (a = 2 ∨ a = 3) }
  | .nextSeq =>
    { acc := true, hold := true, phase := true, ckr := true, byte := fun a => decide (a = 2 ∨ a = 3 ∨ a = 6 ∨ a = 7) }
  | .setrxlen _ => { rxlen := true }
  | .rdf _ => {}
  | .classify => {}
  | .desc => {}

/-- The register `RDS` selects, as a piece of state (R32). -/
def regFootprint : Option RegSel → Footprint
  | none => {}
  | some .esr => { esr := true }
  | some .ckr => { ckr := true }
  | some .acc => { acc := true }
  | some .ckst => { hold := true, phase := true }
  | some .rxlen => { rxlen := true }

/-- The column `reads` of R33: what the response and the values written depend on. -/
def readsOf : Instr → Footprint
  | .nop => {}
  | .srst => {}
  | .rds sel => regFootprint (regSel? sel)
  | .ckclr => {}
  | .ckput _ => { acc := true, hold := true, phase := true }
  | .ckrun base len =>
    { acc := true, hold := true, phase := true, rxlen := true,
      byte := fun a => decide (base.toNat ≤ a ∧ a < base.toNat + len.toNat) }
  | .ckfin => { acc := true, hold := true, phase := true }
  | .stb _ _ => {}
  | .ldb addr => { rxlen := true, byte := fun a => decide (a = addr.toNat) }
  | .wrf _ _ => {}
  | .build _ => {}
  | .sealTx => { byte := fun a => decide (a < 72) }
  | .nextSeq => { byte := fun a => decide (a < 72) }
  | .setrxlen _ => {}
  | .rdf sel => { rxlen := true, byte := fieldBytes ((fieldSel? sel).map fieldOf) }
  | .classify => { rxlen := true, byte := fun a => decide (a = 0x94 ∨ a = 0x95) }
  | .desc => { rxlen := true, byte := fun a => decide (a = 0x94 ∨ a = 0x95) }

/-- Two states have the same value in every piece of the set. -/
def AgreeOn (p : Footprint) (s t : State) : Prop :=
  (p.acc = true → s.acc = t.acc) ∧ (p.hold = true → s.hold = t.hold) ∧ (p.phase = true → s.phase = t.phase) ∧
    (p.ckr = true → s.ckr = t.ckr) ∧ (p.rxlen = true → s.rxlen = t.rxlen) ∧ (p.esr = true → s.esr = t.esr) ∧
    ∀ a, p.byte a = true → s.readByte a = t.readByte a

/-- Every piece of the spec's state outside the set is the same in both states. -/
def SameOutside (p : Footprint) (s t : State) : Prop :=
  (p.acc = false → s.acc = t.acc) ∧ (p.hold = false → s.hold = t.hold) ∧ (p.phase = false → s.phase = t.phase) ∧
    (p.ckr = false → s.ckr = t.ckr) ∧ (p.rxlen = false → s.rxlen = t.rxlen) ∧ (p.esr = false → s.esr = t.esr) ∧
    ∀ a, p.byte a = false → s.readByte a = t.readByte a

/-- The causes a command can raise (R222). -/
def causesOf : Instr → List Cause
  | .nop => []
  | .srst => []
  | .rds _ => [.illegalField]
  | .ckclr => []
  | .ckput _ => [.accOverflow]
  | .ckrun _ _ => [.addressRange, .shortDatagram, .accOverflow]
  | .ckfin => [.accOverflow]
  | .stb _ _ => [.addressRange]
  | .ldb _ => [.addressRange, .shortDatagram]
  | .wrf _ _ => [.illegalField, .illegalCommand]
  | .build _ => []
  | .sealTx => []
  | .nextSeq => []
  | .setrxlen _ => [.lengthRange]
  | .rdf _ => [.illegalField, .shortDatagram]
  | .classify => [.shortDatagram]
  | .desc => [.shortDatagram]

/-- One row of the table of R79: match, mask, and the command whose operands are the bits the mask leaves free. -/
structure CommandRow where
  mat : Word
  mask : Word
  command : Word → Instr

/-- The word is the command of the row (R79). -/
abbrev CommandRow.Fits (r : CommandRow) (w : Word) : Prop := w &&& r.mask = r.mat

/-- The match and mask table of R79, transcribed apart from the decoder's opcode map. -/
def commandRows : List CommandRow :=
  [ ⟨0x00000000, 0xFFFFFFFF, fun _ => .nop⟩,
    ⟨0x01000000, 0xFFFFFFFF, fun _ => .srst⟩,
    ⟨0x02000000, 0xFF00FFFF, fun w => .rds (w.extractLsb' 16 8)⟩,
    ⟨0x10000000, 0xFFFFFFFF, fun _ => .ckclr⟩,
    ⟨0x11000000, 0xFFFFFF00, fun w => .ckput (w.extractLsb' 0 16)⟩,
    ⟨0x12000000, 0xFF000000, fun w => .ckrun (w.extractLsb' 16 8) (w.extractLsb' 0 16)⟩,
    ⟨0x13000000, 0xFFFFFFFF, fun _ => .ckfin⟩,
    ⟨0x20000000, 0xFF00FF00, fun w => .stb (w.extractLsb' 16 8) (w.extractLsb' 0 16)⟩,
    ⟨0x21000000, 0xFF00FFFF, fun w => .ldb (w.extractLsb' 16 8)⟩,
    ⟨0x30000000, 0xFF000000, fun w => .wrf (w.extractLsb' 16 8) (w.extractLsb' 0 16)⟩,
    ⟨0x31000000, 0xFFFF0000, fun w => .build (w.extractLsb' 0 16)⟩,
    ⟨0x32000000, 0xFFFFFFFF, fun _ => .sealTx⟩,
    ⟨0x33000000, 0xFFFFFFFF, fun _ => .nextSeq⟩,
    ⟨0x40000000, 0xFFFF0000, fun w => .setrxlen (w.extractLsb' 0 16)⟩,
    ⟨0x41000000, 0xFF00FFFF, fun w => .rdf (w.extractLsb' 16 8)⟩,
    ⟨0x42000000, 0xFFFFFFFF, fun _ => .classify⟩,
    ⟨0x43000000, 0xFFFFFFFF, fun _ => .desc⟩ ]

/-- One row of the field table as numbers (R78, R143): the selector, the `BUF` address of the first byte, its bytes, the
lowest bit taken and how many bits, and the least `RXLEN` the row needs (0 for a field of `TXB`). -/
structure FieldRow where
  sel : Byte
  addr : Nat
  bytes : Nat
  low : Nat
  bits : Nat
  need : Nat

/-- The field table of R78 with the lengths of R143, transcribed apart from the machine's own table. -/
def fieldRows : List FieldRow :=
  [ ⟨0x00, 0x00, 1, 0, 8, 0⟩, ⟨0x01, 0x01, 1, 0, 8, 0⟩, ⟨0x02, 0x02, 2, 0, 16, 0⟩, ⟨0x03, 0x04, 2, 0, 16, 0⟩,
    ⟨0x04, 0x06, 2, 0, 16, 0⟩,
    ⟨0x10, 0x94, 1, 0, 8, 21⟩, ⟨0x11, 0x95, 1, 0, 8, 22⟩, ⟨0x12, 0x96, 2, 0, 16, 24⟩, ⟨0x13, 0x98, 2, 0, 16, 26⟩,
    ⟨0x14, 0x9A, 2, 0, 16, 28⟩,
    ⟨0x20, 0x80, 1, 0, 8, 1⟩, ⟨0x21, 0x81, 1, 0, 8, 2⟩, ⟨0x22, 0x82, 2, 0, 16, 4⟩, ⟨0x23, 0x84, 2, 0, 16, 6⟩,
    ⟨0x24, 0x86, 2, 0, 16, 8⟩, ⟨0x25, 0x88, 1, 0, 8, 9⟩, ⟨0x26, 0x89, 1, 0, 8, 10⟩, ⟨0x27, 0x8A, 2, 0, 16, 12⟩,
    ⟨0x28, 0x8C, 4, 0, 32, 16⟩, ⟨0x29, 0x90, 4, 0, 32, 20⟩,
    ⟨0x2A, 0x80, 1, 4, 4, 1⟩, ⟨0x2B, 0x80, 1, 0, 4, 1⟩, ⟨0x2C, 0x86, 2, 13, 3, 8⟩, ⟨0x2D, 0x86, 2, 0, 13, 8⟩ ]

/-- The bytes of `BUF` from `a` on as a list (R111). -/
def State.range (s : State) (a n : Nat) : List Byte := (List.range n).map (fun k => s.readByte (a + k))

/-- The loop form of `FOLD` (R101), for at most `n` passes. -/
def foldLoop : Nat → Nat → Nat
  | 0, a => a
  | n + 1, a => if a / 0x10000 = 0 then a else foldLoop n (a % 0x10000 + a / 0x10000)

/-- The raw sum of `CSUM_LE` (R54): little-endian words, an odd trailing byte added as a number. -/
def sumLE : List Byte → Nat
  | [] => 0
  | [b] => b.toNat
  | b0 :: b1 :: rest => b0.toNat + 256 * b1.toNat + sumLE rest

/-- `CSUM_LE` (R54), for a byte list whose raw sum is below 2^32. -/
def csumLE (bs : List Byte) : Half := 0xFFFF - fold (sumLE bs)

/-- Sixteen-bit addition with end-around carry (R106 (f)). -/
def addEndAround (x w : Nat) : Nat := if 0xFFFF < x + w then (x + w) % 0x10000 + 1 else x + w

/-- The end-around adder run over the words of a byte list, from `x` (R106 (f)). -/
def sumEndAround (x : Nat) : List Byte → Nat
  | [] => x
  | [b] => addEndAround x (b.toNat * 256)
  | hi :: lo :: rest => sumEndAround (addEndAround x (wireWord hi lo).toNat) rest

/-- `bs` with a 16-bit value stored at index `i`, high byte first (R52, R106 (a)). -/
def putHalf (bs : List Byte) (i : Nat) (v : Half) : List Byte := (bs.set i (hiByte v)).set (i + 1) (loByte v)

/-- A datagram with these bytes at indices 20 and 21, the type and the code `CLASS` looks at (R144). -/
abbrev Replies (d : List Byte) (t c : Byte) : Prop := 22 ≤ d.length ∧ d[20]? = some t ∧ d[21]? = some c

/-- The 72 `LDB` of a send (R183, R187). -/
def sendTrace : List Instr := (List.range 72).map (fun i => .ldb (BitVec.ofNat 8 i))

/-- The commands of an attempt whose reply is `d`, `CLASS` the last (R187): 72 `LDB`, up to 92 `STB`, `SETRXLEN`, `CLASS`. -/
def attemptTrace (d : List Byte) : List Instr :=
  sendTrace ++
    (List.range (min d.length 92)).map (fun i => .stb (BitVec.ofNat 8 (0x80 + i)) ((d.getD i 0).setWidth 16)) ++
    [.setrxlen (BitVec.ofNat 16 (min d.length 92)), .classify]

/-- The trace of a run's first `m` attempts, all successful with replies `ds 1` to `ds m` (R187). -/
def successTrace (pid : Nat) (ds : Nat → List Byte) (m : Nat) : List Instr :=
  .build (BitVec.ofNat 16 pid) ::
    (List.range m).flatMap (fun j => attemptTrace (ds (j + 1)) ++ if j + 1 < 5 then [.nextSeq] else [])

end Sys2Proof.Machine
end

