-- ==== Sys2Proof/Certificates/Slice0/Obligations.lean ====
section
/-! DEFINITION. The statements about the Packet Codec, each from the rules of spec/ its docstring names. -/

open Sys2Proof Sys2Proof.Machine

/-! ### Decoding and encoding -/

/-- R83's examples, and one word for every other command, decode to the command they stand for. -/
def Obligations.DecodesWordsWrittenOutFromTheSpec : Prop :=
  decode 0x00000000 = .ok .nop ∧ decode 0x01000000 = .ok .srst ∧ decode 0x02000000 = .ok (.rds 0x00) ∧
  decode 0x10000000 = .ok .ckclr ∧ decode 0x110000AB = .ok (.ckput 0xAB) ∧ decode 0x12000048 = .ok (.ckrun 0x00 72) ∧
  decode 0x13000000 = .ok .ckfin ∧ decode 0x20800045 = .ok (.stb 0x80 0x45) ∧ decode 0x21030000 = .ok (.ldb 0x03) ∧
  decode 0x30040002 = .ok (.wrf 0x04 2) ∧ decode 0x31001234 = .ok (.build 0x1234) ∧ decode 0x32000000 = .ok .sealTx ∧
  decode 0x33000000 = .ok .nextSeq ∧ decode 0x4000005C = .ok (.setrxlen 92) ∧ decode 0x41280000 = .ok (.rdf 0x28) ∧
  decode 0x42000000 = .ok .classify ∧ decode 0x43000000 = .ok .desc

/-- R70 to R74, R79: the word of a well-formed command decodes to that command, every operand at every value. -/
def Obligations.DecodeInvertsEncode : Prop :=
  ∀ i : Instr, i.wf = true → decode (encode i) = .ok i

/-- R79 ("Bits left free by the mask are the operand"), R83: a word that decodes is the word of the well-formed command it
decodes to, so no bit of a legal word is dropped. -/
def Obligations.EncodeInvertsDecode : Prop :=
  ∀ (w : Word) (i : Instr), decode w = .ok i → i.wf = true ∧ encode i = w

/-- R79: seventeen disjoint rows; a word is the command of the row it fits, with the operands the mask leaves free; a word
that fits no row is no command. -/
def Obligations.DecodeFollowsTheMatchAndMaskTable : Prop :=
  commandRows.length = 17 ∧
  commandRows.Pairwise (fun r r' => ∀ w : Word, ¬ (r.Fits w ∧ r'.Fits w)) ∧
  (∀ r ∈ commandRows, ∀ w : Word, r.Fits w → decode w = .ok (r.command w)) ∧
  (∀ w : Word, (∀ r ∈ commandRows, ¬ r.Fits w) → ∃ e, decode w = .error e)

/-- R80: a word that matches no row raises `IllegalCommand` and changes no state but `ESR[1]`; either its `OP` is not one of
the seventeen, or its `OP` is defined and a bit its format requires to be zero is one; every word is a command or illegal. -/
def Obligations.IllegalWordSetsOnlyEsrBitOne : Prop :=
  (∀ (s : State) (w : Word) (q : List HostInput), s.inputs = .command w :: q → (∀ r ∈ commandRows, ¬ r.Fits w) →
    step s = .next { s with inputs := q, esr := s.esr ||| 0x02, rsp := some ⟨1, 0⟩ }) ∧
  (∀ w : Word, decode w = .error .undefinedOpcode ↔ ∀ r ∈ commandRows, opField r.mat ≠ opField w) ∧
  (∀ w : Word, decode w = .error .reservedBits ↔
    (∃ r ∈ commandRows, opField r.mat = opField w) ∧ ∀ r ∈ commandRows, ¬ r.Fits w) ∧
  (∀ w : Word, (∃ i, decode w = .ok i) ↔ ∃ r ∈ commandRows, r.Fits w)

/-! ### The step -/

/-- R17, R28: the oldest word the host has issued is decoded, and the step is that command executed; the queue of issued
words (the model's own field, log entry 3) loses it. -/
def Obligations.StepRunsTheDecodedCommand : Prop :=
  ∀ (s : State) (w : Word) (q : List HostInput) (i : Instr), s.inputs = .command w :: q → decode w = .ok i →
    step s = exec i { s with inputs := q }

/-- R230: with nothing issued the block holds its state. -/
def Obligations.IdleBlockHoldsItsState : Prop :=
  ∀ s : State, s.inputs = [] → step s = .next s

/-- R17, R75, R189, R211: every word gets exactly one defined response; `VAL` is 0 whenever `ERR` is not 0, and no code above
6 is produced. -/
def Obligations.EveryWordGetsOneResponse : Prop :=
  ∀ (s : State) (w : Word) (q : List HostInput), s.inputs = .command w :: q →
    ∃ t r, step s = .next t ∧ t.inputs = q ∧ t.rsp = some r ∧ r.err.toNat ≤ 6 ∧ (r.err ≠ 0 → r.val = 0)

/-- The model's own fields (log entries 2 to 4): a command leaves the host's queue and the reset number alone. -/
def Obligations.CommandsLeaveTheQueueAlone : Prop :=
  ∀ (i : Instr) (s t : State), exec i s = .next t → t.inputs = s.inputs ∧ t.resets = s.resets

/-- R27: the response is no state. A command does the same whatever the last response was and whatever is still issued. -/
def Obligations.LastResponseIsNotRead : Prop :=
  ∀ (i : Instr) (s t : State) (r : Option Response) (q : List HostInput), exec i s = .next t →
    exec i { s with rsp := r, inputs := q } = .next { t with inputs := q }

/-! ### Reset -/

/-- R40, R240: at reset the registers are 0 and every buffer byte is a free value (log entry 2); a byte of `TXB` can be read
at once and reads as that value, a byte of `RXB` cannot be read. -/
def Obligations.ResetStateIsAsTheSpecSays : Prop :=
  State.reset.RegistersReset ∧ (∀ a, State.reset.readByte a = Config.resetByte 0 a) ∧
  (∀ a : Byte, a.toNat ≤ 0x47 →
    exec (.ldb a) State.reset = .next { State.reset with rsp := some ⟨0, (Config.resetByte 0 a.toNat).setWidth 32⟩ }) ∧
  (∀ a : Byte, 0x80 ≤ a.toNat → a.toNat ≤ 0xDB →
    exec (.ldb a) State.reset = .next { State.reset with esr := 0x20, rsp := some ⟨5, 0⟩ })

/-- R240, R241: the reset input puts every register at its reset value and leaves every buffer byte a new free value; no
response is returned (the queue, the reset number and "no response" are the model's fields, log entries 2 to 4). -/
def Obligations.ResetInputResetsTheBlock : Prop :=
  ∀ (s : State) (q : List HostInput), s.inputs = .reset :: q →
    ∃ t, step s = .next t ∧ t.RegistersReset ∧ (∀ a, t.readByte a = Config.resetByte (s.resets + 1) a) ∧
      t.inputs = q ∧ t.rsp = none

/-- R242: what holds right after reset, whatever the buffers hold. -/
def Obligations.ResetGuarantees : Prop :=
  ∀ s : State, s.RegistersReset →
    exec .ckfin s = .next { s with ckr := 0xFFFF, rsp := some ⟨0, 0xFFFF⟩ } ∧
    (∀ sel : Byte, sel.toNat ≤ 4 → exec (.rds sel) s = .next { s with rsp := some ⟨0, 0⟩ }) ∧
    (∀ a : Byte, 0x80 ≤ a.toNat → a.toNat ≤ 0xDB →
      exec (.ldb a) s = .next { s with esr := 0x20, rsp := some ⟨5, 0⟩ }) ∧
    (∀ (base : Byte) (len : Half), 0 < len.toNat → 0x80 ≤ base.toNat → base.toNat + len.toNat ≤ 0xDC →
      exec (.ckrun base len) s = .next { s with esr := 0x20, rsp := some ⟨5, 0⟩ }) ∧
    exec .classify s = .next { s with esr := 0x20, rsp := some ⟨5, 0⟩ } ∧
    exec .desc s = .next { s with esr := 0x20, rsp := some ⟨5, 0⟩ } ∧
    (∀ sel : Byte, (0x10 ≤ sel.toNat ∧ sel.toNat ≤ 0x14) ∨ (0x20 ≤ sel.toNat ∧ sel.toNat ≤ 0x2D) →
      exec (.rdf sel) s = .next { s with esr := 0x20, rsp := some ⟨5, 0⟩ }) ∧
    (∀ a : Byte, a.toNat ≤ 0x47 → exec (.ldb a) s = .next { s with rsp := some ⟨0, (s.readByte a.toNat).setWidth 32⟩ }) ∧
    (∀ sel : Byte, sel.toNat ≤ 4 → ∃ v, exec (.rdf sel) s = .next { s with rsp := some ⟨0, v⟩ }) ∧
    (∃ t v, exec .sealTx s = .next t ∧ t.rsp = some ⟨0, v⟩ ∧ t.Sealed) ∧
    (∃ t v, exec .nextSeq s = .next t ∧ t.rsp = some ⟨0, v⟩ ∧ t.Sealed)

/-! ### Invariants -/

/-- R34 (a) to (c) ((d) is the width of `ACC`), R37, and the model's canonical form of memory: every step keeps them. -/
def Obligations.EveryStepKeepsTheInvariant : Prop :=
  ∀ s t : State, s.Inv → step s = .next t → t.Inv

/-- R34, R40: the reset state meets the invariant. -/
def Obligations.ResetStateMeetsTheInvariant : Prop := State.reset.Inv

/-- R125: `BUILD`, `SEAL` and `NEXT` leave a sealed template; until a `WRF` or an `STB` into `TXB`, every command keeps it
sealed; and a sealed template sums to checksum zero. -/
def Obligations.SealedInvariant : Prop :=
  (∀ (i : Instr) (s t : State), (∃ v, i = .build v) ∨ i = .sealTx ∨ i = .nextSeq → exec i s = .next t → t.Sealed) ∧
  (∀ (i : Instr) (s t : State), (∀ sel v, i ≠ .wrf sel v) → (∀ (a : Byte) v, a.toNat ≤ 0x47 → i ≠ .stb a v) →
    s.Sealed → exec i s = .next t → t.Sealed) ∧
  (∀ s : State, s.Sealed → csum s.txb = 0)

/-! ### Faults -/

/-- R210: a command that raises a cause changes no register and no byte of `BUF`, sets the cause's bit of `ESR`, and answers
(code, 0); the next command is the next one issued. -/
def Obligations.FaultChangesOnlyItsEsrBit : Prop :=
  ∀ (s t : State) (w : Word) (q : List HostInput) (r : Response), s.inputs = .command w :: q → step s = .next t →
    t.rsp = some r → r.err ≠ 0 →
    ∃ n : Nat, 1 ≤ n ∧ n ≤ 6 ∧ r = ⟨BitVec.ofNat 8 n, 0⟩ ∧
      t = { s with inputs := q, esr := s.esr ||| BitVec.ofNat 8 (2 ^ n), rsp := some r }

/-- R26: bit n of `ESR` is set when a command raises the cause with code n and is cleared by no command but `SRST`; bits 0
and 7 stay 0; `RDS` selector 0x00 reads it. -/
def Obligations.EsrBitsAreSticky : Prop :=
  (∀ (s t : State) (w : Word) (q : List HostInput), s.inputs = .command w :: q → step s = .next t →
    decode w ≠ .ok .srst →
    (∀ n, s.esr.getLsbD n = true → t.esr.getLsbD n = true) ∧
    (∀ n : Nat, 1 ≤ n → n ≤ 6 → (∃ v, t.rsp = some ⟨BitVec.ofNat 8 n, v⟩) → t.esr.getLsbD n = true) ∧
    (∀ n, s.esr.getLsbD n = false → t.esr.getLsbD n = true → t.rsp = some ⟨BitVec.ofNat 8 n, 0⟩) ∧
    (s.esr.getLsbD 0 = false → t.esr.getLsbD 0 = false) ∧ (s.esr.getLsbD 7 = false → t.esr.getLsbD 7 = false)) ∧
  (∀ s : State, ∃ t, exec .srst s = .next t ∧ t.esr = 0) ∧
  (∀ s : State, exec (.rds 0x00) s = .next { s with rsp := some ⟨0, s.esr.setWidth 32⟩ })

/-- R29, R220: no command but `RDS ESR` depends on `ESR`, so a set bit does not stop later commands. -/
def Obligations.EsrAffectsNoOtherCommand : Prop :=
  ∀ (i : Instr) (s t : State) (e : Byte), i ≠ .rds 0x00 → exec i s = .next t →
    ∃ e', exec i { s with esr := e } = .next { t with esr := e' }

/-- R222: the causes each command can raise, no other and each of them in some state. -/
def Obligations.CausesOfEachCommand : Prop :=
  (∀ (i : Instr) (s t : State) (r : Response), exec i s = .next t → t.rsp = some r →
    r.err = 0 ∨ ∃ c ∈ causesOf i, r.err = causeErr c) ∧
  (∀ i : Instr, ∀ c ∈ causesOf i, ∃ (j : Instr) (s : State), j.mnemonic = i.mnemonic ∧ exec j s = .next (s.raise c))

/-- R212: `IllegalCommand`, exactly. -/
def Obligations.IllegalCommandExactly : Prop :=
  ∀ (s t : State) (w : Word) (q : List HostInput), s.inputs = .command w :: q → step s = .next t →
    ((∃ v, t.rsp = some ⟨1, v⟩) ↔
      (∀ r ∈ commandRows, ¬ r.Fits w) ∨
      ∃ sel imm, decode w = .ok (.wrf sel imm) ∧ (sel = 0x00 ∨ sel = 0x01) ∧ 0xFF < imm.toNat)

/-- R213, R214: `IllegalField` and `LengthRange`, exactly. -/
def Obligations.IllegalFieldAndLengthRangeExactly : Prop :=
  ∀ (i : Instr) (s t : State), exec i s = .next t →
    ((∃ v, t.rsp = some ⟨2, v⟩) ↔
      match i with
      | .wrf sel _ => 0x04 < sel.toNat
      | .rdf sel =>
        ¬ (sel.toNat ≤ 0x04 ∨ (0x10 ≤ sel.toNat ∧ sel.toNat ≤ 0x14) ∨ (0x20 ≤ sel.toNat ∧ sel.toNat ≤ 0x2D))
      | .rds sel => 0x04 < sel.toNat
      | _ => False) ∧
    ((∃ v, t.rsp = some ⟨3, v⟩) ↔
      match i with
      | .setrxlen n => 92 < n.toNat
      | _ => False)

/-- R215, R216: `AddressRange` and `ShortDatagram`, exactly. -/
def Obligations.AddressRangeAndShortDatagramExactly : Prop :=
  ∀ (i : Instr) (s t : State), exec i s = .next t →
    ((∃ v, t.rsp = some ⟨4, v⟩) ↔
      match i with
      | .stb a _ => ¬ (a.toNat ≤ 0x47 ∨ (0x80 ≤ a.toNat ∧ a.toNat ≤ 0xDB))
      | .ldb a => ¬ (a.toNat ≤ 0x47 ∨ (0x80 ≤ a.toNat ∧ a.toNat ≤ 0xDB))
      | .ckrun b n => ∃ k < n.toNat, ¬ (b.toNat + k ≤ 0x47 ∨ (0x80 ≤ b.toNat + k ∧ b.toNat + k ≤ 0xDB))
      | _ => False) ∧
    ((∃ v, t.rsp = some ⟨5, v⟩) ↔
      match i with
      | .ldb a => 0x80 ≤ a.toNat ∧ a.toNat ≤ 0xDB ∧ s.rxlen.toNat ≤ a.toNat - 0x80
      | .ckrun b n =>
        (∀ k < n.toNat, b.toNat + k ≤ 0x47 ∨ (0x80 ≤ b.toNat + k ∧ b.toNat + k ≤ 0xDB)) ∧
        ∃ k < n.toNat, 0x80 ≤ b.toNat + k ∧ b.toNat + k ≤ 0xDB ∧ s.rxlen.toNat ≤ b.toNat + k - 0x80
      | .rdf sel => ∃ r ∈ fieldRows, r.sel = sel ∧ s.rxlen.toNat < r.need
      | .classify => s.rxlen.toNat < 22
      | .desc => s.rxlen.toNat < 22
      | _ => False)

/-- R107, R217: `AccOverflow`, exactly, and that it cannot happen within 131074 bytes of a clear. -/
def Obligations.AccOverflowExactly : Prop :=
  (∀ (i : Instr) (s t : State), exec i s = .next t →
    ((∃ v, t.rsp = some ⟨6, v⟩) ↔
      match i with
      | .ckput imm => s.phase = true ∧ 2 ^ 32 ≤ s.acc.toNat + (s.hold.toNat * 256 + imm.toNat % 256)
      | .ckrun b n =>
        (∀ k < n.toNat, implemented (b.toNat + k) = true ∧ s.received (b.toNat + k) = true) ∧
        feeds ⟨s.acc, s.hold, s.phase⟩ (s.range b.toNat n.toNat) = none
      | .ckfin => s.phase = true ∧ 2 ^ 32 ≤ s.acc.toNat + s.hold.toNat * 256
      | _ => False)) ∧
  (∀ bs : List Byte, bs.length ≤ 131074 → ∃ S c, feeds clearStream bs = some S ∧ fin S = some c)

/-! ### Frames and dependence -/

/-- R33, column `writes`: a command that does not fault changes only what its row names; one that faults changes only
`ESR`. Every byte of `BUF` outside the bytes the row names reads as before. -/
def Obligations.FrameOfEveryCommand : Prop :=
  ∀ (i : Instr) (s t : State), exec i s = .next t →
    ∃ r, t.rsp = some r ∧ (r.err = 0 → SameOutside (writesOf i) s t) ∧ (r.err ≠ 0 → SameOutside { esr := true } s t)

/-- R33, column `reads`: the response of a command, and what it writes, depend only on what its row names. -/
def Obligations.CommandsDependOnlyOnWhatTheyRead : Prop :=
  ∀ (i : Instr) (s s' t t' : State), AgreeOn (readsOf i) s s' → exec i s = .next t → exec i s' = .next t' →
    t.rsp = t'.rsp ∧ ((∃ v, t.rsp = some ⟨0, v⟩) → AgreeOn (writesOf i) t t')

/-- R60: reads leave all state unchanged and repeat with the same result, `CKFIN` changes only `CKR` and repeats, the writes
named are idempotent, and `CKPUT`, `CKRUN` and `NEXT` are not. -/
def Obligations.ReadsAndIdempotentWrites : Prop :=
  (∀ (i : Instr) (s t : State) (v : Word),
    (∃ a, i = .ldb a ∨ i = .rdf a ∨ i = .rds a) ∨ i = .classify ∨ i = .desc →
    exec i s = .next t → t.rsp = some ⟨0, v⟩ → t = { s with rsp := some ⟨0, v⟩ } ∧ exec i t = .next t) ∧
  (∀ (s t : State) (v : Word), exec .ckfin s = .next t → t.rsp = some ⟨0, v⟩ →
    t = { s with ckr := t.ckr, rsp := some ⟨0, v⟩ } ∧ exec .ckfin t = .next t) ∧
  (∀ (i : Instr) (s t : State),
    (∃ a v, i = .stb a v ∨ i = .wrf a v ∨ i = .setrxlen v ∨ i = .build v) ∨ i = .ckclr ∨ i = .sealTx →
    exec i s = .next t → exec i t = .next t) ∧
  (∃ s t t', exec (.ckput 0) s = .next t ∧ exec (.ckput 0) t = .next t' ∧ t.phase ≠ t'.phase) ∧
  (∃ s t t', exec (.ckrun 0 1) s = .next t ∧ exec (.ckrun 0 1) t = .next t' ∧ t.phase ≠ t'.phase) ∧
  (∃ s t t', exec .nextSeq s = .next t ∧ exec .nextSeq t = .next t' ∧ t.readByte 7 ≠ t'.readByte 7)

/-- R62: a read returns the value of the last write to that cell, through any commands that do not write it. -/
def Obligations.LoadReturnsTheLastStore : Prop :=
  ∀ (s t u : State) (a : Byte) (b : Half) (is : List Instr),
    exec (.stb a b) s = .next t → t.rsp = some ⟨0, 0⟩ → (∀ i ∈ is, (writesOf i).byte a.toNat = false) →
    execAll is t = .next u → u.received a.toNat = true →
    exec (.ldb a) u = .next { u with rsp := some ⟨0, BitVec.ofNat 32 (b.toNat % 256)⟩ }

/-- R66: a range that passes the `AddressRange` test lies in one window, and a range of no bytes passes for every base. -/
def Obligations.AdmittedRangeLiesInOneWindow : Prop :=
  (∀ (base : Byte) (len : Half) (s t : State), exec (.ckrun base len) s = .next t → (∀ v, t.rsp ≠ some ⟨4, v⟩) →
    len = 0 ∨ base.toNat + len.toNat ≤ 0x48 ∨ (0x80 ≤ base.toNat ∧ base.toNat + len.toNat ≤ 0xDC)) ∧
  (∀ (base : Byte) (s : State), exec (.ckrun base 0) s = .next { s with rsp := some ⟨0, 0⟩ })

/-! ### The system and buffer commands -/

/-- R160: `NOP` changes nothing. -/
def Obligations.NopResult : Prop :=
  (∀ s : State, exec .nop s = .next { s with rsp := some ⟨0, 0⟩ }) ∧ ∀ w : Word, decode w = .ok .nop ↔ w = 0x00000000

/-- R161: `SRST` clears the six registers and keeps the buffers; it is the only command that clears `ESR`. -/
def Obligations.SrstResult : Prop :=
  (∀ s : State, exec .srst s =
    .next { s with acc := 0, hold := 0, phase := false, ckr := 0, rxlen := 0, esr := 0, rsp := some ⟨0, 0⟩ }) ∧
  (∀ (i : Instr) (s t : State), exec i s = .next t → s.esr ≠ 0 → t.esr = 0 → i = .srst) ∧
  encode .srst = 0x01000000

/-- R162: `RDS` returns the register its selector names and changes nothing; any other selector is `IllegalField`. -/
def Obligations.RdsResult : Prop :=
  ∀ s : State,
    exec (.rds 0x00) s = .next { s with rsp := some ⟨0, s.esr.setWidth 32⟩ } ∧
    exec (.rds 0x01) s = .next { s with rsp := some ⟨0, s.ckr.setWidth 32⟩ } ∧
    exec (.rds 0x02) s = .next { s with rsp := some ⟨0, s.acc⟩ } ∧
    exec (.rds 0x03) s = .next { s with rsp := some ⟨0, BitVec.ofNat 32 (s.phase.toNat * 256 + s.hold.toNat)⟩ } ∧
    exec (.rds 0x04) s = .next { s with rsp := some ⟨0, s.rxlen.setWidth 32⟩ } ∧
    ∀ sel : Byte,
      (0x04 < sel.toNat → exec (.rds sel) s = .next { s with esr := s.esr ||| 0x04, rsp := some ⟨2, 0⟩ }) ∧
      encode (.rds sel) = BitVec.ofNat 32 (0x02000000 + sel.toNat * 2 ^ 16)

/-- R163: `STB` stores its byte at every implemented address, whatever `RXLEN` is, and nothing else; a hole is
`AddressRange`. -/
def Obligations.StbResult : Prop :=
  ∀ (s : State) (a : Byte) (imm : Half),
    (a.toNat ≤ 0x47 ∨ (0x80 ≤ a.toNat ∧ a.toNat ≤ 0xDB) →
      ∃ t, exec (.stb a imm) s = .next t ∧ t = { s with mem := t.mem, rsp := some ⟨0, 0⟩ } ∧
        ∀ x, t.readByte x = if x = a.toNat then imm.setWidth 8 else s.readByte x) ∧
    (¬ (a.toNat ≤ 0x47 ∨ (0x80 ≤ a.toNat ∧ a.toNat ≤ 0xDB)) →
      exec (.stb a imm) s = .next { s with esr := s.esr ||| 0x10, rsp := some ⟨4, 0⟩ }) ∧
    (imm.toNat < 256 → encode (.stb a imm) = BitVec.ofNat 32 (0x20000000 + a.toNat * 2 ^ 16 + imm.toNat))

/-- R164: `LDB` returns the byte and changes nothing; a hole is `AddressRange`, a byte of `RXB` at or past `RXLEN` is
`ShortDatagram`. -/
def Obligations.LdbResult : Prop :=
  ∀ (s : State) (a : Byte),
    (a.toNat ≤ 0x47 ∨ (0x80 ≤ a.toNat ∧ a.toNat ≤ 0xDB ∧ a.toNat - 0x80 < s.rxlen.toNat) →
      exec (.ldb a) s = .next { s with rsp := some ⟨0, (s.readByte a.toNat).setWidth 32⟩ }) ∧
    (¬ (a.toNat ≤ 0x47 ∨ (0x80 ≤ a.toNat ∧ a.toNat ≤ 0xDB)) →
      exec (.ldb a) s = .next { s with esr := s.esr ||| 0x10, rsp := some ⟨4, 0⟩ }) ∧
    (0x80 ≤ a.toNat → a.toNat ≤ 0xDB → s.rxlen.toNat ≤ a.toNat - 0x80 →
      exec (.ldb a) s = .next { s with esr := s.esr ||| 0x20, rsp := some ⟨5, 0⟩ }) ∧
    encode (.ldb a) = BitVec.ofNat 32 (0x21000000 + a.toNat * 2 ^ 16)

/-! ### The checksum unit -/

/-- R100: the raw sum of a byte list, by its words, and its bound. -/
def Obligations.RawSumIsTheSumOfWireWords : Prop :=
  ∀ bs : List Byte,
    sum32 bs = ((List.range (bs.length / 2)).map
        (fun k => (bs[2 * k]?.getD 0).toNat * 256 + (bs[2 * k + 1]?.getD 0).toNat)).sum +
      (if bs.length % 2 = 1 then (bs[bs.length - 1]?.getD 0).toNat * 256 else 0) ∧
    sum32 bs ≤ 65535 * ((bs.length + 1) / 2) ∧ (bs.length ≤ 131074 → sum32 bs < 2 ^ 32)

/-- R101: the fold is the document's loop, which needs at most two passes, and has the closed form. -/
def Obligations.FoldIsTheCarryLoop : Prop :=
  ∀ a : Nat, a < 2 ^ 32 →
    (∀ n, 2 ≤ n → foldLoop n a = (fold a).toNat ∧ foldLoop n a / 0x10000 = 0) ∧
    (fold a).toNat = (if a = 0 then 0 else (a - 1) % 65535 + 1) ∧
    (fold a = 0 ↔ a = 0) ∧ (fold a).toNat % 65535 = a % 65535 ∧ (a ≠ 0 → a % 65535 = 0 → fold a = 0xFFFF)

/-- R105: the streaming form agrees with the whole-buffer form, and feeding in pieces is feeding the concatenation. -/
def Obligations.StreamAgreesWithWholeBuffer : Prop :=
  (∀ bs : List Byte,
    ((match feeds clearStream bs with
      | none => True
      | some S => fin S = none) ↔ 2 ^ 32 ≤ sum32 bs) ∧
    (sum32 bs < 2 ^ 32 → ∃ S, feeds clearStream bs = some S ∧
      S.phase = decide (bs.length % 2 = 1) ∧
      S.hold = (if bs.length % 2 = 1 then bs[bs.length - 1]?.getD 0 else 0) ∧
      S.acc.toNat = sum32 (bs.take (bs.length / 2 * 2)) ∧
      fin S = some (csum bs))) ∧
  (∀ (S : Stream) (xs ys : List Byte), feeds S (xs ++ ys) = (feeds S xs).bind (fun S' => feeds S' ys))

/-- R106 (a), the verification law: with the checksum of the buffer stored in its zeroed field at an even index, the checksum
of the buffer is zero. -/
def Obligations.VerificationLaw : Prop :=
  ∀ (bs : List Byte) (i : Nat), i % 2 = 0 → i + 2 ≤ bs.length → bs.length ≤ 131074 →
    csum (putHalf bs i (csum (putHalf bs i 0))) = 0

/-- R106 (b) to (f): all-zero buffers, the two odd-length forms, padding, when the checksum is 0xFFFF or 0, and the
end-around-carry adder. -/
def Obligations.ChecksumLaws : Prop :=
  (∀ n, csum (List.replicate n 0) = 0xFFFF) ∧
  (∀ b : Byte, csum [b] = BitVec.ofNat 16 (0xFFFF - b.toNat * 256)) ∧
  (∀ b0 b1 b2 : Byte, csum [b0, b1, b2] = 0xFFFF - fold (b0.toNat * 256 + b1.toNat + b2.toNat * 256)) ∧
  (∀ bs : List Byte, bs.length % 2 = 1 → csum (bs ++ [0]) = csum bs) ∧
  (∀ bs : List Byte, sum32 bs < 2 ^ 32 →
    (csum bs = 0xFFFF ↔ ∀ b ∈ bs, b = 0) ∧ (csum bs = 0 ↔ sum32 bs ≠ 0 ∧ sum32 bs % 65535 = 0) ∧
    sumEndAround 0 bs = (fold (sum32 bs)).toNat)

/-- R54: the document's algorithm on a little-endian host, its result stored natively, puts the same two bytes on the
wire. -/
def Obligations.LittleEndianHostGivesTheSameBytes : Prop :=
  ∀ bs : List Byte, bs.length ≤ 131074 →
    loByte (csumLE bs) = hiByte (csum bs) ∧ hiByte (csumLE bs) = loByte (csum bs)

/-- R109: `CKCLR` clears the stream and keeps `CKR`. -/
def Obligations.CkclrResult : Prop :=
  (∀ s : State, exec .ckclr s = .next { s with acc := 0, hold := 0, phase := false, rsp := some ⟨0, 0⟩ }) ∧
  encode .ckclr = 0x10000000

/-- R110: `CKPUT` holds the first byte of a word, adds the word with the second, and raises `AccOverflow` instead of
wrapping. -/
def Obligations.CkputResult : Prop :=
  ∀ (s : State) (imm : Half),
    (s.phase = false →
      exec (.ckput imm) s = .next { s with hold := imm.setWidth 8, phase := true, rsp := some ⟨0, 0⟩ }) ∧
    (s.phase = true → s.acc.toNat + (s.hold.toNat * 256 + imm.toNat % 256) < 2 ^ 32 →
      exec (.ckput imm) s =
        .next { s with
          acc := BitVec.ofNat 32 (s.acc.toNat + (s.hold.toNat * 256 + imm.toNat % 256)), hold := 0, phase := false,
          rsp := some ⟨0, 0⟩ }) ∧
    (s.phase = true → 2 ^ 32 ≤ s.acc.toNat + (s.hold.toNat * 256 + imm.toNat % 256) →
      exec (.ckput imm) s = .next { s with esr := s.esr ||| 0x40, rsp := some ⟨6, 0⟩ }) ∧
    (imm.toNat < 256 → encode (.ckput imm) = BitVec.ofNat 32 (0x11000000 + imm.toNat))

/-- R111: `CKRUN` feeds a range of `BUF` whole or, with the first cause that applies, not at all; no bytes is legal for every
base. -/
def Obligations.CkrunResult : Prop :=
  ∀ (s : State) (base : Byte) (len : Half),
    ((∃ k < len.toNat, ¬ implemented (base.toNat + k) = true) →
      exec (.ckrun base len) s = .next { s with esr := s.esr ||| 0x10, rsp := some ⟨4, 0⟩ }) ∧
    ((∀ k < len.toNat, implemented (base.toNat + k) = true) →
      (∃ k < len.toNat, 0x80 ≤ base.toNat + k ∧ base.toNat + k ≤ 0xDB ∧ s.rxlen.toNat ≤ base.toNat + k - 0x80) →
      exec (.ckrun base len) s = .next { s with esr := s.esr ||| 0x20, rsp := some ⟨5, 0⟩ }) ∧
    ((∀ k < len.toNat, implemented (base.toNat + k) = true) →
      (∀ k < len.toNat, ¬ (0x80 ≤ base.toNat + k ∧ base.toNat + k ≤ 0xDB ∧ s.rxlen.toNat ≤ base.toNat + k - 0x80)) →
      (feeds ⟨s.acc, s.hold, s.phase⟩ (s.range base.toNat len.toNat) = none →
        exec (.ckrun base len) s = .next { s with esr := s.esr ||| 0x40, rsp := some ⟨6, 0⟩ }) ∧
      (∀ S, feeds ⟨s.acc, s.hold, s.phase⟩ (s.range base.toNat len.toNat) = some S →
        exec (.ckrun base len) s =
          .next { s with acc := S.acc, hold := S.hold, phase := S.phase, rsp := some ⟨0, 0⟩ } ∧
        S.phase = xor s.phase (decide (len.toNat % 2 = 1)))) ∧
    exec (.ckrun base 0) s = .next { s with rsp := some ⟨0, 0⟩ } ∧
    encode (.ckrun base len) = BitVec.ofNat 32 (0x12000000 + base.toNat * 2 ^ 16 + len.toNat)

/-- R112: `CKFIN` stores and returns the checksum of the bytes fed so far and keeps the stream. -/
def Obligations.CkfinResult : Prop :=
  (∀ s : State, s.acc.toNat + (if s.phase then s.hold.toNat * 256 else 0) < 2 ^ 32 →
    exec .ckfin s =
      .next { s with
        ckr := 0xFFFF - fold (s.acc.toNat + (if s.phase then s.hold.toNat * 256 else 0)),
        rsp := some ⟨0, (0xFFFF - fold (s.acc.toNat + (if s.phase then s.hold.toNat * 256 else 0)) : Half).setWidth 32⟩ }) ∧
  (∀ s : State, 2 ^ 32 ≤ s.acc.toNat + (if s.phase then s.hold.toNat * 256 else 0) →
    s.phase = true ∧ exec .ckfin s = .next { s with esr := s.esr ||| 0x40, rsp := some ⟨6, 0⟩ }) ∧
  (∀ s : State, s.acc = 0 → s.phase = false →
    exec .ckfin s = .next { s with ckr := 0xFFFF, rsp := some ⟨0, 0xFFFF⟩ }) ∧
  (∀ s : State, s.acc = 0 → s.phase = true →
    exec .ckfin s =
      .next { s with
        ckr := BitVec.ofNat 16 (0xFFFF - s.hold.toNat * 256),
        rsp := some ⟨0, BitVec.ofNat 32 (0xFFFF - s.hold.toNat * 256)⟩ }) ∧
  encode .ckfin = 0x13000000

/-- R57, R105: bytes are paired by position in the stream, so a run in two pieces is one run. -/
def Obligations.RunsConcatenate : Prop :=
  ∀ (s t u : State) (base base' : Byte) (m n k : Half),
    base'.toNat = base.toNat + m.toNat → k.toNat = m.toNat + n.toNat →
    exec (.ckrun base m) s = .next t → t.rsp = some ⟨0, 0⟩ →
    exec (.ckrun base' n) t = .next u → u.rsp = some ⟨0, 0⟩ → exec (.ckrun base k) s = .next u

/-! ### The encoder -/

/-- R121: `WRF` writes one field of the template, most significant byte first; the selector test comes first, then the 8-bit
value test. -/
def Obligations.WrfResult : Prop :=
  ∀ (s : State) (sel : Byte) (v : Half),
    (sel.toNat ≤ 0x04 → (sel.toNat ≤ 0x01 → v.toNat < 256) →
      ∃ t, exec (.wrf sel v) s = .next t ∧ t = { s with mem := t.mem, rsp := some ⟨0, 0⟩ } ∧
        ∀ x, t.readByte x =
          if sel = 0x00 then (if x = 0 then loByte v else s.readByte x)
          else if sel = 0x01 then (if x = 1 then loByte v else s.readByte x)
          else if sel = 0x02 then (if x = 2 then hiByte v else if x = 3 then loByte v else s.readByte x)
          else if sel = 0x03 then (if x = 4 then hiByte v else if x = 5 then loByte v else s.readByte x)
          else (if x = 6 then hiByte v else if x = 7 then loByte v else s.readByte x)) ∧
    (0x04 < sel.toNat → exec (.wrf sel v) s = .next { s with esr := s.esr ||| 0x04, rsp := some ⟨2, 0⟩ }) ∧
    (sel.toNat ≤ 0x01 → 256 ≤ v.toNat →
      exec (.wrf sel v) s = .next { s with esr := s.esr ||| 0x02, rsp := some ⟨1, 0⟩ }) ∧
    encode (.wrf sel v) = BitVec.ofNat 32 (0x30000000 + sel.toNat * 2 ^ 16 + v.toNat)

/-- R122: `BUILD` writes the whole Echo Request with sequence number 1 and seals it. The payload is the open parameter
(log entry 1): the statement holds for every value of it. -/
def Obligations.BuildResult : Prop :=
  ∀ (s : State) (ident : Half),
    ∃ t, exec (.build ident) s = .next t ∧
      t.readByte 0 = 8 ∧ t.readByte 1 = 0 ∧ t.readByte 2 = hiByte t.ckr ∧ t.readByte 3 = loByte t.ckr ∧
      t.readByte 4 = hiByte ident ∧ t.readByte 5 = loByte ident ∧ t.readByte 6 = 0 ∧ t.readByte 7 = 1 ∧
      (∀ j < 64, t.readByte (8 + j) = Config.payloadInit j) ∧ (∀ x, 72 ≤ x → t.readByte x = s.readByte x) ∧
      t.ckr = csum t.txbZeroField ∧ t.acc.toNat = sum32 t.txbZeroField ∧
      t = { s with
        mem := t.mem, acc := t.acc, hold := 0, phase := false, ckr := t.ckr, rsp := some ⟨0, t.ckr.setWidth 32⟩ } ∧
      encode (.build ident) = BitVec.ofNat 32 (0x31000000 + ident.toNat)

/-- R123: `SEAL` stores the checksum of the 72 bytes, computed with the field as zero, and leaves the checksum unit as after
`CKCLR` and a run over the zeroed message. -/
def Obligations.SealResult : Prop :=
  encode .sealTx = 0x32000000 ∧
  ∀ s : State,
    ∃ t, exec .sealTx s = .next t ∧
      t.ckr = csum s.txbZeroField ∧ t.acc.toNat = sum32 s.txbZeroField ∧ sum32 s.txbZeroField < 2 ^ 22 ∧
      feeds clearStream s.txbZeroField = some ⟨t.acc, 0, false⟩ ∧
      (∀ x, t.readByte x = if x = 2 then hiByte t.ckr else if x = 3 then loByte t.ckr else s.readByte x) ∧
      t = { s with
        mem := t.mem, acc := t.acc, hold := 0, phase := false, ckr := t.ckr, rsp := some ⟨0, t.ckr.setWidth 32⟩ } ∧
      exec .sealTx t = .next t ∧
      ((∀ x < 72, s.readByte x = 0) → t.ckr = 0xFFFF)

/-- R124, R126: `NEXT` advances the sequence number by one modulo 2^16 and seals; type, code, identifier and payload are
kept. -/
def Obligations.NextResult : Prop :=
  encode .nextSeq = 0x33000000 ∧
  ∀ s : State,
    ∃ (t : State) (n : Half), exec .nextSeq s = .next t ∧
      n.toNat = ((s.readByte 6).toNat * 256 + (s.readByte 7).toNat + 1) % 2 ^ 16 ∧
      (∀ x, t.readByte x =
        if x = 2 then hiByte t.ckr else if x = 3 then loByte t.ckr
        else if x = 6 then hiByte n else if x = 7 then loByte n else s.readByte x) ∧
      t.ckr = csum t.txbZeroField ∧ t.acc.toNat = sum32 t.txbZeroField ∧
      t = { s with
        mem := t.mem, acc := t.acc, hold := 0, phase := false, ckr := t.ckr,
        rsp := some ⟨0, BitVec.ofNat 32 (n.toNat * 2 ^ 16 + t.ckr.toNat)⟩ }

/-- R127: rebuilding the message gives the same bytes as mutating it. -/
def Obligations.RebuildingEqualsMutating : Prop :=
  ∀ (s : State) (ident : Half) (k : Nat), 1 ≤ k → k ≤ 0xFFFF →
    ∃ t t', execAll (.build ident :: List.replicate (k - 1) .nextSeq) s = .next t ∧
      execAll [.build ident, .wrf 0x04 (BitVec.ofNat 16 k), .sealTx] s = .next t' ∧ t.txb = t'.txb

/-- R84, last paragraph: `SEAL` has the same effect on all state as the list of commands given there. -/
def Obligations.SealEqualsItsCommandList : Prop :=
  ∀ s : State, ∃ (c : Half) (t : State),
    exec .sealTx s = .next { t with rsp := some ⟨0, c.setWidth 32⟩ } ∧
    execAll ((sealByHand c).take 4) s = .next { t with mem := (s.memWrite 2 2 0).mem, rsp := some ⟨0, c.setWidth 32⟩ } ∧
    execAll (sealByHand c) s = .next { t with rsp := some ⟨0, 0⟩ }

/-- R84, R125: on a sealed template the pseudo-command `VERIFYTX` ends with `VAL` = 0 and no fault. -/
def Obligations.VerifyTxReturnsZeroWhenSealed : Prop :=
  ∀ s : State, s.Sealed → ∃ t, execAll verifyTx s = .next t ∧ t.rsp = some ⟨0, 0⟩ ∧ t.ckr = 0 ∧ t.esr = s.esr ∧ t.mem = s.mem

/-- R52, R55: every 16-bit field is stored most significant byte first, whatever width it is read with: the three of `TXB`
(`T_CKSUM`, `T_ID`, `T_SEQ`) written by `WRF` and read back by bytes and the other way round, and those of `RXB` stored byte by
byte and read whole. -/
def Obligations.FieldsAreMostSignificantByteFirst : Prop :=
  (∀ (s : State) (v : Half) (b : Byte), ∀ f ∈ [((0x02 : Byte), (0x02 : Byte)), (0x03, 0x04), (0x04, 0x06)],
    (∃ t, execAll [.wrf f.1 v, .ldb f.2] s = .next t ∧ t.rsp = some ⟨0, BitVec.ofNat 32 (v.toNat / 256)⟩) ∧
    (∃ t, execAll [.wrf f.1 v, .ldb (f.2 + 1)] s = .next t ∧ t.rsp = some ⟨0, BitVec.ofNat 32 (v.toNat % 256)⟩) ∧
    (∃ t, execAll [.wrf f.1 v, .stb f.2 (b.setWidth 16), .rdf f.1] s = .next t ∧
      t.rsp = some ⟨0, BitVec.ofNat 32 (b.toNat * 256 + v.toNat % 256)⟩)) ∧
  (∀ (s : State) (hi lo : Byte), ∀ r ∈ fieldRows, 0x80 ≤ r.addr → r.bytes = 2 → r.bits = 16 → r.need ≤ s.rxlen.toNat →
    ∃ t, execAll [.stb (BitVec.ofNat 8 r.addr) (hi.setWidth 16), .stb (BitVec.ofNat 8 (r.addr + 1)) (lo.setWidth 16),
        .rdf r.sel] s = .next t ∧
      t.rsp = some ⟨0, BitVec.ofNat 32 (hi.toNat * 256 + lo.toNat)⟩)

/-! ### The decoder -/

/-- R141: `SETRXLEN` declares a length up to 92; a larger one is `LengthRange` and `RXLEN` keeps its value. -/
def Obligations.SetrxlenResult : Prop :=
  ∀ (s : State) (n : Half),
    (n.toNat ≤ 92 → exec (.setrxlen n) s = .next { s with rxlen := n.setWidth 8, rsp := some ⟨0, 0⟩ }) ∧
    (92 < n.toNat → exec (.setrxlen n) s = .next { s with esr := s.esr ||| 0x08, rsp := some ⟨3, 0⟩ }) ∧
    encode (.setrxlen n) = BitVec.ofNat 32 (0x40000000 + n.toNat)

/-- R142, R143: `RDF` returns the field of the table, `ShortDatagram` below the length the field needs, `IllegalField` for a
selector not in the table. -/
def Obligations.RdfResult : Prop :=
  ∀ s : State,
    (∀ r ∈ fieldRows, r.need ≤ s.rxlen.toNat →
      exec (.rdf r.sel) s =
        .next { s with
          rsp := some ⟨0, BitVec.ofNat 32
            ((s.range r.addr r.bytes).foldl (fun n b => n * 256 + b.toNat) 0 / 2 ^ r.low % 2 ^ r.bits)⟩ }) ∧
    (∀ r ∈ fieldRows, s.rxlen.toNat < r.need →
      exec (.rdf r.sel) s = .next { s with esr := s.esr ||| 0x20, rsp := some ⟨5, 0⟩ }) ∧
    (∀ sel : Byte, (∀ r ∈ fieldRows, r.sel ≠ sel) →
      exec (.rdf sel) s = .next { s with esr := s.esr ||| 0x04, rsp := some ⟨2, 0⟩ }) ∧
    (∀ sel : Byte, encode (.rdf sel) = BitVec.ofNat 32 (0x41000000 + sel.toNat * 2 ^ 16))

/-- R144, R146: `CLASS` answers 0 for type 0 code 0, 1 for type 8 code 0, 2 for anything else, from the two bytes at 0x94 and
0x95. -/
def Obligations.ClassResult : Prop :=
  encode .classify = 0x42000000 ∧
  ∀ s : State,
    (22 ≤ s.rxlen.toNat →
      exec .classify s =
        .next { s with
          rsp := some ⟨0,
            if (s.readByte 0x94).toNat = 0 ∧ (s.readByte 0x95).toNat = 0 then 0
            else if (s.readByte 0x94).toNat = 8 ∧ (s.readByte 0x95).toNat = 0 then 1 else 2⟩ }) ∧
    (s.rxlen.toNat < 22 → exec .classify s = .next { s with esr := s.esr ||| 0x20, rsp := some ⟨5, 0⟩ })

/-- R145, R147, R148: `DESC` answers the descriptor of the pair at 0x94 and 0x95: type, code, whether the pair is known, and
the kind of its type. -/
def Obligations.DescResult : Prop :=
  encode .desc = 0x43000000 ∧
  ∀ s : State,
    (22 ≤ s.rxlen.toNat →
      ∃ v : Word, exec .desc s = .next { s with rsp := some ⟨0, v⟩ } ∧
        v.extractLsb' 24 8 = 0 ∧ v.extractLsb' 16 8 = s.readByte 0x94 ∧ v.extractLsb' 8 8 = s.readByte 0x95 ∧
        v.extractLsb' 4 4 = 0 ∧
        (v.getLsbD 3 = true ↔
          ((s.readByte 0x94).toNat = 3 ∧
            (s.readByte 0x95).toNat ∈ [0, 1, 2, 3, 4, 5, 6, 7, 8, 11, 12, 13, 14, 15]) ∨
          ((s.readByte 0x94).toNat = 5 ∧ (s.readByte 0x95).toNat ∈ [1, 3]) ∨
          ((s.readByte 0x94).toNat = 11 ∧ (s.readByte 0x95).toNat ∈ [0, 1]) ∨
          ((s.readByte 0x94).toNat = 12 ∧ (s.readByte 0x95).toNat ∈ [0, 1, 2])) ∧
        (v.extractLsb' 0 3).toNat =
          (if (s.readByte 0x94).toNat = 3 then 1 else if (s.readByte 0x94).toNat = 5 then 2
           else if (s.readByte 0x94).toNat = 11 then 3 else if (s.readByte 0x94).toNat = 12 then 4 else 0)) ∧
    (s.rxlen.toNat < 22 → exec .desc s = .next { s with esr := s.esr ||| 0x20, rsp := some ⟨5, 0⟩ })

/-- R84 (`LDRX`), R185: storing a datagram of at most 92 bytes and declaring its length makes exactly those bytes readable,
in order, from the start of `RXB`. -/
def Obligations.LoadingADatagram : Prop :=
  ∀ (s : State) (bs : List Byte), bs.length ≤ 92 →
    ∃ t, execAll (ldrx bs) s = .next t ∧ t.rxlen.toNat = bs.length ∧ t.esr = s.esr ∧
      (∀ i (h : i < bs.length), t.readByte (0x80 + i) = bs[i]) ∧ (∀ x < 0x80, t.readByte x = s.readByte x)

/-! ### The host's run -/

/-- R187: the command trace of a whole run of five successes, and of a run that ends early: after the `CLASS` that returned
1, after the `DESC` that followed a `CLASS` that returned 2, or after the 72 `LDB` of the attempt that timed out. -/
def Obligations.CommandTraceOfAWholeRun : Prop :=
  ∀ (pid : Nat) (net : Nat → NetEvent) (s : State) (ds : Nat → List Byte) (m : Nat), m ≤ 5 →
    (∀ k, 1 ≤ k → k ≤ m → net k = .datagram (ds k) ∧ Replies (ds k) 0 0) →
    (m = 5 → (hostRun pid net s).commands = successTrace pid ds 5 ∧ (hostRun pid net s).stop = .capReached) ∧
    (m < 5 →
      (∀ d, net (m + 1) = .datagram d → Replies d 8 0 →
        (hostRun pid net s).commands = successTrace pid ds m ++ attemptTrace d ∧ (hostRun pid net s).stop = .selfEcho) ∧
      (∀ d t c, net (m + 1) = .datagram d → Replies d t c → ¬ ((t = 0 ∨ t = 8) ∧ c = 0) →
        (hostRun pid net s).commands = successTrace pid ds m ++ attemptTrace d ++ [.desc] ∧
        (hostRun pid net s).stop = .errorReply (descOf t c)) ∧
      (net (m + 1) = .timeout →
        (hostRun pid net s).commands = successTrace pid ds m ++ sendTrace ∧ (hostRun pid net s).stop = .timedOut))

/-- R183 to R186, R194, R198, whatever the network does: the block's final state is that of the run's command list; at most
five messages are sent; the k-th of them is an Echo Request with the run's identifier, sequence number k, the payload and a
checksum that verifies; each attempt but the last succeeded; each fatal error is the end of the run; and no command of the run
faults but a `CLASS` on too short a datagram. THE MODEL'S CHOICE, not the spec's (log entry 12, DESIGN CHOICE): the message of a
transmission that failed counts among those sent, so `1 ≤ n`, the contents of the last message, `n - 1` replies and `net n`
after a send failure rest on it; the spec gives no count after a fatal error. What the network does as a function of the
attempt's number is the same entry's choice. -/
def Obligations.WhateverArrivesTheRunSendsNumberedMessages : Prop :=
  ∀ (pid : Nat) (net : Nat → NetEvent) (s : State),
    let r := hostRun pid net s
    let n := r.sent.length
    execAll r.commands s = .next r.block ∧
    1 ≤ n ∧ n ≤ 5 ∧
    (∀ k (h : k < n),
      r.sent[k].length = 72 ∧ r.sent[k].take 2 = [8, 0] ∧ csum r.sent[k] = 0 ∧
      (r.sent[k].drop 4).take 4 = [BitVec.ofNat 8 (pid / 256), BitVec.ofNat 8 pid, 0, BitVec.ofNat 8 (k + 1)] ∧
      r.sent[k].drop 8 = (List.range 64).map Config.payloadInit) ∧
    r.sent.getLast? = some r.block.txb ∧
    (∀ k, 1 ≤ k → k < n → ∃ d, net k = .datagram d ∧ Replies d 0 0) ∧
    (r.stop = .capReached ↔ n = 5 ∧ ∃ d, net 5 = .datagram d ∧ Replies d 0 0) ∧
    r.received = (if r.stop = .capReached then 5 else n - 1) ∧
    (net n = .sendFailure ↔ r.stop = .fatal .send) ∧
    (net n = .waitError ↔ r.stop = .fatal .wait) ∧
    (net n = .readFailure ↔ r.stop = .fatal .read) ∧
    (net n = .timeout ↔ r.stop = .timedOut) ∧
    ((∃ d, net n = .datagram d ∧ d.length < 22) ↔ r.stop = .fatal .shortDatagram) ∧
    r.block.esr = (if r.stop = .fatal .shortDatagram then s.esr ||| 0x20 else s.esr)
end

