-- ==== Sys2Proof/Laws/State.lean ====
section
/-! SUPPORT. What each update of the state leaves in each field: one lemma per field per update. -/

namespace Sys2Proof.Machine

/-! ### `State.respond` (R15) -/

@[simp] theorem State.respond_acc (s : State) (v : Word) : (s.respond v).acc = s.acc := rfl
@[simp] theorem State.respond_hold (s : State) (v : Word) : (s.respond v).hold = s.hold := rfl
@[simp] theorem State.respond_phase (s : State) (v : Word) : (s.respond v).phase = s.phase := rfl
@[simp] theorem State.respond_ckr (s : State) (v : Word) : (s.respond v).ckr = s.ckr := rfl
@[simp] theorem State.respond_rxlen (s : State) (v : Word) : (s.respond v).rxlen = s.rxlen := rfl
@[simp] theorem State.respond_esr (s : State) (v : Word) : (s.respond v).esr = s.esr := rfl
@[simp] theorem State.respond_mem (s : State) (v : Word) : (s.respond v).mem = s.mem := rfl
@[simp] theorem State.respond_resets (s : State) (v : Word) : (s.respond v).resets = s.resets := rfl
@[simp] theorem State.respond_inputs (s : State) (v : Word) : (s.respond v).inputs = s.inputs := rfl
@[simp] theorem State.respond_rsp (s : State) (v : Word) : (s.respond v).rsp = some ⟨0, v⟩ := rfl

/-! ### `State.raise` (R210) -/

@[simp] theorem State.raise_acc (s : State) (c : Cause) : (s.raise c).acc = s.acc := rfl
@[simp] theorem State.raise_hold (s : State) (c : Cause) : (s.raise c).hold = s.hold := rfl
@[simp] theorem State.raise_phase (s : State) (c : Cause) : (s.raise c).phase = s.phase := rfl
@[simp] theorem State.raise_ckr (s : State) (c : Cause) : (s.raise c).ckr = s.ckr := rfl
@[simp] theorem State.raise_rxlen (s : State) (c : Cause) : (s.raise c).rxlen = s.rxlen := rfl
@[simp] theorem State.raise_esr (s : State) (c : Cause) : (s.raise c).esr = esrAfter s.esr c := rfl
@[simp] theorem State.raise_mem (s : State) (c : Cause) : (s.raise c).mem = s.mem := rfl
@[simp] theorem State.raise_resets (s : State) (c : Cause) : (s.raise c).resets = s.resets := rfl
@[simp] theorem State.raise_inputs (s : State) (c : Cause) : (s.raise c).inputs = s.inputs := rfl
@[simp] theorem State.raise_rsp (s : State) (c : Cause) : (s.raise c).rsp = some ⟨causeErr c, 0⟩ := rfl

/-! ### `State.writeByte` (R14) -/

@[simp] theorem State.writeByte_acc (s : State) (a : Nat) (b : Byte) : (s.writeByte a b).acc = s.acc := rfl
@[simp] theorem State.writeByte_hold (s : State) (a : Nat) (b : Byte) : (s.writeByte a b).hold = s.hold := rfl
@[simp] theorem State.writeByte_phase (s : State) (a : Nat) (b : Byte) : (s.writeByte a b).phase = s.phase := rfl
@[simp] theorem State.writeByte_ckr (s : State) (a : Nat) (b : Byte) : (s.writeByte a b).ckr = s.ckr := rfl
@[simp] theorem State.writeByte_rxlen (s : State) (a : Nat) (b : Byte) : (s.writeByte a b).rxlen = s.rxlen := rfl
@[simp] theorem State.writeByte_esr (s : State) (a : Nat) (b : Byte) : (s.writeByte a b).esr = s.esr := rfl
@[simp] theorem State.writeByte_mem (s : State) (a : Nat) (b : Byte) : (s.writeByte a b).mem = s.mem.set a b := rfl
@[simp] theorem State.writeByte_resets (s : State) (a : Nat) (b : Byte) : (s.writeByte a b).resets = s.resets := rfl
@[simp] theorem State.writeByte_inputs (s : State) (a : Nat) (b : Byte) : (s.writeByte a b).inputs = s.inputs := rfl
@[simp] theorem State.writeByte_rsp (s : State) (a : Nat) (b : Byte) : (s.writeByte a b).rsp = s.rsp := rfl

/-! ### `State.setStream` (R103) -/

@[simp] theorem State.setStream_acc (s : State) (S : Stream) : (s.setStream S).acc = S.acc := rfl
@[simp] theorem State.setStream_hold (s : State) (S : Stream) : (s.setStream S).hold = S.hold := rfl
@[simp] theorem State.setStream_phase (s : State) (S : Stream) : (s.setStream S).phase = S.phase := rfl
@[simp] theorem State.setStream_ckr (s : State) (S : Stream) : (s.setStream S).ckr = s.ckr := rfl
@[simp] theorem State.setStream_rxlen (s : State) (S : Stream) : (s.setStream S).rxlen = s.rxlen := rfl
@[simp] theorem State.setStream_esr (s : State) (S : Stream) : (s.setStream S).esr = s.esr := rfl
@[simp] theorem State.setStream_mem (s : State) (S : Stream) : (s.setStream S).mem = s.mem := rfl
@[simp] theorem State.setStream_resets (s : State) (S : Stream) : (s.setStream S).resets = s.resets := rfl
@[simp] theorem State.setStream_inputs (s : State) (S : Stream) : (s.setStream S).inputs = s.inputs := rfl
@[simp] theorem State.setStream_rsp (s : State) (S : Stream) : (s.setStream S).rsp = s.rsp := rfl

/-! ### `State.softReset` (R161) -/

@[simp] theorem State.softReset_acc (s : State) : (s.softReset).acc = 0 := rfl
@[simp] theorem State.softReset_hold (s : State) : (s.softReset).hold = 0 := rfl
@[simp] theorem State.softReset_phase (s : State) : (s.softReset).phase = false := rfl
@[simp] theorem State.softReset_ckr (s : State) : (s.softReset).ckr = 0 := rfl
@[simp] theorem State.softReset_rxlen (s : State) : (s.softReset).rxlen = 0 := rfl
@[simp] theorem State.softReset_esr (s : State) : (s.softReset).esr = 0 := rfl
@[simp] theorem State.softReset_mem (s : State) : (s.softReset).mem = s.mem := rfl
@[simp] theorem State.softReset_resets (s : State) : (s.softReset).resets = s.resets := rfl
@[simp] theorem State.softReset_inputs (s : State) : (s.softReset).inputs = s.inputs := rfl
@[simp] theorem State.softReset_rsp (s : State) : (s.softReset).rsp = s.rsp := rfl

/-! ### `State.hardReset` (R240) -/

@[simp] theorem State.hardReset_acc (s : State) : (s.hardReset).acc = 0 := rfl
@[simp] theorem State.hardReset_hold (s : State) : (s.hardReset).hold = 0 := rfl
@[simp] theorem State.hardReset_phase (s : State) : (s.hardReset).phase = false := rfl
@[simp] theorem State.hardReset_ckr (s : State) : (s.hardReset).ckr = 0 := rfl
@[simp] theorem State.hardReset_rxlen (s : State) : (s.hardReset).rxlen = 0 := rfl
@[simp] theorem State.hardReset_esr (s : State) : (s.hardReset).esr = 0 := rfl
@[simp] theorem State.hardReset_mem (s : State) : (s.hardReset).mem = [] := rfl
@[simp] theorem State.hardReset_resets (s : State) : (s.hardReset).resets = s.resets + 1 := rfl
@[simp] theorem State.hardReset_inputs (s : State) : (s.hardReset).inputs = s.inputs := rfl
@[simp] theorem State.hardReset_rsp (s : State) : (s.hardReset).rsp = none := rfl

/-! ### `State.withInputs` (R189) -/

@[simp] theorem State.withInputs_acc (s : State) (q : List HostInput) : (s.withInputs q).acc = s.acc := rfl
@[simp] theorem State.withInputs_hold (s : State) (q : List HostInput) : (s.withInputs q).hold = s.hold := rfl
@[simp] theorem State.withInputs_phase (s : State) (q : List HostInput) : (s.withInputs q).phase = s.phase := rfl
@[simp] theorem State.withInputs_ckr (s : State) (q : List HostInput) : (s.withInputs q).ckr = s.ckr := rfl
@[simp] theorem State.withInputs_rxlen (s : State) (q : List HostInput) : (s.withInputs q).rxlen = s.rxlen := rfl
@[simp] theorem State.withInputs_esr (s : State) (q : List HostInput) : (s.withInputs q).esr = s.esr := rfl
@[simp] theorem State.withInputs_mem (s : State) (q : List HostInput) : (s.withInputs q).mem = s.mem := rfl
@[simp] theorem State.withInputs_resets (s : State) (q : List HostInput) : (s.withInputs q).resets = s.resets := rfl
@[simp] theorem State.withInputs_inputs (s : State) (q : List HostInput) : (s.withInputs q).inputs = q := rfl
@[simp] theorem State.withInputs_rsp (s : State) (q : List HostInput) : (s.withInputs q).rsp = s.rsp := rfl

/-! ### Raw multi-byte writes: only `mem` changes (R14) -/

@[simp] theorem State.writeBytes_acc (s : State) (a : Nat) (bs : List Byte) : (s.writeBytes a bs).acc = s.acc := by
  induction bs generalizing s a with
  | nil => rfl
  | cons b bs ih => simp [State.writeBytes, ih]

@[simp] theorem State.writeBytes_hold (s : State) (a : Nat) (bs : List Byte) : (s.writeBytes a bs).hold = s.hold := by
  induction bs generalizing s a with
  | nil => rfl
  | cons b bs ih => simp [State.writeBytes, ih]

@[simp] theorem State.writeBytes_phase (s : State) (a : Nat) (bs : List Byte) : (s.writeBytes a bs).phase = s.phase := by
  induction bs generalizing s a with
  | nil => rfl
  | cons b bs ih => simp [State.writeBytes, ih]

@[simp] theorem State.writeBytes_ckr (s : State) (a : Nat) (bs : List Byte) : (s.writeBytes a bs).ckr = s.ckr := by
  induction bs generalizing s a with
  | nil => rfl
  | cons b bs ih => simp [State.writeBytes, ih]

@[simp] theorem State.writeBytes_rxlen (s : State) (a : Nat) (bs : List Byte) : (s.writeBytes a bs).rxlen = s.rxlen := by
  induction bs generalizing s a with
  | nil => rfl
  | cons b bs ih => simp [State.writeBytes, ih]

@[simp] theorem State.writeBytes_esr (s : State) (a : Nat) (bs : List Byte) : (s.writeBytes a bs).esr = s.esr := by
  induction bs generalizing s a with
  | nil => rfl
  | cons b bs ih => simp [State.writeBytes, ih]

@[simp] theorem State.writeBytes_resets (s : State) (a : Nat) (bs : List Byte) : (s.writeBytes a bs).resets = s.resets := by
  induction bs generalizing s a with
  | nil => rfl
  | cons b bs ih => simp [State.writeBytes, ih]

@[simp] theorem State.writeBytes_inputs (s : State) (a : Nat) (bs : List Byte) : (s.writeBytes a bs).inputs = s.inputs := by
  induction bs generalizing s a with
  | nil => rfl
  | cons b bs ih => simp [State.writeBytes, ih]

@[simp] theorem State.writeBytes_rsp (s : State) (a : Nat) (bs : List Byte) : (s.writeBytes a bs).rsp = s.rsp := by
  induction bs generalizing s a with
  | nil => rfl
  | cons b bs ih => simp [State.writeBytes, ih]

@[simp] theorem State.memWrite_acc (s : State) (a n : Nat) (v : Word) : (s.memWrite a n v).acc = s.acc := by simp [State.memWrite]
@[simp] theorem State.memWrite_hold (s : State) (a n : Nat) (v : Word) : (s.memWrite a n v).hold = s.hold := by simp [State.memWrite]
@[simp] theorem State.memWrite_phase (s : State) (a n : Nat) (v : Word) : (s.memWrite a n v).phase = s.phase := by simp [State.memWrite]
@[simp] theorem State.memWrite_ckr (s : State) (a n : Nat) (v : Word) : (s.memWrite a n v).ckr = s.ckr := by simp [State.memWrite]
@[simp] theorem State.memWrite_rxlen (s : State) (a n : Nat) (v : Word) : (s.memWrite a n v).rxlen = s.rxlen := by simp [State.memWrite]
@[simp] theorem State.memWrite_esr (s : State) (a n : Nat) (v : Word) : (s.memWrite a n v).esr = s.esr := by simp [State.memWrite]
@[simp] theorem State.memWrite_resets (s : State) (a n : Nat) (v : Word) : (s.memWrite a n v).resets = s.resets := by simp [State.memWrite]
@[simp] theorem State.memWrite_inputs (s : State) (a n : Nat) (v : Word) : (s.memWrite a n v).inputs = s.inputs := by simp [State.memWrite]
@[simp] theorem State.memWrite_rsp (s : State) (a n : Nat) (v : Word) : (s.memWrite a n v).rsp = s.rsp := by simp [State.memWrite]

@[simp] theorem State.writeField_acc (s : State) (f : Field) (v : Half) : (s.writeField f v).acc = s.acc := by simp [State.writeField]
@[simp] theorem State.writeField_hold (s : State) (f : Field) (v : Half) : (s.writeField f v).hold = s.hold := by simp [State.writeField]
@[simp] theorem State.writeField_phase (s : State) (f : Field) (v : Half) : (s.writeField f v).phase = s.phase := by simp [State.writeField]
@[simp] theorem State.writeField_ckr (s : State) (f : Field) (v : Half) : (s.writeField f v).ckr = s.ckr := by simp [State.writeField]
@[simp] theorem State.writeField_rxlen (s : State) (f : Field) (v : Half) : (s.writeField f v).rxlen = s.rxlen := by simp [State.writeField]
@[simp] theorem State.writeField_esr (s : State) (f : Field) (v : Half) : (s.writeField f v).esr = s.esr := by simp [State.writeField]
@[simp] theorem State.writeField_resets (s : State) (f : Field) (v : Half) : (s.writeField f v).resets = s.resets := by simp [State.writeField]
@[simp] theorem State.writeField_inputs (s : State) (f : Field) (v : Half) : (s.writeField f v).inputs = s.inputs := by simp [State.writeField]
@[simp] theorem State.writeField_rsp (s : State) (f : Field) (v : Half) : (s.writeField f v).rsp = s.rsp := by simp [State.writeField]

/-! ### The template operations (R122 to R124): the registers they keep -/

@[simp] theorem State.sealed_rxlen (s : State) : (s.sealed).rxlen = s.rxlen := by simp [State.sealed]
@[simp] theorem State.sealed_esr (s : State) : (s.sealed).esr = s.esr := by simp [State.sealed]
@[simp] theorem State.sealed_resets (s : State) : (s.sealed).resets = s.resets := by simp [State.sealed]
@[simp] theorem State.sealed_inputs (s : State) : (s.sealed).inputs = s.inputs := by simp [State.sealed]
@[simp] theorem State.sealed_rsp (s : State) : (s.sealed).rsp = s.rsp := by simp [State.sealed]

@[simp] theorem State.advanced_acc (s : State) : (s.advanced).acc = s.acc := by simp [State.advanced]
@[simp] theorem State.advanced_hold (s : State) : (s.advanced).hold = s.hold := by simp [State.advanced]
@[simp] theorem State.advanced_phase (s : State) : (s.advanced).phase = s.phase := by simp [State.advanced]
@[simp] theorem State.advanced_ckr (s : State) : (s.advanced).ckr = s.ckr := by simp [State.advanced]
@[simp] theorem State.advanced_rxlen (s : State) : (s.advanced).rxlen = s.rxlen := by simp [State.advanced]
@[simp] theorem State.advanced_esr (s : State) : (s.advanced).esr = s.esr := by simp [State.advanced]
@[simp] theorem State.advanced_resets (s : State) : (s.advanced).resets = s.resets := by simp [State.advanced]
@[simp] theorem State.advanced_inputs (s : State) : (s.advanced).inputs = s.inputs := by simp [State.advanced]
@[simp] theorem State.advanced_rsp (s : State) : (s.advanced).rsp = s.rsp := by simp [State.advanced]

@[simp] theorem State.built_acc (s : State) (p : Nat → Byte) (v : Half) : (s.built p v).acc = s.acc := by simp [State.built]
@[simp] theorem State.built_hold (s : State) (p : Nat → Byte) (v : Half) : (s.built p v).hold = s.hold := by simp [State.built]
@[simp] theorem State.built_phase (s : State) (p : Nat → Byte) (v : Half) : (s.built p v).phase = s.phase := by simp [State.built]
@[simp] theorem State.built_ckr (s : State) (p : Nat → Byte) (v : Half) : (s.built p v).ckr = s.ckr := by simp [State.built]
@[simp] theorem State.built_rxlen (s : State) (p : Nat → Byte) (v : Half) : (s.built p v).rxlen = s.rxlen := by simp [State.built]
@[simp] theorem State.built_esr (s : State) (p : Nat → Byte) (v : Half) : (s.built p v).esr = s.esr := by simp [State.built]
@[simp] theorem State.built_resets (s : State) (p : Nat → Byte) (v : Half) : (s.built p v).resets = s.resets := by simp [State.built]
@[simp] theorem State.built_inputs (s : State) (p : Nat → Byte) (v : Half) : (s.built p v).inputs = s.inputs := by simp [State.built]
@[simp] theorem State.built_rsp (s : State) (p : Nat → Byte) (v : Half) : (s.built p v).rsp = s.rsp := by simp [State.built]

@[simp] theorem State.sealed_hold (s : State) : s.sealed.hold = 0 := rfl
@[simp] theorem State.sealed_phase (s : State) : s.sealed.phase = false := rfl

end Sys2Proof.Machine
end

