-- ==== Sys2Proof/Laws/Memory.lean ====
section
/-! SUPPORT. Memory as data: reading after a write, the canonical form, equal contents are equal data. -/

namespace Sys2Proof.Machine

/-- Reading after a write: the byte written at its address, every other address as before. -/
@[simp] theorem Memory.get?_set (m : Memory) (a : Nat) (b : Byte) (x : Nat) :
    Memory.get? (Memory.set m a b) x = if x = a then some b else Memory.get? m x := by
  induction m with
  | nil => simp [Memory.set, Memory.get?, eq_comm]
  | cons kc rest ih =>
    obtain ⟨k, c⟩ := kc
    simp only [Memory.set]
    split_ifs <;> simp only [Memory.get?, ih] <;> split_ifs <;> first | rfl | omega

/-- A listed entry after a write is the one written or was listed before. -/
theorem Memory.mem_set {m : Memory} {a : Nat} {b : Byte} {c : Host.Cell} (h : c ∈ Memory.set m a b) :
    c = (a, b) ∨ c ∈ m := by
  induction m with
  | nil => simpa [Memory.set] using h
  | cons kc rest ih =>
    obtain ⟨k, d⟩ := kc
    simp only [Memory.set] at h
    split_ifs at h
    · simpa using h
    · rcases List.mem_cons.1 h with h | h
      · exact .inl h
      · exact .inr (List.mem_cons_of_mem _ h)
    · rcases List.mem_cons.1 h with h | h
      · exact .inr (h ▸ List.mem_cons_self)
      · exact (ih h).imp_right (List.mem_cons_of_mem _)

/-- A write keeps the canonical form. -/
theorem Memory.wf_set {m : Memory} (h : Memory.wf m) (a : Nat) (b : Byte) : Memory.wf (Memory.set m a b) := by
  induction m with
  | nil => simp [Memory.set, Memory.wf]
  | cons kc rest ih =>
    obtain ⟨k, d⟩ := kc
    have hc := List.pairwise_cons.1 h
    simp only [Memory.set]
    split_ifs with h1 h2
    · refine List.pairwise_cons.2 ⟨fun x hx => ?_, h⟩
      rcases List.mem_cons.1 hx with rfl | hx
      · exact h1
      · exact h1.trans (hc.1 x hx)
    · exact List.pairwise_cons.2 ⟨fun x hx => h2 ▸ hc.1 x hx, hc.2⟩
    · refine List.pairwise_cons.2 ⟨fun x hx => ?_, ih hc.2⟩
      obtain ⟨c, hcm, rfl⟩ := List.mem_map.1 hx
      rcases Memory.mem_set hcm with rfl | hm
      · exact lt_of_le_of_ne (not_lt.1 h1) (Ne.symm h2)
      · exact hc.1 _ (List.mem_map_of_mem hm)

/-- Writing twice at one address is writing the second value. -/
@[simp] theorem Memory.set_set (m : Memory) (a : Nat) (b c : Byte) :
    Memory.set (Memory.set m a b) a c = Memory.set m a c := by
  induction m with
  | nil => simp [Memory.set]
  | cons kd rest ih =>
    obtain ⟨k, d⟩ := kd
    by_cases h1 : a < k
    · simp [Memory.set, h1]
    · by_cases h2 : a = k
      · simp [Memory.set, h2]
      · simp [Memory.set, h1, h2, ih]

/-- Writes at two addresses commute. -/
theorem Memory.set_comm (m : Memory) {a a' : Nat} (h : a ≠ a') (b b' : Byte) :
    Memory.set (Memory.set m a b) a' b' = Memory.set (Memory.set m a' b') a b := by
  induction m with
  | nil => rcases lt_or_gt_of_ne h with h | h <;> simp [Memory.set, h, h.ne', not_lt.2 h.le]
  | cons kd rest ih =>
    obtain ⟨k, d⟩ := kd
    rcases lt_trichotomy a k with h1 | h1 | h1 <;> rcases lt_trichotomy a' k with h2 | h2 | h2 <;>
      rcases lt_or_gt_of_ne h with h3 | h3 <;>
      first
      | omega
      | simp [Memory.set, h1, h2, h3, h3.ne', h1.ne', h2.ne', not_lt.2 h1.le, not_lt.2 h2.le, not_lt.2 h3.le, ih]
      | (subst h1; simp [Memory.set, h2, h3.ne', not_lt.2 h3.le])
      | (subst h2; simp [Memory.set, h1, h3.ne', not_lt.2 h3.le])

/-- An address below all listed ones holds no written byte. -/
theorem Memory.get?_eq_none {m : Memory} {a : Nat} (h : ∀ x ∈ m.map Prod.fst, a < x) : Memory.get? m a = none := by
  induction m with
  | nil => rfl
  | cons kc rest ih =>
    have hk : a < kc.1 := h kc.1 (by simp)
    rw [Memory.get?, if_neg (by omega)]
    exact ih fun x hx => h x (List.mem_cons_of_mem _ hx)

/-- In canonical form, equal contents are equal data. -/
theorem Memory.ext {m m' : Memory} (h : Memory.wf m) (h' : Memory.wf m')
    (heq : ∀ a, Memory.get? m a = Memory.get? m' a) : m = m' := by
  induction m generalizing m' with
  | nil =>
    cases m' with
    | nil => rfl
    | cons kc rest => have := heq kc.1; simp [Memory.get?] at this
  | cons kc rest ih =>
    obtain ⟨k, c⟩ := kc
    cases m' with
    | nil => have := heq k; simp [Memory.get?] at this
    | cons kc' rest' =>
      obtain ⟨k', c'⟩ := kc'
      have hc := List.pairwise_cons.1 h
      have hc' := List.pairwise_cons.1 h'
      have hk : k = k' := by
        rcases lt_trichotomy k k' with hlt | heq' | hgt
        · have h1 := heq k
          rw [Memory.get?, if_pos rfl, Memory.get?_eq_none] at h1
          · simp at h1
          · intro x hx
            rcases List.mem_cons.1 hx with rfl | hx
            · exact hlt
            · exact hlt.trans (hc'.1 x hx)
        · exact heq'
        · have h1 := heq k'
          rw [Memory.get?_eq_none] at h1
          · simp [Memory.get?] at h1
          · intro x hx
            rcases List.mem_cons.1 hx with rfl | hx
            · exact hgt
            · exact hgt.trans (hc.1 x hx)
      subst hk
      have hv : c = c' := by have := heq k; simpa [Memory.get?] using this
      subst hv
      congr 1
      refine ih hc.2 hc'.2 fun a => ?_
      by_cases ha : k = a
      · subst ha
        rw [Memory.get?_eq_none hc.1, Memory.get?_eq_none hc'.1]
      · have := heq a
        simpa [Memory.get?, ha] using this

end Sys2Proof.Machine
end

