-- ==== Sys2Proof/Laws/Ops.lean ====
section
/-! SUPPORT. What each shared operation does, said once: reads after writes, the range tests, the range of a field, what keeps the invariant. -/

namespace Sys2Proof.Machine

/-! ### Reading a byte after an update -/

@[simp] theorem State.readByte_writeByte (s : State) (a : Nat) (b : Byte) (x : Nat) :
    (s.writeByte a b).readByte x = if x = a then b else s.readByte x := by
  simp only [State.readByte, State.writeByte_mem, Memory.get?_set, State.unwritten, State.writeByte_resets]
  split_ifs <;> rfl

@[simp] theorem State.readByte_respond (s : State) (v : Word) (x : Nat) : (s.respond v).readByte x = s.readByte x := rfl
@[simp] theorem State.readByte_raise (s : State) (c : Cause) (x : Nat) : (s.raise c).readByte x = s.readByte x := rfl
@[simp] theorem State.readByte_setStream (s : State) (S : Stream) (x : Nat) : (s.setStream S).readByte x = s.readByte x := rfl
@[simp] theorem State.readByte_softReset (s : State) (x : Nat) : s.softReset.readByte x = s.readByte x := rfl
@[simp] theorem State.readByte_withInputs (s : State) (q : List HostInput) (x : Nat) :
    (s.withInputs q).readByte x = s.readByte x := rfl

/-- The reset input leaves every byte a free value of the next reset (R240). -/
@[simp] theorem State.readByte_hardReset (s : State) (x : Nat) :
    s.hardReset.readByte x = Config.resetByte (s.resets + 1) x := rfl

/-- A multi-byte write reaches exactly the addresses of its bytes. -/
theorem State.readByte_writeBytes (s : State) (a : Nat) (bs : List Byte) (x : Nat) :
    (s.writeBytes a bs).readByte x = if a ≤ x ∧ x < a + bs.length then bs[x - a]?.getD 0 else s.readByte x := by
  induction bs generalizing s a with
  | nil => rw [State.writeBytes, if_neg (by simp)]
  | cons b bs ih =>
    rw [State.writeBytes, ih, State.readByte_writeByte, List.length_cons]
    rcases lt_trichotomy x a with h | rfl | h
    · rw [if_neg (by omega), if_neg (by omega), if_neg (by omega)]
    · rw [if_neg (by omega), if_pos rfl, if_pos (by omega)]; simp
    · by_cases hx : x < a + (bs.length + 1)
      · rw [if_pos (by omega), if_pos (by omega), show x - a = (x - (a + 1)) + 1 by omega, List.getElem?_cons_succ]
      · rw [if_neg (by omega), if_neg (by omega), if_neg (by omega)]

/-- Outside the bytes it writes, a multi-byte write changes nothing. -/
theorem State.readByte_writeBytes_of_outside (s : State) (a : Nat) (bs : List Byte) (x : Nat)
    (h : x < a ∨ a + bs.length ≤ x) : (s.writeBytes a bs).readByte x = s.readByte x := by
  rw [State.readByte_writeBytes, if_neg (by omega)]

@[simp] theorem length_beBytes (n : Nat) (v : Word) : (beBytes n v).length = n := by
  induction n with
  | zero => rfl
  | succ n ih => simp [beBytes, ih]

@[simp] theorem State.length_readBytes (s : State) (a n : Nat) : (s.readBytes a n).length = n := by
  induction n generalizing a with
  | zero => rfl
  | succ n ih => simp [State.readBytes, ih]

/-- The bytes of a range, by index. -/
theorem State.getElem?_readBytes (s : State) (a n i : Nat) (h : i < n) :
    (s.readBytes a n)[i]? = some (s.readByte (a + i)) := by
  induction n generalizing a i with
  | zero => omega
  | succ n ih =>
    cases i with
    | zero => simp [State.readBytes]
    | succ i => rw [State.readBytes, List.getElem?_cons_succ, ih _ _ (by omega)]; congr 2; omega

/-- Two states that agree on a range read the same bytes from it. -/
theorem State.readBytes_congr (s t : State) (a n : Nat) (h : ∀ x, a ≤ x → x < a + n → s.readByte x = t.readByte x) :
    s.readBytes a n = t.readBytes a n := by
  induction n generalizing a with
  | zero => rfl
  | succ n ih => rw [State.readBytes, State.readBytes, h a (by omega) (by omega), ih _ fun x h1 h2 => h x (by omega) (by omega)]

/-- A field write reaches exactly the field's addresses (R121). -/
theorem State.readByte_writeField_of_outside (s : State) (f : Field) (v : Half) (x : Nat)
    (h : x < fieldAddr f ∨ fieldAddr f + f.bytes ≤ x) : (s.writeField f v).readByte x = s.readByte x := by
  rw [State.writeField, State.memWrite, State.readByte_writeBytes_of_outside]
  simpa using h

/-! ### The tests of R66 -/

theorem implemented_iff (a : Nat) : implemented a = true ↔ a ≤ 0x47 ∨ (0x80 ≤ a ∧ a ≤ 0xDB) := by
  simp [implemented]

theorem State.received_iff (s : State) (a : Nat) :
    s.received a = true ↔ ¬ (0x80 ≤ a ∧ a ≤ 0xDB ∧ s.rxlen.toNat ≤ a - 0x80) := by
  simp only [State.received, inRxWindow, Bool.not_eq_true', Bool.and_eq_false_iff, decide_eq_false_iff_not, Config.rxBase]
  omega

theorem allImplemented_iff (a n : Nat) : allImplemented a n = true ↔ ∀ i < n, implemented (a + i) = true := by
  induction n generalizing a with
  | zero => simp [allImplemented]
  | succ n ih =>
    rw [allImplemented, Bool.and_eq_true, ih]
    constructor
    · rintro ⟨h0, h⟩ i hi
      cases i with
      | zero => exact h0
      | succ i => have := h i (by omega); rwa [show a + (i + 1) = a + 1 + i by omega]
    · exact fun h => ⟨h 0 (by omega), fun i hi => by have := h (i + 1) (by omega); rwa [show a + 1 + i = a + (i + 1) by omega]⟩

theorem State.allReceived_iff (s : State) (a n : Nat) : s.allReceived a n = true ↔ ∀ i < n, s.received (a + i) = true := by
  induction n generalizing a with
  | zero => simp [State.allReceived]
  | succ n ih =>
    rw [State.allReceived, Bool.and_eq_true, ih]
    constructor
    · rintro ⟨h0, h⟩ i hi
      cases i with
      | zero => exact h0
      | succ i => have := h i (by omega); rwa [show a + (i + 1) = a + 1 + i by omega]
    · exact fun h => ⟨h 0 (by omega), fun i hi => by have := h (i + 1) (by omega); rwa [show a + 1 + i = a + (i + 1) by omega]⟩

/-! ### Fields (R78) -/

/-- A field of the template lies in the TX window, and the five of them have 1 or 2 bytes. -/
theorem txField?_range {sel : Byte} {f : Field} (h : txField? sel = some f) :
    fieldAddr f + f.bytes ≤ 8 ∧ (f.bytes = 1 ∨ f.bytes = 2) := by
  unfold txField? at h
  cases hf : fieldSel? sel with
  | none => simp [hf] at h
  | some g => cases g <;> simp [hf, fieldOf] at h <;> subst h <;> decide

/-- Every field lies in its buffer. -/
theorem fieldOf_range (g : FieldSel) :
    (fieldOf g).idx + (fieldOf g).bytes ≤ (match (fieldOf g).buf with | .txb => 72 | .rxb => 92) := by
  cases g <;> decide

/-! ### What keeps the written bytes in the windows and in canonical form -/

/-- Writing implemented addresses keeps memory canonical and out of the holes. -/
theorem State.writeByte_keeps_mem {s : State} (h : Memory.wf s.mem ∧ ∀ c ∈ s.mem, implemented c.1 = true) (a : Nat)
    (b : Byte) (ha : implemented a = true) :
    Memory.wf (s.writeByte a b).mem ∧ ∀ c ∈ (s.writeByte a b).mem, implemented c.1 = true := by
  refine ⟨Memory.wf_set h.1 a b, fun c hc => ?_⟩
  rcases Memory.mem_set hc with rfl | hm
  · exact ha
  · exact h.2 c hm

theorem State.writeBytes_keeps_mem {s : State} (h : Memory.wf s.mem ∧ ∀ c ∈ s.mem, implemented c.1 = true) (a : Nat)
    (bs : List Byte) (ha : ∀ i < bs.length, implemented (a + i) = true) :
    Memory.wf (s.writeBytes a bs).mem ∧ ∀ c ∈ (s.writeBytes a bs).mem, implemented c.1 = true := by
  induction bs generalizing s a with
  | nil => exact h
  | cons b bs ih =>
    refine ih (State.writeByte_keeps_mem h a b (ha 0 (by simp))) (a + 1) fun i hi => ?_
    rw [show a + 1 + i = a + (i + 1) by omega]
    exact ha (i + 1) (by simpa using hi)

/-- Raising a cause keeps the reserved bits of `ESR` clear (R29). -/
theorem esrAfter_reserved (e : Byte) (c : Cause) (h0 : e.getLsbD 0 = false) (h7 : e.getLsbD 7 = false) :
    (esrAfter e c).getLsbD 0 = false ∧ (esrAfter e c).getLsbD 7 = false := by
  cases c <;> simpa [esrAfter, causeBit, causeCode] using ⟨h0, h7⟩

end Sys2Proof.Machine
end

