-- ==== Sys2Proof/Laws/Arith.lean ====
section
/-! SUPPORT. The pure functions of the checksum unit as numbers: what `WORD` is, when `FEED` overflows, bounds of `FOLD`. -/

namespace Sys2Proof.Machine

@[simp] theorem wireWord_toNat (hi lo : Byte) : (wireWord hi lo).toNat = hi.toNat * 256 + lo.toNat := by
  rw [wireWord, BitVec.toNat_append, Nat.shiftLeft_eq, Nat.mul_comm, ← Nat.two_pow_add_eq_or_of_lt lo.isLt]

theorem hiByte_toNat (v : Half) : (hiByte v).toNat = v.toNat / 256 := by
  simp [hiByte, BitVec.extractLsb'_toNat, Nat.shiftRight_eq_div_pow]; omega

theorem loByte_toNat (v : Half) : (loByte v).toNat = v.toNat % 256 := by
  simp [loByte, BitVec.extractLsb'_toNat]

/-- `FEED` of the first byte of a word holds it (R103). -/
@[simp] theorem feed_first (acc : Word) (hold b : Byte) : feed ⟨acc, hold, false⟩ b = some ⟨acc, b, true⟩ := rfl

/-- `FEED` of the second byte of a word adds the word, unless `ACC` would reach 2^32 (R103). -/
theorem feed_second (acc : Word) (hold b : Byte) :
    feed ⟨acc, hold, true⟩ b =
      if 2 ^ 32 ≤ acc.toNat + (hold.toNat * 256 + b.toNat) then none
      else some ⟨BitVec.ofNat 32 (acc.toNat + (hold.toNat * 256 + b.toNat)), 0, false⟩ := by
  simp [feed]

/-- The value of `FOLD` as a number, for a sum below 2^32 (R101). -/
theorem fold_toNat (a : Nat) (h : a < 2 ^ 32) :
    (fold a).toNat = (a % 65536 + a / 65536) % 65536 + (a % 65536 + a / 65536) / 65536 := by
  simp only [fold, BitVec.toNat_ofNat]; omega

/-- The raw sum of n bytes is at most 65535 for each word begun (R100). -/
theorem sum32_le (bs : List Byte) : sum32 bs ≤ 65535 * ((bs.length + 1) / 2) := by
  fun_induction sum32 bs with
  | case1 => simp
  | case2 b => have := b.isLt; simp; omega
  | case3 hi lo rest ih =>
    have h1 := hi.isLt; have h2 := lo.isLt
    simp only [wireWord_toNat, List.length_cons]; omega

end Sys2Proof.Machine
end

