-- ==== Sys2Proof/Laws/PerInstr.lean ====
section
/-! SUPPORT. One statement about the encoding of every instruction, one lemma per constructor: the three fields of its word, and that its opcode is in the opcode map with a format whose reserved bits its operands leave clear. -/

namespace Sys2Proof

@[simp] theorem opField_packWord (op a : Byte) (imm : Half) : opField (packWord op a imm) = op := by
  ext i hi
  simp only [opField, packWord, BitVec.getElem_extractLsb', BitVec.getLsbD_append]
  rw [if_neg (by omega), if_neg (by omega), show 24 + i - 16 - 8 = i by omega, BitVec.getLsbD_eq_getElem hi]

@[simp] theorem aField_packWord (op a : Byte) (imm : Half) : aField (packWord op a imm) = a := by
  ext i hi
  simp only [aField, packWord, BitVec.getElem_extractLsb', BitVec.getLsbD_append]
  rw [if_neg (by omega), if_pos (by omega), show 16 + i - 16 = i by omega, BitVec.getLsbD_eq_getElem hi]

@[simp] theorem immField_packWord (op a : Byte) (imm : Half) : immField (packWord op a imm) = imm := by
  ext i hi
  simp only [immField, packWord, BitVec.getElem_extractLsb', BitVec.getLsbD_append]
  rw [if_pos (by omega), show 0 + i = i by omega, BitVec.getLsbD_eq_getElem hi]

/-- The three fields make up the word (R70). -/
theorem packWord_fields (w : Word) : packWord (opField w) (aField w) (immField w) = w := by
  ext i hi
  simp only [packWord, opField, aField, immField, ← BitVec.getLsbD_eq_getElem hi, BitVec.getLsbD_append,
    BitVec.getLsbD_extractLsb']
  split_ifs with h1 h2
  · simp; omega
  · have : 16 + (i - 16) = i := by omega
    simp [this]; omega
  · have : 24 + (i - 16 - 8) = i := by omega
    simp [this]; omega

namespace Laws.Encoding

/-- The word of `i` holds its opcode and operands in the fields of R70, and the opcode map makes `i` of them, with the
reserved bits of the format clear whenever `i` is well formed. -/
def Statement (i : Instr) : Prop :=
  opField (encode i) = i.op ∧ aField (encode i) = i.aOperand ∧ immField (encode i) = i.immOperand ∧
    ∃ r, opcodes.find? (fun r => r.op == i.op) = some r ∧ r.make i.aOperand i.immOperand = i ∧
      (i.wf = true → reservedClear r.format i.aOperand i.immOperand = true)

theorem nop : Statement .nop := ⟨by simp [encode], by simp [encode], by simp [encode], _, rfl, rfl, fun _ => rfl⟩
theorem srst : Statement .srst := ⟨by simp [encode], by simp [encode], by simp [encode], _, rfl, rfl, fun _ => rfl⟩
theorem rds (sel : Byte) : Statement (.rds sel) :=
  ⟨by simp [encode], by simp [encode], by simp [encode], _, rfl, rfl, fun _ => rfl⟩
theorem ckclr : Statement .ckclr := ⟨by simp [encode], by simp [encode], by simp [encode], _, rfl, rfl, fun _ => rfl⟩
theorem ckput (imm : Half) : Statement (.ckput imm) :=
  ⟨by simp [encode], by simp [encode], by simp [encode], _, rfl, rfl, fun h => h⟩
theorem ckrun (base : Byte) (len : Half) : Statement (.ckrun base len) :=
  ⟨by simp [encode], by simp [encode], by simp [encode], _, rfl, rfl, fun _ => rfl⟩
theorem ckfin : Statement .ckfin := ⟨by simp [encode], by simp [encode], by simp [encode], _, rfl, rfl, fun _ => rfl⟩
theorem stb (addr : Byte) (imm : Half) : Statement (.stb addr imm) :=
  ⟨by simp [encode], by simp [encode], by simp [encode], _, rfl, rfl, fun h => h⟩
theorem ldb (addr : Byte) : Statement (.ldb addr) :=
  ⟨by simp [encode], by simp [encode], by simp [encode], _, rfl, rfl, fun _ => rfl⟩
theorem wrf (sel : Byte) (imm : Half) : Statement (.wrf sel imm) :=
  ⟨by simp [encode], by simp [encode], by simp [encode], _, rfl, rfl, fun _ => rfl⟩
theorem build (ident : Half) : Statement (.build ident) :=
  ⟨by simp [encode], by simp [encode], by simp [encode], _, rfl, rfl, fun _ => rfl⟩
theorem sealTx : Statement .sealTx := ⟨by simp [encode], by simp [encode], by simp [encode], _, rfl, rfl, fun _ => rfl⟩
theorem nextSeq : Statement .nextSeq := ⟨by simp [encode], by simp [encode], by simp [encode], _, rfl, rfl, fun _ => rfl⟩
theorem setrxlen (n : Half) : Statement (.setrxlen n) :=
  ⟨by simp [encode], by simp [encode], by simp [encode], _, rfl, rfl, fun _ => rfl⟩
theorem rdf (sel : Byte) : Statement (.rdf sel) :=
  ⟨by simp [encode], by simp [encode], by simp [encode], _, rfl, rfl, fun _ => rfl⟩
theorem classify : Statement .classify :=
  ⟨by simp [encode], by simp [encode], by simp [encode], _, rfl, rfl, fun _ => rfl⟩
theorem desc : Statement .desc := ⟨by simp [encode], by simp [encode], by simp [encode], _, rfl, rfl, fun _ => rfl⟩

end Laws.Encoding
end Sys2Proof
end

