-- ==== Sys2Proof/Laws/Probe.lean ====
section
/-! SUPPORT. What a list of commands does and what the parts of the host's run do (R182 to R187). -/

namespace Sys2Proof.Machine

/-! ### Commands one after the other -/

/-- Every command answers a next state (R256). -/
theorem exec_answers (i : Instr) (s : State) : ∃ t, exec i s = .next t := by
  cases i <;>
    simp only [exec, execNop, execSrst, execRds, execCkclr, execCkput, execCkrun, execCkfin, execStb, execLdb, execWrf,
      execBuild, execSeal, execNext, execSetrxlen, execRdf, execClass, execDesc, finishFeed] <;>
    first
      | exact ⟨_, rfl⟩
      | (repeat' split) <;> exact ⟨_, rfl⟩

/-- `State.after` is what `exec` answers. -/
theorem exec_after (i : Instr) (s : State) : exec i s = .next (s.after i) := by
  obtain ⟨t, h⟩ := exec_answers i s
  simp only [State.after, h]

/-- Running a list of commands always ends, in the state `State.afterAll` gives (R17). -/
theorem execAll_afterAll (is : List Instr) (s : State) : execAll is s = .next (s.afterAll is) := by
  induction is generalizing s with
  | nil => rfl
  | cons i is ih => simp only [execAll, exec_after, ih, State.afterAll]

@[simp] theorem State.afterAll_nil (s : State) : s.afterAll [] = s := rfl
@[simp] theorem State.afterAll_cons (s : State) (i : Instr) (is : List Instr) :
    s.afterAll (i :: is) = (s.after i).afterAll is := rfl

theorem State.afterAll_append (s : State) (is js : List Instr) : s.afterAll (is ++ js) = (s.afterAll is).afterAll js := by
  induction is generalizing s with
  | nil => rfl
  | cons i is ih => exact ih _

/-! ### The send (R183) -/

/-- `LDB` of an address of `TXB` returns the byte and changes no state (R164). -/
theorem State.after_ldb_txb (s : State) (a : Byte) (h : a.toNat ≤ 0x47) :
    s.after (.ldb a) = s.respond ((s.readByte a.toNat).setWidth 32) := by
  have hi : implemented a.toNat = true := (implemented_iff _).2 (.inl h)
  have hr : s.received a.toNat = true := (State.received_iff _ _).2 (by omega)
  simp [State.after, exec, execLdb, hi, hr]

/-- Loads of `TXB` change nothing but the response, and return the bytes in order. -/
theorem State.loads_txb (s : State) (as : List Nat) (h : ∀ a ∈ as, a ≤ 0x47) :
    (∃ r, s.afterAll (as.map (fun a => .ldb (BitVec.ofNat 8 a))) = { s with rsp := r }) ∧
      s.valuesOf (as.map (fun a => .ldb (BitVec.ofNat 8 a))) = as.map (fun a => (s.readByte a).setWidth 32) := by
  induction as generalizing s with
  | nil => exact ⟨⟨s.rsp, rfl⟩, rfl⟩
  | cons a as ih =>
    have ha : (BitVec.ofNat 8 a).toNat = a := by
      have := h a (by simp)
      rw [BitVec.toNat_ofNat]; omega
    have hl := s.after_ldb_txb (BitVec.ofNat 8 a) (by rw [ha]; exact h a (by simp))
    rw [ha] at hl
    obtain ⟨⟨r, hr⟩, hv⟩ := ih (s.respond ((s.readByte a).setWidth 32)) fun b hb => h b (by simp [hb])
    refine ⟨⟨r, ?_⟩, ?_⟩
    · rw [List.map_cons, State.afterAll_cons, hl, hr]; rfl
    · rw [List.map_cons, State.valuesOf, hl, hv]; simp [State.response]

/-- A send leaves the block as it was but for the last response. -/
theorem State.afterAll_hostSend (s : State) : ∃ r, s.afterAll hostSend = { s with rsp := r } :=
  (s.loads_txb (List.range 72) fun a h => by have := List.mem_range.1 h; omega).1

theorem State.readBytes_eq_map (s : State) (a n : Nat) : s.readBytes a n = (List.range n).map (fun k => s.readByte (a + k)) := by
  refine List.ext_getElem (by simp) fun i h _ => ?_
  have hi : i < n := by simpa using h
  have := State.getElem?_readBytes s a n i hi
  rw [List.getElem?_eq_getElem h] at this
  simpa using this

/-- The message a send transmits is the template (R183). -/
theorem hostMessage_eq_txb (s : State) : hostMessage s = s.txb := by
  have hv := (s.loads_txb (List.range 72) fun a h => by have := List.mem_range.1 h; omega).2
  rw [hostMessage, hostSend, Config.msgLen, hv, State.txb, State.readBytes_eq_map]
  simp

/-! ### Actions (R183 to R187) -/

@[simp] theorem commandOf?_issue (i : Instr) : commandOf? (.issue i) = some i := rfl
@[simp] theorem commandOf?_transmit (m : List Byte) : commandOf? (.transmit m) = none := rfl
@[simp] theorem commandOf?_wait (n : Nat) : commandOf? (.wait n) = none := rfl
@[simp] theorem commandOf?_receive : commandOf? .receive = none := rfl
@[simp] theorem commandOf?_sleep (n : Nat) : commandOf? (.sleep n) = none := rfl
@[simp] theorem messageOf?_issue (i : Instr) : messageOf? (.issue i) = none := rfl
@[simp] theorem messageOf?_transmit (m : List Byte) : messageOf? (.transmit m) = some m := rfl
@[simp] theorem messageOf?_wait (n : Nat) : messageOf? (.wait n) = none := rfl
@[simp] theorem messageOf?_receive : messageOf? .receive = none := rfl
@[simp] theorem messageOf?_sleep (n : Nat) : messageOf? (.sleep n) = none := rfl
@[simp] theorem commandOf?_comp_issue : commandOf? ∘ HostAction.issue = some := rfl
@[simp] theorem messageOf?_comp_issue : messageOf? ∘ HostAction.issue = fun _ => none := rfl

/-- What one attempt transmits and issues first: the template read with 72 loads (R183). -/
@[simp] theorem filterMap_messageOf?_hostSendActions (s : State) : (hostSendActions s).filterMap messageOf? = [s.txb] := by
  simp [hostSendActions, hostMessage_eq_txb]

@[simp] theorem filterMap_commandOf?_hostSendActions (s : State) : (hostSendActions s).filterMap commandOf? = hostSend := by
  simp [hostSendActions]

/-- The classification of a datagram transmits nothing. -/
@[simp] theorem filterMap_messageOf?_hostClassify (d : List Byte) (s : State) :
    (hostClassify d s).actions.filterMap messageOf? = [] := by
  unfold hostClassify
  simp only
  split <;> simp

/-- The block after a classification is the block after the commands it issued. -/
theorem hostClassify_block (d : List Byte) (s : State) :
    (hostClassify d s).block = s.afterAll ((hostClassify d s).actions.filterMap commandOf?) := by
  unfold hostClassify
  simp only
  split <;> simp [State.afterAll_append]

/-- An attempt transmits the template once, whatever the network does. -/
@[simp] theorem filterMap_messageOf?_hostAttempt (e : NetEvent) (s : State) :
    (hostAttempt e s).actions.filterMap messageOf? = [s.txb] := by
  cases e <;> simp [hostAttempt, List.filterMap_cons, -List.filterMap_eq_nil_iff]

/-- The block after an attempt is the block after the commands it issued. -/
theorem hostAttempt_block (e : NetEvent) (s : State) :
    (hostAttempt e s).block = s.afterAll ((hostAttempt e s).actions.filterMap commandOf?) := by
  cases e <;> simp [hostAttempt, List.filterMap_cons, State.afterAll_append, hostClassify_block]

/-- The block after the attempts of a run is the block after the commands they issued. -/
theorem hostAttempts_block (net : Nat → NetEvent) (left k : Nat) (s : State) :
    (hostAttempts net left k s).block = s.afterAll (hostAttempts net left k s).commands := by
  induction left generalizing k s with
  | zero => rfl
  | succ left ih =>
    simp only [hostAttempts]
    split
    · exact hostAttempt_block _ _
    · have hp : (hostPause k).filterMap commandOf? = [] := by unfold hostPause; split <;> rfl
      simp only [HostRun.commands, List.filterMap_append, List.filterMap_map, commandOf?_comp_issue, List.filterMap_some, hp,
        List.append_nil, ih,
        State.afterAll_append, hostAttempt_block]

/-! ### The receive and the end of a run (R185, R186) -/

/-- `STB` of an address of `RXB` writes its byte (R163). -/
theorem State.after_stb_rxb (s : State) (i : Nat) (b : Byte) (h : i < 92) :
    s.after (.stb (BitVec.ofNat 8 (Config.rxBase + i)) (b.setWidth 16)) = (s.writeByte (0x80 + i) b).respond 0 := by
  have ha : (BitVec.ofNat 8 (0x80 + i)).toNat = 0x80 + i := by rw [BitVec.toNat_ofNat]; omega
  have hi : implemented (0x80 + i) = true := (implemented_iff _).2 (by omega)
  have hb : loByte (b.setWidth 16) = b := by unfold loByte; ext j hj; simp [hj]; omega
  simp [State.after, exec, execStb, ha, hi, hb]

/-- A multi-byte write does not touch the last response. -/
theorem State.writeBytes_with_rsp (s : State) (r : Option Response) (a : Nat) (bs : List Byte) :
    ({ s with rsp := r } : State).writeBytes a bs = { s.writeBytes a bs with rsp := r } := by
  induction bs generalizing s a with
  | nil => rfl
  | cons b bs ih => exact ih (s.writeByte a b) (a + 1)

/-- The stores of a datagram (R185) write its bytes to `RXB` and nothing else but the last response. -/
theorem State.afterAll_storeRx (s : State) (i : Nat) (bs : List Byte) (h : i + bs.length ≤ 92) :
    ∃ r, s.afterAll (storeRx i bs) = { s.writeBytes (0x80 + i) bs with rsp := r } := by
  induction bs generalizing s i with
  | nil => exact ⟨s.rsp, rfl⟩
  | cons b bs ih =>
    rw [List.length_cons] at h
    obtain ⟨r, hr⟩ := ih ((s.writeByte (0x80 + i) b).respond 0) (i + 1) (by omega)
    refine ⟨r, ?_⟩
    rw [storeRx, State.afterAll_cons, State.after_stb_rxb s i b (by omega), hr, State.respond, State.writeBytes_with_rsp]
    rfl

/-- Type and code of a datagram just received are its bytes 20 and 21: what `CLASS` answers then (R144, R185). -/
theorem State.class_after_receive (s : State) (d : List Byte) :
    (s.afterAll (hostReceive d ++ [.classify])).response =
      if d.length < 22 then ⟨5, 0⟩ else ⟨0, clsOf (d.getD 20 0) (d.getD 21 0)⟩ := by
  obtain ⟨r, hr⟩ := s.afterAll_storeRx 0 (d.take 92) (by simp)
  have hn : (BitVec.ofNat 16 (d.take 92).length).toNat = min 92 d.length := by
    rw [BitVec.toNat_ofNat, List.length_take]; omega
  have hlo : (loByte (BitVec.ofNat 16 (d.take 92).length)).toNat = min 92 d.length := by
    unfold loByte; rw [BitVec.extractLsb'_toNat, hn, Nat.shiftRight_zero]; omega
  have hs : s.afterAll (hostReceive d) =
      ({ (s.writeBytes 0x80 (d.take 92)) with
        rxlen := loByte (BitVec.ofNat 16 (d.take 92).length), rsp := r } : State).respond 0 := by
    simp only [hostReceive, ldrx, Config.rxCap, State.afterAll_append, hr, State.afterAll_cons, State.afterAll_nil, State.after,
      exec, execSetrxlen, hn]
    rw [if_neg (by omega)]
  have hb : ∀ i, i < 92 → i < d.length → (s.writeBytes 0x80 (d.take 92)).readByte (0x80 + i) = d.getD i 0 := by
    intro i h1 h2
    rw [State.readByte_writeBytes, if_pos (by rw [List.length_take]; omega)]
    simp [h1]
  rw [State.afterAll_append, hs]
  simp only [State.afterAll_cons, State.afterAll_nil, State.after, exec, execClass, State.hasTypeCode, State.respond_rxlen, hlo]
  by_cases h : d.length < 22
  · rw [if_pos h, if_pos (by simp; omega)]; rfl
  · rw [if_neg h, if_neg (by simp; omega)]
    have h20 := hb 20 (by omega) (by omega)
    have h21 := hb 21 (by omega) (by omega)
    rw [← h20, ← h21]; rfl

/-- A datagram too short to classify is fatal (R185, D11). -/
theorem hostClassify_stop_short (d : List Byte) (s : State) (h : d.length < 22) :
    (hostClassify d s).stop = some (.fatal .shortDatagram) := by
  have hc : hostAfterClass (s.afterAll (hostReceive d ++ [.classify])).response = .halt (.fatal .shortDatagram) := by
    rw [State.class_after_receive, if_pos h]; rfl
  simp only [hostClassify, hc]

/-- A reply of type 0 and code 0 does not stop the run (R185). -/
theorem hostClassify_stop_none (d : List Byte) (s : State) (h : Replies d 0 0) : (hostClassify d s).stop = none := by
  have hc : hostAfterClass (s.afterAll (hostReceive d ++ [.classify])).response = .goOn := by
    rw [State.class_after_receive, if_neg (by omega)]
    simp [List.getD_eq_getElem?_getD, h.2.1, h.2.2, clsOf, hostAfterClass]
  simp only [hostClassify, hc]

/-- A successful attempt sends the template and counts, and the run goes on behind it (R185, R186). -/
theorem hostAttempts_success (net : Nat → NetEvent) (left k : Nat) (s : State) {d : List Byte} (hd : net k = .datagram d)
    (h : Replies d 0 0) :
    ∃ t, (hostAttempts net (left + 1) k s).sent = s.txb :: (hostAttempts net left (k + 1) t).sent ∧
      (hostAttempts net (left + 1) k s).received = (hostAttempts net left (k + 1) t).received + 1 ∧
      (hostAttempts net (left + 1) k s).stop = (hostAttempts net left (k + 1) t).stop := by
  have hn : (hostAttempt (net k) s).stop = none := by rw [hd]; exact hostClassify_stop_none d _ h
  have hp : (hostPause k).filterMap messageOf? = [] := by unfold hostPause; split <;> rfl
  refine ⟨(hostAttempt (net k) s).block.afterAll (hostAdvance k), ?_, ?_, ?_⟩ <;>
    simp [hostAttempts, hn, HostRun.sent, hp, -List.filterMap_eq_nil_iff]

/-- An attempt that stops the run is its last: its message is sent and nothing is received (R184, R185). -/
theorem hostAttempts_stopped (net : Nat → NetEvent) (left k : Nat) (s : State) {r : HostStop}
    (h : (hostAttempt (net k) s).stop = some r) :
    (hostAttempts net (left + 1) k s).sent = [s.txb] ∧ (hostAttempts net (left + 1) k s).received = 0 ∧
      (hostAttempts net (left + 1) k s).stop = r := by
  simp [hostAttempts, h, HostRun.sent, -List.filterMap_eq_nil_iff]

/-- Attempts that all succeed reach the cap, each with its message (R186). -/
theorem hostAttempts_of_successes (net : Nat → NetEvent) (left k : Nat) (s : State)
    (h : ∀ j, k ≤ j → j < k + left → ∃ d, net j = .datagram d ∧ Replies d 0 0) :
    (hostAttempts net left k s).sent.length = left ∧ (hostAttempts net left k s).received = left ∧
      (hostAttempts net left k s).stop = .capReached := by
  induction left generalizing k s with
  | zero => exact ⟨rfl, rfl, rfl⟩
  | succ left ih =>
    obtain ⟨d, hd, hr⟩ := h k (by omega) (by omega)
    obtain ⟨t, h1, h2, h3⟩ := hostAttempts_success net left k s hd hr
    obtain ⟨i1, i2, i3⟩ := ih (k + 1) t fun j _ _ => h j (by omega) (by omega)
    exact ⟨by rw [h1, List.length_cons, i1], by rw [h2, i2], by rw [h3, i3]⟩

/-- A run sends, receives and stops as its attempts do: `BUILD` only comes before them (R182). -/
theorem hostRun_attempts (pid : Nat) (net : Nat → NetEvent) (s : State) :
    (hostRun pid net s).sent = (hostAttempts net 5 1 (s.after (.build (hostIdent pid)))).sent ∧
      (hostRun pid net s).received = (hostAttempts net 5 1 (s.after (.build (hostIdent pid)))).received ∧
      (hostRun pid net s).stop = (hostAttempts net 5 1 (s.after (.build (hostIdent pid)))).stop :=
  ⟨rfl, rfl, rfl⟩

end Sys2Proof.Machine
end

