-- ==== Sys2Proof/Machine/Assembly.lean ====
section
/-! DEFINITION. The assembler syntax of one command a line (R83), the pseudo-commands among them (R84). -/

namespace Sys2Proof.Machine

/-- The names of the register selectors (R32), which an operand may be written by (R83). -/
def regNames : List (String × Nat) :=
  [("ESR", 0x00), ("CKR", 0x01), ("ACC", 0x02), ("CKST", 0x03), ("RXLEN", 0x04)]

/-- The names of the field selectors (R78), which an operand may be written by (R83). -/
def fieldNames : List (String × Nat) :=
  [("T_TYPE", 0x00), ("T_CODE", 0x01), ("T_CKSUM", 0x02), ("T_ID", 0x03), ("T_SEQ", 0x04),
    ("R_TYPE", 0x10), ("R_CODE", 0x11), ("R_CKSUM", 0x12), ("R_ID", 0x13), ("R_SEQ", 0x14)] ++
  [("IP_VIHL", 0x20), ("IP_TOS", 0x21), ("IP_TOTLEN", 0x22), ("IP_ID", 0x23), ("IP_FLAGFRAG", 0x24), ("IP_TTL", 0x25),
    ("IP_PROTO", 0x26), ("IP_HCSUM", 0x27), ("IP_SRC", 0x28), ("IP_DST", 0x29), ("IP_VER", 0x2A), ("IP_IHL", 0x2B),
    ("IP_FLAGS", 0x2C), ("IP_FRAGOFF", 0x2D)]

/-- The value of a digit in a base up to 16. -/
def digit? (base : Nat) (c : Char) : Option Nat :=
  let n := c.toNat
  let v := if 48 ≤ n ∧ n ≤ 57 then n - 48 else if 65 ≤ n ∧ n ≤ 70 then n - 55 else if 97 ≤ n ∧ n ≤ 102 then n - 87 else 16
  if v < base then some v else none

/-- The number a list of digits is; `acc` is the number read so far. -/
def digits? (base acc : Nat) : List Char → Option Nat
  | [] => some acc
  | c :: cs =>
    match digit? base c with
    | none => none
    | some d => digits? base (acc * base + d) cs

/-- A number, decimal or `0x` hexadecimal (R83). -/
def number? : List Char → Option Nat
  | [] => none
  | '0' :: 'x' :: c :: cs => digits? 16 0 (c :: cs)
  | c :: cs => digits? 10 0 (c :: cs)

/-- The words of a line, separated by spaces and commas; `w` is the word read so far, last character first. -/
def lineWords (w : List Char) : List Char → List (List Char)
  | [] => if w = [] then [] else [w.reverse]
  | c :: cs =>
    if c = ' ' ∨ c = ',' then (if w = [] then lineWords [] cs else w.reverse :: lineWords [] cs) else lineWords (c :: w) cs

/-- An operand: a selector's name, or a number below `bound`. -/
def operand? (names : List (String × Nat)) (bound : Nat) (w : List Char) : Option Nat :=
  match (names.lookup (String.ofList w)).or (number? w) with
  | none => none
  | some n => if n < bound then some n else none

/-- An 8-bit operand: an address, a byte, or a selector that may be written by one of the names. -/
def byteOperand? (names : List (String × Nat)) (w : List Char) : Option Byte := (operand? names 0x100 w).map (BitVec.ofNat 8)

/-- A 16-bit operand. -/
def halfOperand? (w : List Char) : Option Half := (operand? [] 0x10000 w).map (BitVec.ofNat 16)

/-- Bytes, all of them numbers below 256. -/
def byteOperands? : List (List Char) → Option (List Byte)
  | [] => some []
  | w :: ws =>
    match byteOperand? [] w, byteOperands? ws with
    | some b, some bs => some (b :: bs)
    | _, _ => none

/-- The commands a mnemonic and its operand words stand for (R83, R84); `n` is the current `RXLEN` known to the host, which
`VERIFYRX` uses. -/
def assembleWords (n : Nat) (mnemonic : String) (ops : List (List Char)) : Option (List Instr) :=
  match mnemonic, ops with
  | "NOP", [] => some [.nop]
  | "SRST", [] => some [.srst]
  | "RDS", [a] => (byteOperand? regNames a).map (fun a => [.rds a])
  | "CKCLR", [] => some [.ckclr]
  | "CKPUT", [b] => (byteOperand? [] b).map (fun b => [.ckput (b.setWidth 16)])
  | "CKRUN", [a, l] => (byteOperand? [] a).bind (fun a => (halfOperand? l).map (fun l => [.ckrun a l]))
  | "CKFIN", [] => some [.ckfin]
  | "STB", [a, b] => (byteOperand? [] a).bind (fun a => (byteOperand? [] b).map (fun b => [.stb a (b.setWidth 16)]))
  | "LDB", [a] => (byteOperand? [] a).map (fun a => [.ldb a])
  | "WRF", [f, v] => (byteOperand? fieldNames f).bind (fun f => (halfOperand? v).map (fun v => [.wrf f v]))
  | "BUILD", [v] => (halfOperand? v).map (fun v => [.build v])
  | "SEAL", [] => some [.sealTx]
  | "NEXT", [] => some [.nextSeq]
  | "SETRXLEN", [v] => (halfOperand? v).map (fun v => [.setrxlen v])
  | "RDF", [f] => (byteOperand? fieldNames f).map (fun f => [.rdf f])
  | "CLASS", [] => some [.classify]
  | "DESC", [] => some [.desc]
  | "CKSUM", [a, l] => (byteOperand? [] a).bind (fun a => (halfOperand? l).map (fun l => cksum a l))
  | "VERIFYRX", [] => if Config.iphLen ≤ n then some (verifyRx n) else none
  | "VERIFYTX", [] => some verifyTx
  | "LDRX", bs => (byteOperands? bs).bind (fun bs => if bs.length ≤ Config.rxCap then some (ldrx bs) else none)
  | "SETSEQ", [v] => (halfOperand? v).map setSeq
  | _, _ => none

/-- The commands one line of assembler stands for: a `;` starts a comment, an empty line is no command (R83). -/
def assemble (n : Nat) (line : String) : Option (List Instr) :=
  match lineWords [] (line.toList.takeWhile (fun c => c != ';')) with
  | [] => some []
  | m :: ops => assembleWords n (String.ofList m) ops

end Sys2Proof.Machine
end

