-- ==== Sys2Proof/Tests/Slice0.lean ====
section
/-! SUPPORT. Tests of the model, expected results from spec/95_test_vectors.md (V, P) and the rules' examples, and one witness for each statement that has hypotheses. -/

namespace Sys2Proof.Tests
open Sys2Proof Sys2Proof.Machine

/-- The next state of an outcome. -/
def after : Result → Option State
  | .next t => some t
  | _ => none

/-- The response of an outcome. -/
def rspOf (r : Result) : Option (Byte × Word) := ((after r).bind (·.rsp)).map (fun p => (p.err, p.val))

/-- The stream registers of an outcome. -/
def streamOf (r : Result) : Option (Word × Byte × Bool) := (after r).map (fun t => (t.acc, t.hold, t.phase))

/-- The reset state with these stream registers. -/
def withStream (acc : Word) (hold : Byte) (phase : Bool) : State := { State.reset with acc := acc, hold := hold, phase := phase }

/-- The reset state with the bytes of a list written from address `a` on. -/
def withBytes (a : Nat) (bs : List Byte) : State := State.reset.writeBytes a bs

/-- `TXB` of 72 equal bytes. -/
def txAll (b : Byte) : State := withBytes 0 (List.replicate 72 b)

/-- The state after `BUILD 0x1234` with the payload `RAMP` of spec/95 (V27 gives its bytes), before the seal. -/
def rampBuilt : State := State.reset.built (fun j => BitVec.ofNat 8 j) 0x1234

/-- The state of V60: the same, sealed. -/
def rampSealed : State := rampBuilt.sealed

/-- The IPv4 header of spec/95's field vectors, `RXLEN` = 20. -/
def ipHeader : State :=
  { withBytes 0x80 [0x45, 0, 0, 0x5C, 0xAB, 0xCD, 0x40, 0, 0x40, 1, 0x0A, 0xD0, 0xC0, 0, 2, 1, 0xC0, 0, 2, 2] with rxlen := 20 }

/-- A reply with this type and code, `RXLEN` = 22. -/
def reply (t c : Byte) : State := { withBytes 0x94 [t, c] with rxlen := 22 }

/-! ### WellFormed: the reserved high byte of `IMM` (R73, R74) -/

theorem test_wf_refuses_ckput_high_byte : (Instr.ckput 0x0100).wf = false := by decide
theorem test_wf_refuses_stb_high_byte : (Instr.stb 0x00 0x0100).wf = false := by decide
theorem test_wf_accepts : (Instr.ckput 0x00FF).wf = true ∧ (Instr.wrf 0x00 0x0100).wf = true := by decide

/-! ### Decoding: a word of every command, written out from R79 and R83 -/

theorem test_decode_nop : decode 0x00000000 = .ok .nop := by decide
theorem test_decode_srst : decode 0x01000000 = .ok .srst := by decide
theorem test_decode_rds : decode 0x02030000 = .ok (.rds 0x03) := by decide
theorem test_decode_ckclr : decode 0x10000000 = .ok .ckclr := by decide
theorem test_decode_ckput : decode 0x110000AB = .ok (.ckput 0xAB) := by decide
theorem test_decode_ckrun : decode 0x12940024 = .ok (.ckrun 0x94 36) := by decide
theorem test_decode_ckfin : decode 0x13000000 = .ok .ckfin := by decide
theorem test_decode_stb : decode 0x2047003F = .ok (.stb 0x47 0x3F) := by decide
theorem test_decode_ldb : decode 0x21DB0000 = .ok (.ldb 0xDB) := by decide
theorem test_decode_wrf : decode 0x3002BEEF = .ok (.wrf 0x02 0xBEEF) := by decide
theorem test_decode_build : decode 0x31001234 = .ok (.build 0x1234) := by decide
theorem test_decode_seal : decode 0x32000000 = .ok .sealTx := by decide
theorem test_decode_next : decode 0x33000000 = .ok .nextSeq := by decide
theorem test_decode_setrxlen : decode 0x4000005C = .ok (.setrxlen 92) := by decide
theorem test_decode_rdf : decode 0x412E0000 = .ok (.rdf 0x2E) := by decide
theorem test_decode_class : decode 0x42000000 = .ok .classify := by decide
theorem test_decode_desc : decode 0x43000000 = .ok .desc := by decide

/-- V150 to V164: illegal words, by the reason R80 gives. -/
theorem test_decode_reserved :
    [0x00000001, 0x00010000, 0x11000100, 0x11010000, 0x20000100, 0x21000001, 0x31010000, 0x40010000, 0x42000001,
      0x3104FFFF].map (fun w => decode w) = List.replicate 10 (.error .reservedBits) := by decide
theorem test_decode_undefined :
    [0x03000000, 0x14000000, 0xFFFFFFFF, 0x05000000].map (fun w => decode w) =
      List.replicate 4 (.error .undefinedOpcode) := by decide
theorem test_encode_examples :
    encode (.ckrun 0x00 72) = 0x12000048 ∧ encode (.stb 0x80 0x45) = 0x20800045 ∧ encode (.wrf 0x04 2) = 0x30040002 := by
  decide
/-- R83's assembler examples, with their words. -/
theorem test_assemble :
    ["RDS ESR", "CKPUT 0xAB", "STB 0x80, 0x45", "WRF T_SEQ, 2 ; stale", "RDF IP_SRC", "SETRXLEN 92"].map
        (fun l => (assemble 0 l).map (fun is => is.map encode)) =
      [0x02000000, 0x110000AB, 0x20800045, 0x30040002, 0x41280000, 0x4000005C].map (fun w => some [w]) := by decide
/-- R84: `VERIFYRX` for `RXLEN` = 56 sums 36 bytes from 0x94 (P4 step 65). -/
theorem test_assemble_pseudo :
    (assemble 56 "VERIFYRX").map (fun is => is.map encode) = some [0x10000000, 0x12940024, 0x13000000] := by decide
theorem test_decodeTableWord : decodeTableWord 32 0x41280000 = some (.rdf 0x28) := by decide

/-! ### The step -/

/-- P6 step 2: an undefined word answers (1, 0) and sets `ESR[1]`. -/
theorem test_step_illegal :
    rspOf (step (State.reset.withFetchWord 32 0x05000000)) = some (1, 0) ∧
      (after (step (State.reset.withFetchWord 32 0x05000000))).map (·.esr) = some 0x02 := by decide
/-- V60 by step, whatever the payload: `BUILD` runs as the first instruction. -/
theorem test_step_build : (after (step (State.reset.withFetchWord 32 0x31001234))).map (·.readByte 5) = some 0x34 := by decide

/-! ### The checksum function (V6, V7, V12, V17 and the `FOLD` examples) -/

theorem test_csum :
    csum [] = 0xFFFF ∧ csum [0xAB] = 0x54FF ∧ csum [1, 2, 3] = 0xFBFD ∧ csum [0xFF, 0xFF, 0xFF] = 0x00FF ∧
      csum [0x00, 0x01, 0xF2, 0x03, 0xF4, 0xF5, 0xF6, 0xF7] = 0x220D ∧ csum [1, 2, 3, 4, 5] = 0xF6F9 := by decide
theorem test_fold :
    fold 0x0001FFFF = 1 ∧ fold 0x8000FFFF = 0x8000 ∧ fold 0xFFFFFF00 = 0xFF00 ∧ fold 0xFFFFFFFF = 0xFFFF ∧
      fold 0x0002DDF0 = 0xDDF2 := by decide

/-! ### Commands, from the vectors named -/

/-- V130. -/
theorem test_nop : rspOf (exec .nop State.reset) = some (0, 0) := by decide
/-- V131: registers cleared, buffers kept. -/
theorem test_srst :
    (after (exec .srst { reply 3 1 with esr := 0x22, ckr := 0x01C7, acc := 5, hold := 7, phase := true })).map
      (fun t => (t.esr, t.rxlen, t.ckr, t.readByte 0x94)) = some (0, 0, 0, 3) := by decide
/-- V132: `CKST`. -/
theorem test_rds_ckst : rspOf (exec (.rds 0x03) (withStream 0 0xAB true)) = some (0, 0x000001AB) := by decide
/-- V134, V135. -/
theorem test_rds_esr :
    rspOf (exec (.rds 0x00) { State.reset with esr := 0x20 }) = some (0, 0x20) ∧
      rspOf (exec (.rds 0x05) State.reset) = some (2, 0) := by decide
/-- V43. -/
theorem test_ckclr : streamOf (exec .ckclr (withStream 0 0xAB true)) = some (0, 0, false) := by decide
/-- V41 and the second byte of V48. -/
theorem test_ckput :
    streamOf (exec (.ckput 0xAB) State.reset) = some (0, 0xAB, true) ∧
      streamOf (exec (.ckput 0x02) (withStream 0 0x01 true)) = some (0x102, 0, false) := by decide
/-- V52, V53: the last sum that fits and the first that does not. -/
theorem test_ckput_overflow :
    rspOf (exec (.ckput 0x00) (withStream 0xFFFFFF00 0x01 true)) = some (6, 0) ∧
      streamOf (exec (.ckput 0xFF) (withStream 0xFFFFFF00 0x00 true)) = some (0xFFFFFFFF, 0, false) := by decide
/-- V44: a run that starts on a low byte. -/
theorem test_ckrun :
    streamOf (exec (.ckrun 0x00 3) { withBytes 0 [8, 0, 1] with hold := 0x45, phase := true }) =
      some (0x4509, 0, false) := by decide
/-- V162, V170, V171, V180: the order of the causes. -/
theorem test_ckrun_priority :
    rspOf (exec (.ckrun 0xFF 0xFFFF) State.reset) = some (4, 0) ∧ rspOf (exec (.ckrun 0xD8 8) State.reset) = some (4, 0) ∧
      rspOf (exec (.ckrun 0xD8 4) State.reset) = some (5, 0) ∧
      rspOf (exec (.ckrun 0x80 12) { withStream 0xFFFFFFFF 0 false with rxlen := 10 }) = some (5, 0) := by decide
/-- V42, V51, V54. -/
theorem test_ckfin :
    rspOf (exec .ckfin (withStream 0 0xAB true)) = some (0, 0x54FF) ∧
      rspOf (exec .ckfin (withStream 0xFFFFFF00 0 false)) = some (0, 0x00FF) ∧
      rspOf (exec .ckfin (withStream 0xFFFFFF00 0x01 true)) = some (6, 0) := by decide
/-- V139: a store ignores `RXLEN`. -/
theorem test_stb : (after (exec (.stb 0xDB 0x11) State.reset)).map (·.readByte 0xDB) = some 0x11 := by decide
/-- V137, V141: holes. -/
theorem test_stb_hole :
    rspOf (exec (.stb 0x48 0) State.reset) = some (4, 0) ∧ rspOf (exec (.stb 0xFF 0) State.reset) = some (4, 0) := by decide
/-- V142, V143, V145. -/
theorem test_ldb :
    rspOf (exec (.ldb 0x80) ipHeader) = some (0, 0x45) ∧ rspOf (exec (.ldb 0x80) State.reset) = some (5, 0) ∧
      rspOf (exec (.ldb 0xDC) { State.reset with rxlen := 92 }) = some (4, 0) := by decide
/-- R121's example. -/
theorem test_wrf :
    (after (exec (.wrf 0x04 0x0102) State.reset)).map (fun t => (t.readByte 6, t.readByte 7)) = some (0x01, 0x02) := by decide
/-- V68, V69, V70, V71. -/
theorem test_wrf_faults :
    rspOf (exec (.wrf 0x00 0x0100) State.reset) = some (1, 0) ∧ rspOf (exec (.wrf 0x05 0) State.reset) = some (2, 0) ∧
      rspOf (exec (.wrf 0x14 1) State.reset) = some (2, 0) ∧ rspOf (exec (.wrf 0x05 0x0100) State.reset) = some (2, 0) := by
  decide
/-- V60: the template of the ramp, sealed (`execBuild` is this operation on `PAYLOAD_INIT`). -/
theorem test_build_ramp :
    (rampSealed.ckr, rampSealed.acc, rampSealed.hold, rampSealed.phase) = (0x01C7, 0x0003FE35, 0, false) ∧
      rampSealed.readBytes 0 10 = [0x08, 0x00, 0x01, 0xC7, 0x12, 0x34, 0x00, 0x01, 0x00, 0x01] ∧
      rampSealed.readByte 71 = 0x3F := by decide
/-- `BUILD` itself, whatever the payload: the header bytes that do not depend on it. -/
theorem test_build_header :
    (after (exec (.build 0x1234) (txAll 0xFF))).map (fun t => (t.readByte 0, t.readByte 1, t.readBytes 4 4)) =
      some (8, 0, [0x12, 0x34, 0, 1]) := by decide
/-- V64, V31. -/
theorem test_seal :
    rspOf (exec .sealTx rampSealed) = some (0, 0x01C7) ∧ rspOf (exec .sealTx (txAll 0xFF)) = some (0, 0) ∧
      (after (exec .sealTx (txAll 0xFF))).map (·.acc) = some 0x0022FFDD := by decide
/-- V30: all zero. -/
theorem test_seal_zero :
    (after (exec .sealTx (txAll 0))).map (fun t => (t.ckr, t.readByte 2, t.readByte 3)) = some (0xFFFF, 0xFF, 0xFF) := by decide
/-- V61. -/
theorem test_next :
    rspOf (exec .nextSeq rampSealed) = some (0, 0x000201C6) ∧
      (after (exec .nextSeq rampSealed)).map (fun t => (t.readBytes 2 2, t.readBytes 6 2, t.acc)) =
        some ([0x01, 0xC6], [0x00, 0x02], 0x0003FE36) := by decide
/-- V62: 0xFFFF goes to 0x0000. -/
theorem test_next_wraps :
    rspOf (exec .nextSeq ((rampSealed.writeByte 6 0xFF).writeByte 7 0xFF)) = some (0, 0x000001C8) := by decide
/-- V111, V112. -/
theorem test_setrxlen :
    (after (exec (.setrxlen 92) State.reset)).map (·.rxlen) = some 92 ∧
      rspOf (exec (.setrxlen 93) State.reset) = some (3, 0) ∧ rspOf (exec (.setrxlen 0xFFFF) State.reset) = some (3, 0) := by
  decide
/-- The field vectors of section 2.5. -/
theorem test_rdf :
    [0x20, 0x2A, 0x2B, 0x22, 0x23, 0x24, 0x2C, 0x2D, 0x25, 0x27, 0x28, 0x29].map (fun f => rspOf (exec (.rdf f) ipHeader)) =
      [0x45, 4, 5, 0x5C, 0xABCD, 0x4000, 2, 0, 0x40, 0x0AD0, 0xC0000201, 0xC0000202].map (fun v => some (0, v)) := by decide
/-- V119, V120, V122, V123, V124. -/
theorem test_rdf_faults :
    rspOf (exec (.rdf 0x28) { ipHeader with rxlen := 15 }) = some (5, 0) ∧
      rspOf (exec (.rdf 0x2A) { ipHeader with rxlen := 1 }) = some (0, 4) ∧
      [0x05, 0x2E, 0x15].map (fun f => rspOf (exec (.rdf f) ipHeader)) = List.replicate 3 (some (2, 0)) := by decide
/-- V80 to V83, V85, V114. -/
theorem test_class :
    rspOf (exec .classify (reply 0 0)) = some (0, 0) ∧ rspOf (exec .classify (reply 8 0)) = some (0, 1) ∧
      rspOf (exec .classify (reply 0 1)) = some (0, 2) ∧ rspOf (exec .classify (reply 8 1)) = some (0, 2) ∧
      rspOf (exec .classify { reply 0 0 with rxlen := 21 }) = some (5, 0) := by decide
/-- V84, V87, V92, V94, V95, V97, V101, V103, V104. -/
theorem test_desc :
    [(3, 0), (3, 9), (3, 99), (5, 1), (5, 2), (11, 0), (12, 2), (7, 0), (255, 255)].map
        (fun p : Byte × Byte => rspOf (exec .desc (reply p.1 p.2))) =
      [0x00030009, 0x00030901, 0x00036301, 0x0005010A, 0x00050202, 0x000B000B, 0x000C020C, 0x00070000, 0x00FFFF00].map
        (fun v => some (0, v)) := by decide
/-- R185: what each response to `CLASS` leads to. -/
theorem test_host_after_class :
    [⟨0, 0⟩, ⟨0, 1⟩, ⟨0, 2⟩, ⟨5, 0⟩].map hostAfterClass =
      [.goOn, .halt .selfEcho, .describe, .halt (.fatal .shortDatagram)] := by decide
/-- V81, V85: a self-echo ends with `CLASS`, an error reply with `DESC` and its descriptor (R185, R187). -/
theorem test_host_classify :
    (hostClassify (List.replicate 20 0 ++ [8, 0]) State.reset).stop = some .selfEcho ∧
      ((hostClassify (List.replicate 20 0 ++ [3, 1]) State.reset).actions.drop 22 =
        [.issue (.setrxlen 22), .issue .classify, .issue .desc]) ∧
      (hostClassify (List.replicate 20 0 ++ [3, 1]) State.reset).stop = some (.errorReply 0x00030109) := by decide
/-- R186, D20: `NEXT` and the sleep of one second after attempt 4, neither after attempt 5. -/
theorem test_host_advance :
    hostAdvance 4 = [.nextSeq] ∧ hostPause 4 = [.sleep 1] ∧ hostAdvance 5 = [] ∧ hostPause 5 = [] := by decide
/-- R183: 72 loads in rising order, then the message they returned (V5: all zero), then the wait of five seconds (R184). -/
theorem test_host_timeout :
    (hostAttempt .timeout (txAll 0)).stop = some .timedOut ∧
      (hostAttempt .timeout (txAll 0)).actions.drop 71 =
        [.issue (.ldb 0x47), .transmit (List.replicate 72 0), .wait 5] := by decide

/-! ### Witnesses: for every statement with hypotheses, a state and operands that meet them (each clause) -/

theorem witness_DecodeInvertsEncode : (Instr.stb 0xFF 0x00FF).wf = true ∧ (Instr.ckput 0).wf = true := by decide
theorem witness_EncodeInvertsDecode : decode 0x30FFFFFF = .ok (.wrf 0xFF 0xFFFF) := by decide
theorem witness_DecodeFollowsTheMatchAndMaskTable :
    (∃ r ∈ commandRows, r.Fits 0x2047003F) ∧ ∀ r ∈ commandRows, ¬ r.Fits 0x20470100 := by decide
theorem witness_IllegalWordSetsOnlyEsrBitOne :
    (State.reset.withFetchWord 32 0x44000000).inputs = .command 0x44000000 :: [] ∧
      (∀ r ∈ commandRows, ¬ r.Fits 0x44000000) ∧ (∃ r ∈ commandRows, opField r.mat = opField 0x00000001) := by decide
theorem witness_StepRunsTheDecodedCommand :
    (State.reset.withFetchWord 32 0x2047003F).inputs = .command 0x2047003F :: [] ∧
      decode 0x2047003F = .ok (.stb 0x47 0x3F) := by decide
theorem witness_IdleBlockHoldsItsState : State.reset.inputs = [] := by decide
theorem witness_EveryWordGetsOneResponse :
    (State.reset.withFetchWord 32 0xFFFFFFFF).inputs = .command 0xFFFFFFFF :: [] := by decide
theorem witness_CommandsLeaveTheQueueAlone : exec .nop State.reset = .next (State.reset.respond 0) := rfl
theorem witness_LastResponseIsNotRead : exec .ckclr State.reset = .next ((State.reset.setStream clearStream).respond 0) := rfl
theorem witness_ResetStateIsAsTheSpecSays : (0x47 : Byte).toNat ≤ 0x47 ∧ 0x80 ≤ (0xDB : Byte).toNat ∧ (0xDB : Byte).toNat ≤ 0xDB := by
  decide
theorem witness_ResetInputResetsTheBlock : ({ reply 3 1 with inputs := [.reset] } : State).inputs = .reset :: [] := by decide
theorem witness_ResetGuarantees :
    (withBytes 0x94 [3, 1]).RegistersReset ∧ (0x04 : Byte).toNat ≤ 4 ∧ 0x80 ≤ (0x80 : Byte).toNat ∧
      (0 < (92 : Half).toNat ∧ (0x80 : Byte).toNat + (92 : Half).toNat ≤ 0xDC) ∧
      (0x20 ≤ (0x2D : Byte).toNat ∧ (0x2D : Byte).toNat ≤ 0x2D) := by decide
theorem witness_EveryStepKeepsTheInvariant :
    (rampSealed.withFetchWord 32 0x33000000).Inv ∧ (after (step (rampSealed.withFetchWord 32 0x33000000))).isSome = true := by
  decide
theorem witness_SealedInvariant :
    rampSealed.Sealed ∧ (after (exec (.stb 0x80 0x45) rampSealed)).isSome = true ∧ ¬ (0x80 : Byte).toNat ≤ 0x47 ∧
      ¬ (txAll 0).Sealed := by decide
theorem witness_FaultChangesOnlyItsEsrBit :
    (State.reset.withFetchWord 32 0x42000000).inputs = .command 0x42000000 :: [] ∧
      rspOf (step (State.reset.withFetchWord 32 0x42000000)) = some (5, 0) := by decide
/-- A set bit, a cause raised beside it, a bit newly set. -/
theorem witness_EsrBitsAreSticky :
    (({ State.reset with esr := 0x04 } : State).withFetchWord 32 0x42000000).esr.getLsbD 2 = true ∧
      decode 0x42000000 ≠ .ok .srst ∧
      rspOf (step (({ State.reset with esr := 0x04 } : State).withFetchWord 32 0x42000000)) = some (5, 0) ∧
      (after (step (({ State.reset with esr := 0x04 } : State).withFetchWord 32 0x42000000))).map (·.esr) = some 0x24 := by decide
theorem witness_EsrAffectsNoOtherCommand :
    Instr.rds 0x01 ≠ .rds 0x00 ∧ (after (exec (.rds 0x01) State.reset)).isSome = true := by decide
theorem witness_CausesOfEachCommand :
    rspOf (exec (.wrf 0x01 0x0100) State.reset) = some (1, 0) ∧ Cause.illegalCommand ∈ causesOf (.wrf 0x01 0x0100) := by decide
/-- Both sides of `IllegalCommand`: no row, and `WRF` of an 8-bit field with 0x100. -/
theorem witness_IllegalCommandExactly :
    rspOf (step (State.reset.withFetchWord 32 0x30010100)) = some (1, 0) ∧
      decode 0x30010100 = .ok (.wrf 0x01 0x0100) ∧ 0xFF < (0x0100 : Half).toNat ∧
      rspOf (step (State.reset.withFetchWord 32 0x300100FF)) = some (0, 0) := by decide
theorem witness_IllegalFieldAndLengthRangeExactly :
    rspOf (exec (.rds 0x04) State.reset) = some (0, 0) ∧ rspOf (exec (.wrf 0x05 0) State.reset) = some (2, 0) ∧
      rspOf (exec (.setrxlen 92) State.reset) = some (0, 0) := by decide
theorem witness_AddressRangeAndShortDatagramExactly :
    rspOf (exec (.stb 0x7F 0) State.reset) = some (4, 0) ∧ rspOf (exec (.stb 0x80 0) State.reset) = some (0, 0) ∧
      rspOf (exec (.ckrun 0x40 9) (txAll 0)) = some (4, 0) ∧ rspOf (exec (.ckrun 0x40 8) (txAll 0)) = some (0, 0) ∧
      rspOf (exec .desc { State.reset with rxlen := 21 }) = some (5, 0) := by decide
theorem witness_AccOverflowExactly :
    rspOf (exec (.ckrun 0 2) { txAll 0xFF with acc := 0xFFFFFFFF }) = some (6, 0) ∧
      rspOf (exec (.ckrun 0 2) { txAll 0xFF with acc := 0xFFFF0000 }) = some (0, 0) ∧ ([0xFF] : List Byte).length ≤ 131074 := by
  decide
theorem witness_FrameOfEveryCommand :
    rspOf (exec (.stb 0x00 1) State.reset) = some (0, 0) ∧ rspOf (exec (.stb 0x48 1) State.reset) = some (4, 0) := by decide
theorem witness_CommandsDependOnlyOnWhatTheyRead :
    AgreeOn (readsOf .ckclr) State.reset (rampSealed) ∧ (after (exec .ckclr State.reset)).isSome = true ∧
      (after (exec .ckclr rampSealed)).isSome = true := by
  refine ⟨⟨?_, ?_, ?_, ?_, ?_, ?_, ?_⟩, by decide, by decide⟩ <;> simp [readsOf]
theorem witness_ReadsAndIdempotentWrites :
    rspOf (exec (.rdf 0x20) ipHeader) = some (0, 0x45) ∧ rspOf (exec .ckfin State.reset) = some (0, 0xFFFF) ∧
      (after (exec (.setrxlen 93) State.reset)).isSome = true := by decide
/-- The stored byte survives `BUILD` in `RXB` and `SEAL` in `TXB`, and is readable. -/
theorem witness_LoadReturnsTheLastStore :
    rspOf (exec (.stb 0x80 0x45) State.reset) = some (0, 0) ∧ (writesOf (.build 1)).byte 0x80 = false ∧
      (writesOf (.setrxlen 1)).byte 0x80 = false ∧
      (after (execAll [.stb 0x80 0x45, .setrxlen 1] State.reset)).map (fun u => u.received 0x80) = some true := by decide
theorem witness_AdmittedRangeLiesInOneWindow :
    rspOf (exec (.ckrun 0x00 72) (txAll 0)) = some (0, 0) ∧
      rspOf (exec (.ckrun 0x80 92) { withBytes 0x80 (List.replicate 92 0) with rxlen := 92 }) = some (0, 0) := by decide
theorem witness_SrstResult :
    ({ State.reset with esr := 0x02 } : State).esr ≠ 0 ∧
      (after (exec .srst { State.reset with esr := 0x02 })).map (·.esr) = some 0 := by decide
theorem witness_RdsResult : 0x04 < (0x05 : Byte).toNat := by decide
/-- The last and first addresses of the windows, and of the holes. -/
theorem witness_StbResult :
    (0x47 : Byte).toNat ≤ 0x47 ∧ 0x80 ≤ (0x80 : Byte).toNat ∧ (0xDB : Byte).toNat ≤ 0xDB ∧
      ¬ ((0x48 : Byte).toNat ≤ 0x47 ∨ (0x80 ≤ (0x48 : Byte).toNat ∧ (0x48 : Byte).toNat ≤ 0xDB)) ∧
      ¬ ((0xDC : Byte).toNat ≤ 0x47 ∨ (0x80 ≤ (0xDC : Byte).toNat ∧ (0xDC : Byte).toNat ≤ 0xDB)) ∧ (0xFF : Half).toNat < 256 := by
  decide
theorem witness_LdbResult :
    (0x94 : Byte).toNat - 0x80 < ({ State.reset with rxlen := 21 } : State).rxlen.toNat ∧
      ({ State.reset with rxlen := 20 } : State).rxlen.toNat ≤ (0x94 : Byte).toNat - 0x80 ∧ ¬ (0x7F : Byte).toNat ≤ 0x47 := by
  decide
theorem witness_RawSumIsTheSumOfWireWords : ([1, 2, 3] : List Byte).length % 2 = 1 ∧ ([1, 2, 3] : List Byte).length ≤ 131074 := by
  decide
theorem witness_FoldIsTheCarryLoop : 0xFFFFFFFF < 2 ^ 32 ∧ 0xFFFFFFFF ≠ 0 ∧ 0xFFFFFFFF % 65535 = 0 := by decide
theorem witness_StreamAgreesWithWholeBuffer : sum32 [0xFF, 0xFF, 0xFF] < 2 ^ 32 := by decide
theorem witness_VerificationLaw : 2 % 2 = 0 ∧ 2 + 2 ≤ ([1, 2, 3, 4, 5] : List Byte).length ∧ ([1, 2, 3, 4, 5] : List Byte).length ≤ 131074 := by
  decide
theorem witness_ChecksumLaws : ([0xAB] : List Byte).length % 2 = 1 ∧ sum32 [0xFF, 0xFF] < 2 ^ 32 := by decide
theorem witness_LittleEndianHostGivesTheSameBytes : ([1, 2, 3] : List Byte).length ≤ 131074 := by decide
theorem witness_CkputResult :
    (withStream 7 0 false).phase = false ∧ (withStream 0xFFFFFF00 0x00 true).phase = true ∧
      0xFFFFFF00 + (0x00 * 256 + (0xFF : Half).toNat % 256) < 2 ^ 32 ∧
      2 ^ 32 ≤ 0xFFFFFF00 + ((0x01 : Byte).toNat * 256 + (0x00 : Half).toNat % 256) := by decide
/-- One past the TX window; `RXLEN` exactly reached and one past it; the sum that fits and the one that does not. -/
theorem witness_CkrunResult :
    (72 < (73 : Half).toNat ∧ ¬ implemented ((0x00 : Byte).toNat + 72) = true) ∧
      rspOf (exec (.ckrun 0x94 2) (reply 3 1)) = some (0, 0) ∧ rspOf (exec (.ckrun 0x94 3) (reply 3 1)) = some (5, 0) ∧
      feeds ⟨0xFFFFFFFF, 0, false⟩ [0x00, 0x01] = none ∧ feeds ⟨0xFFFFFFFE, 0, false⟩ [0x00, 0x01] = some ⟨0xFFFFFFFF, 0, false⟩ := by
  decide
theorem witness_CkfinResult :
    finSum ⟨0xFFFFFF00, 0x00, true⟩ < 2 ^ 32 ∧ 2 ^ 32 ≤ finSum ⟨0xFFFFFF00, 0x01, true⟩ ∧ State.reset.acc = 0 ∧
      State.reset.phase = false ∧ (withStream 0 0xAB true).phase = true := by decide
theorem witness_RunsConcatenate :
    (0x01 : Byte).toNat = (0x00 : Byte).toNat + (1 : Half).toNat ∧
      rspOf (execAll [.ckrun 0x00 1, .ckrun 0x01 2] (txAll 1)) = some (0, 0) := by decide
/-- Every field, the largest 8-bit value, the first selector refused, the first value refused. -/
theorem witness_WrfResult :
    ((0x04 : Byte).toNat ≤ 0x04 ∧ ¬ (0x04 : Byte).toNat ≤ 0x01) ∧ ((0x01 : Byte).toNat ≤ 0x01 ∧ (0xFF : Half).toNat < 256) ∧
      0x04 < (0x05 : Byte).toNat ∧ 256 ≤ (0x0100 : Half).toNat := by decide
theorem witness_SealResult : ∀ x < 72, (txAll 0).readByte x = 0 := by decide
theorem witness_RebuildingEqualsMutating : (1 : Nat) ≤ 5 ∧ 5 ≤ 0xFFFF := by decide
theorem witness_VerifyTxReturnsZeroWhenSealed :
    rampSealed.Sealed ∧ rspOf (execAll verifyTx rampSealed) = some (0, 0) := by decide
/-- The last and the first 16-bit field of `RXB`, at exactly the length each needs. -/
theorem witness_FieldsAreMostSignificantByteFirst :
    (∃ r ∈ fieldRows, r.sel = 0x14 ∧ 0x80 ≤ r.addr ∧ r.bytes = 2 ∧ r.bits = 16 ∧
        r.need ≤ ({ State.reset with rxlen := 28 } : State).rxlen.toNat ∧ r.need = 28) ∧
      ∃ r ∈ fieldRows, r.sel = 0x22 ∧ 0x80 ≤ r.addr ∧ r.bytes = 2 ∧ r.bits = 16 ∧
        r.need ≤ ({ State.reset with rxlen := 4 } : State).rxlen.toNat ∧ r.need = 4 := by decide
theorem witness_SetrxlenResult : (92 : Half).toNat ≤ 92 ∧ 92 < (93 : Half).toNat ∧ 92 < (0x0100 : Half).toNat := by decide
/-- A row at the length it needs and one below; a selector between the groups. -/
theorem witness_RdfResult :
    (∃ r ∈ fieldRows, r.need ≤ ({ State.reset with rxlen := 28 } : State).rxlen.toNat ∧ r.need = 28) ∧
      (∃ r ∈ fieldRows, ({ State.reset with rxlen := 27 } : State).rxlen.toNat < r.need) ∧ ∀ r ∈ fieldRows, r.sel ≠ 0x15 := by decide
theorem witness_ClassResult : 22 ≤ (reply 8 0).rxlen.toNat ∧ State.reset.rxlen.toNat < 22 := by decide
theorem witness_DescResult : 22 ≤ (reply 3 9).rxlen.toNat ∧ ({ reply 3 9 with rxlen := 21 } : State).rxlen.toNat < 22 := by decide
theorem witness_LoadingADatagram : (List.replicate 92 (0x45 : Byte)).length ≤ 92 ∧ ([] : List Byte).length ≤ 92 := by decide
/-- Five successes; two and then each early end, the datagram of 22 bytes the shortest that is classified. -/
theorem witness_CommandTraceOfAWholeRun :
    (∀ k, 1 ≤ k → k ≤ 5 → (fun _ => NetEvent.datagram (List.replicate 20 0 ++ [0, 0])) k =
        .datagram ((fun _ => List.replicate 20 0 ++ [0, 0]) k) ∧ Replies (List.replicate 20 0 ++ [0, 0]) 0 0) ∧
      Replies (List.replicate 20 0 ++ [8, 0]) 8 0 ∧ Replies (List.replicate 20 0 ++ [3, 1]) 3 1 ∧
      ¬ (((3 : Byte) = 0 ∨ (3 : Byte) = 8) ∧ (1 : Byte) = 0) ∧
      (fun k => if k = 3 then NetEvent.timeout else .datagram (List.replicate 20 0 ++ [0, 0])) (2 + 1) = .timeout ∧
      (fun k => if k = 3 then NetEvent.timeout else .datagram (List.replicate 20 0 ++ [0, 0])) 2 =
        .datagram (List.replicate 20 0 ++ [0, 0]) :=
  ⟨fun _ _ _ => ⟨rfl, by decide⟩, by decide, by decide, by decide, by decide, by decide⟩
/-- A reply of type 0 and code 0, the shortest that is classified. -/
def success : List Byte := List.replicate 20 0 ++ [0, 0]
/-- The cap: five successes, so attempts 1 to 4 are successes before the last (S6). -/
theorem witness_WhateverArrivesTheRunSendsNumberedMessages :
    (hostRun 7 (fun _ => .datagram success) State.reset).sent.length = 5 ∧
      (hostRun 7 (fun _ => .datagram success) State.reset).received = 5 ∧
      (hostRun 7 (fun _ => .datagram success) State.reset).stop = .capReached := by
  obtain ⟨h1, h2, h3⟩ := hostRun_attempts 7 (fun _ => .datagram success) State.reset
  rw [h1, h2, h3]
  exact hostAttempts_of_successes _ 5 1 _ fun _ _ _ => ⟨success, rfl, by decide⟩
/-- S7: a timeout on attempt 3, after two successes. -/
theorem witness_WhateverArrives_timeout :
    (hostRun 7 (fun k => if k = 3 then .timeout else .datagram success) State.reset).sent.length = 3 ∧
      (hostRun 7 (fun k => if k = 3 then .timeout else .datagram success) State.reset).received = 2 ∧
      (hostRun 7 (fun k => if k = 3 then .timeout else .datagram success) State.reset).loss = 1 ∧
      (hostRun 7 (fun k => if k = 3 then .timeout else .datagram success) State.reset).stop = .timedOut := by
  obtain ⟨h1, h2, h3⟩ := hostRun_attempts 7 (fun k => if k = 3 then .timeout else .datagram success) State.reset
  obtain ⟨t, a1, a2, a3⟩ := hostAttempts_success (fun k => if k = 3 then .timeout else .datagram success) 4 1
    (State.reset.after (.build (hostIdent 7))) rfl (d := success) (by decide)
  obtain ⟨u, b1, b2, b3⟩ := hostAttempts_success (fun k => if k = 3 then .timeout else .datagram success) 3 2 t rfl
    (d := success) (by decide)
  obtain ⟨c1, c2, c3⟩ := hostAttempts_stopped (fun k => if k = 3 then .timeout else .datagram success) 2 3 u
    (r := .timedOut) rfl
  simp [HostRun.loss, h1, h2, h3, a1, a2, a3, b1, b2, b3, c1, c2, c3]
/-- Each fatal end, at attempt 1; the longest datagram that is too short. -/
theorem witness_WhateverArrives_fatal :
    (hostRun 7 (fun _ => .sendFailure) State.reset).stop = .fatal .send ∧
      (hostRun 7 (fun _ => .sendFailure) State.reset).sent.length = 1 ∧
      (hostRun 7 (fun _ => .waitError) State.reset).stop = .fatal .wait ∧
      (hostRun 7 (fun _ => .readFailure) State.reset).stop = .fatal .read ∧
      (List.replicate 21 (0 : Byte)).length < 22 ∧
      (hostRun 7 (fun _ => .datagram (List.replicate 21 0)) State.reset).stop = .fatal .shortDatagram := by
  have hs := hostAttempts_stopped (fun _ => .sendFailure) 4 1 (State.reset.after (.build (hostIdent 7))) rfl
  have hw := hostAttempts_stopped (fun _ => .waitError) 4 1 (State.reset.after (.build (hostIdent 7))) rfl
  have hr := hostAttempts_stopped (fun _ => .readFailure) 4 1 (State.reset.after (.build (hostIdent 7))) rfl
  have hd := hostAttempts_stopped (fun _ => .datagram (List.replicate 21 0)) 4 1 (State.reset.after (.build (hostIdent 7)))
    (hostClassify_stop_short (List.replicate 21 0) ((State.reset.after (.build (hostIdent 7))).afterAll hostSend) (by decide))
  simp only [hostRun_attempts]
  exact ⟨hs.2.2, by rw [hs.1]; rfl, hw.2.2, hr.2.2, by decide, hd.2.2⟩

end Sys2Proof.Tests
end

section
/-! PROOFS. How a command ends (R15, R17, R210): it raises one of its causes on the state it began in, or it responds. The step as the command of the oldest issued word. -/

namespace Sys2Proof.Machine

/-! ### The two ways a command ends -/

/-- The two ways a command that can raise the causes `cs` ends in state `s`: it raises one of them with nothing else
changed (R210), or it responds with `ERR` 0 from a state `u` that the command has made (R15, R75). Either way it leaves the
host's queue and the reset number alone. -/
inductive Completes (cs : List Cause) (s : State) : Result → Prop where
  | raises (c : Cause) (mem : c ∈ cs) : Completes cs s (.next (s.raise c))
  | responds (u : State) (v : Word) (inputs : u.inputs = s.inputs) (resets : u.resets = s.resets) :
      Completes cs s (.next (u.respond v))

namespace Completes

variable {cs : List Cause} {s : State}

/-- A test before the rest of a command: it raises its cause, or the rest runs. -/
theorem guard {p : Prop} [Decidable p] {c : Cause} {r : Result} (rest : Completes cs s r)
    (mem : c ∈ cs := by simp [causesOf]) :
    Completes cs s (if p then .next (s.raise c) else r) := by
  split
  · exact .raises c mem
  · exact rest

/-- A command that reads only responds from the state it began in. -/
theorem answers (v : Word) : Completes cs s (.next (s.respond v)) := .responds s v rfl rfl

/-- A command that feeds the stream overflows, or responds with the stream written (R110, R111). -/
theorem finishFeed (S : Option Stream) (mem : .accOverflow ∈ cs := by simp [causesOf]) :
    Completes cs s (finishFeed s S) := by
  cases S with
  | none => exact .raises _ mem
  | some S => exact .responds (s.setStream S) 0 rfl rfl

end Completes

/-- Every command ends in one of the two ways, and raises no cause but its own (R222). -/
theorem exec_completes (i : Instr) (s : State) : Completes (causesOf i) s (exec i s) := by
  cases i with
  | nop => exact .answers 0
  | srst => exact .responds s.softReset 0 rfl rfl
  | rds sel =>
    rw [exec, execRds]
    cases regSel? sel with
    | none => exact .raises .illegalField (by simp [causesOf])
    | some r => exact .answers (s.readReg r)
  | ckclr => exact .responds (s.setStream clearStream) 0 rfl rfl
  | ckput imm => exact .finishFeed _
  | ckrun base len => exact .guard (.guard (.finishFeed _))
  | ckfin =>
    rw [exec, execCkfin]
    cases fin s.stream with
    | none => exact .raises .accOverflow (by simp [causesOf])
    | some c => exact .responds { s with ckr := c } _ rfl rfl
  | stb addr imm => exact .guard (.responds (s.writeByte addr.toNat (loByte imm)) 0 rfl rfl)
  | ldb addr => exact .guard (.guard (.answers _))
  | wrf sel imm =>
    rw [exec, execWrf]
    cases txField? sel with
    | none => exact .raises .illegalField (by simp [causesOf])
    | some f => exact .guard (.responds (s.writeField f imm) 0 (by simp) (by simp))
  | build ident => exact .responds (s.built Config.payloadInit ident).sealed _ (by simp) (by simp)
  | sealTx => exact .responds s.sealed _ (by simp) (by simp)
  | nextSeq => exact .responds s.advanced.sealed _ (by simp) (by simp)
  | setrxlen n => exact .guard (.responds { s with rxlen := loByte n } 0 rfl rfl)
  | rdf sel =>
    rw [exec, execRdf]
    cases fieldSel? sel with
    | none => exact .raises .illegalField (by simp [causesOf])
    | some f => exact .guard (.answers _)
  | classify => exact .guard (.answers _)
  | desc => exact .guard (.answers _)

/-! ### The step on an issued word -/

/-- The oldest input is a command word: the step answers that word with the word taken from the queue (R17). -/
theorem step_command {s : State} {w : Word} {q : List HostInput} (h : s.inputs = .command w :: q) :
    step s = issueWord w (s.withInputs q) := by
  simp [step, answer, h]

/-- A word that is a command is executed (R17). -/
theorem issueWord_ok {w : Word} {i : Instr} (h : decode w = .ok i) (s : State) : issueWord w s = exec i s := by
  simp [issueWord, h]

/-- A word that is no command raises `IllegalCommand` (R80). -/
theorem issueWord_error {w : Word} {e : DecodeError} (h : decode w = .error e) (s : State) :
    issueWord w s = .next (s.raise .illegalCommand) := by
  simp [issueWord, h]

/-- Every word ends in one of the two ways a command ends, whether it is a command or not (R17, R80). -/
theorem issueWord_completes (w : Word) (s : State) : ∃ cs, Completes cs s (issueWord w s) := by
  cases h : decode w with
  | error e => exact ⟨[.illegalCommand], issueWord_error h s ▸ .raises _ (List.mem_singleton_self _)⟩
  | ok i => exact ⟨causesOf i, issueWord_ok h s ▸ exec_completes i s⟩

/-! ### One response -/

/-- The code of a cause is 1 to 6 (R211). -/
theorem causeErr_toNat_le (c : Cause) : (causeErr c).toNat ≤ 6 := by
  cases c <;> decide

/-- However a command ends, it has taken nothing from the queue and returns a response with `ERR` at most 6, and `VAL` 0
on a fault (R75, R211). -/
theorem Completes.response {cs : List Cause} {s : State} {r : Result} (h : Completes cs s r) :
    ∃ t p, r = .next t ∧ t.inputs = s.inputs ∧ t.rsp = some p ∧ p.err.toNat ≤ 6 ∧ (p.err ≠ 0 → p.val = 0) := by
  cases h with
  | raises c _ => exact ⟨s.raise c, ⟨causeErr c, 0⟩, rfl, rfl, rfl, causeErr_toNat_le c, fun _ => rfl⟩
  | responds u v inputs _ => exact ⟨u.respond v, ⟨0, v⟩, rfl, inputs, rfl, by simp, fun h => absurd rfl h⟩

/-! ### The obligations -/

/-- Settles O8: the step answers the oldest word, which ends in a raised cause or a response. -/
theorem everyWordGetsOneResponse : Obligations.EveryWordGetsOneResponse := by
  intro s w q h
  obtain ⟨cs, hw⟩ := issueWord_completes w (s.withInputs q)
  rw [step_command h]
  exact hw.response

/-- Settles O6: the step answers the oldest word, and a word that decodes is executed. -/
theorem stepRunsTheDecodedCommand : Obligations.StepRunsTheDecodedCommand := by
  intro s w q i h hi
  rw [step_command h, issueWord_ok hi]
  rfl

end Sys2Proof.Machine
end

section
/-! PROOFS. What one command does to the state: its frame (R33, column `writes`) and the invariant (R34). -/

namespace Sys2Proof.Machine

/-! ### The effect of a command -/

/-- What holds of the state `u` that command `i` makes of `s` when it raises no cause: nothing outside the row of R33 has
changed, and the invariant of R34 is kept. -/
structure Effect (i : Instr) (s u : State) : Prop where
  frame : SameOutside (writesOf i) s u
  inv : s.Inv → u.Inv

/-- A command ends by raising a cause on the state it began in, or by responding from a state with the property `P`. -/
inductive Ends (P : State → Prop) (s : State) : Result → Prop where
  | raises (c : Cause) : Ends P s (.next (s.raise c))
  | responds (u : State) (v : Word) (prop : P u) : Ends P s (.next (u.respond v))

namespace Ends

variable {P : State → Prop} {s : State}

/-- A test before the rest of a command: it raises its cause, or the rest runs with the test passed. -/
theorem guard {p : Prop} [Decidable p] {c : Cause} {r : Result} (rest : ¬ p → Ends P s r) :
    Ends P s (if p then .next (s.raise c) else r) := by
  split
  · exact .raises c
  · exact rest ‹_›

/-- A command that feeds the stream overflows, or responds with the stream written (R110, R111). -/
theorem finishFeed {o : Option Stream} (h : ∀ S, o = some S → P (s.setStream S)) : Ends P s (finishFeed s o) := by
  cases o with
  | none => exact .raises _
  | some S => exact .responds (s.setStream S) 0 (h S rfl)

end Ends

/-- A command that only reads changes nothing. -/
theorem Effect.refl (i : Instr) (s : State) : Effect i s s :=
  ⟨⟨fun _ => rfl, fun _ => rfl, fun _ => rfl, fun _ => rfl, fun _ => rfl, fun _ => rfl, fun _ _ => rfl⟩, id⟩

/-! ### Reading a byte after a register write -/

@[simp] theorem State.readByte_with_ckr (s : State) (c : Half) (x : Nat) :
    ({ s with ckr := c } : State).readByte x = s.readByte x := rfl
@[simp] theorem State.readByte_with_rxlen (s : State) (n : Byte) (x : Nat) :
    ({ s with rxlen := n } : State).readByte x = s.readByte x := rfl

/-- `SEAL` ends with the write of the checksum it leaves in `CKR` (R123). -/
theorem State.sealed_mem (s : State) :
    s.sealed.mem = ((s.writeField (fieldOf .tCksum) 0).writeField (fieldOf .tCksum) s.sealed.ckr).mem := rfl

theorem State.readByte_sealed (s : State) (x : Nat) :
    s.sealed.readByte x = ((s.writeField (fieldOf .tCksum) 0).writeField (fieldOf .tCksum) s.sealed.ckr).readByte x := by
  simp only [State.readByte, State.unwritten, State.sealed_mem, State.sealed_resets, State.writeField_resets]

/-! ### The bytes the encoder's operations leave alone (R121 to R124) -/

theorem State.readByte_sealed_of_outside (s : State) (x : Nat) (h : ¬ (x = 2 ∨ x = 3)) :
    s.sealed.readByte x = s.readByte x := by
  have hx : x < 2 ∨ 4 ≤ x := by omega
  rw [State.readByte_sealed, State.readByte_writeField_of_outside _ _ _ _ hx,
    State.readByte_writeField_of_outside _ _ _ _ hx]

theorem State.readByte_advanced_of_outside (s : State) (x : Nat) (h : ¬ (x = 6 ∨ x = 7)) :
    s.advanced.readByte x = s.readByte x :=
  State.readByte_writeField_of_outside _ _ _ _ (show x < 6 ∨ 8 ≤ x by omega)

theorem State.readByte_built_of_outside (p : Nat → Byte) (ident : Half) (s : State) (x : Nat) (h : 72 ≤ x) :
    (s.built p ident).readByte x = s.readByte x := by
  have outside (g : FieldSel) (hg : fieldAddr (fieldOf g) + (fieldOf g).bytes ≤ 8) (u : State) (v : Half) :
      (u.writeField (fieldOf g) v).readByte x = u.readByte x :=
    State.readByte_writeField_of_outside _ _ _ _ (.inr (by omega))
  rw [State.built, State.readByte_writeBytes_of_outside _ _ _ _ (.inr (by simpa using h)), outside .tSeq (by decide),
    outside .tId (by decide), outside .tCksum (by decide), outside .tCode (by decide), outside .tType (by decide)]

/-! ### What keeps the invariant (R34) -/

/-- A write of bytes at implemented addresses keeps the invariant. -/
theorem State.Inv.writeBytes {s : State} (h : s.Inv) (a : Nat) (bs : List Byte)
    (ha : ∀ i < bs.length, implemented (a + i) = true) : (s.writeBytes a bs).Inv := by
  obtain ⟨hold, rxlen, esr0, esr7, mem⟩ := h
  exact ⟨by simpa using hold, by simpa using rxlen, by simpa using esr0, by simpa using esr7,
    State.writeBytes_keeps_mem mem a bs ha⟩

/-- A write of a field in the first eight bytes of `TXB`, where the template fields lie, keeps the invariant. -/
theorem State.Inv.writeField {s : State} (h : s.Inv) {f : Field} (hf : fieldAddr f + f.bytes ≤ 8) (v : Half) :
    (s.writeField f v).Inv :=
  h.writeBytes _ _ fun i hi => (implemented_iff _).2 (.inl (by rw [length_beBytes] at hi; omega))

/-- A stream that holds no byte while no byte is pending can be written (R34 (a)). -/
theorem State.Inv.setStream {s : State} (h : s.Inv) {S : Stream} (hS : S.phase = false → S.hold = 0) :
    (s.setStream S).Inv := by
  obtain ⟨-, rest⟩ := h
  exact ⟨hS, rest⟩

theorem State.Inv.sealed {s : State} (h : s.Inv) : s.sealed.Inv := by
  obtain ⟨-, rest⟩ := (h.writeField (f := fieldOf .tCksum) (by decide) 0).writeField (f := fieldOf .tCksum) (by decide)
    s.sealed.ckr
  exact ⟨fun _ => rfl, rest⟩

theorem State.Inv.advanced {s : State} (h : s.Inv) : s.advanced.Inv := h.writeField (by decide) _

theorem State.Inv.built {s : State} (h : s.Inv) (p : Nat → Byte) (ident : Half) : (s.built p ident).Inv := by
  have fields := ((((h.writeField (f := fieldOf .tType) (by decide) (Config.echoRequest.setWidth 16)).writeField
    (f := fieldOf .tCode) (by decide) 0).writeField (f := fieldOf .tCksum) (by decide) 0).writeField
    (f := fieldOf .tId) (by decide) ident).writeField (f := fieldOf .tSeq) (by decide) Config.seqFirst
  exact fields.writeBytes _ _ fun i hi => (implemented_iff _).2 (.inl (by
    simp only [List.length_map, List.length_range, Config.payloadLen] at hi
    simp only [Config.echoHdrLen]
    omega))

/-- Raising a cause touches `ESR` alone, and there no reserved bit (R29, R210). -/
theorem State.Inv.raise {s : State} (h : s.Inv) (c : Cause) : (s.raise c).Inv := by
  obtain ⟨hold, rxlen, esr0, esr7, mem⟩ := h
  obtain ⟨h0, h7⟩ := esrAfter_reserved s.esr c esr0 esr7
  exact ⟨hold, rxlen, h0, h7, mem⟩

theorem State.Inv.softReset {s : State} (h : s.Inv) : s.softReset.Inv := by
  obtain ⟨-, -, -, -, mem⟩ := h
  exact ⟨fun _ => rfl, by simp, by simp, by simp, mem⟩

/-- After the reset input the invariant holds whatever the state was (R34, R240). -/
theorem State.inv_hardReset (s : State) : s.hardReset.Inv :=
  ⟨fun _ => rfl, by simp, by simp, by simp, .nil, by simp⟩

/-- `FEED` leaves `HOLD` at 0 when it leaves `PHASE` at 0 (R103). -/
theorem feed_hold {S S' : Stream} {b : Byte} (h : feed S b = some S') : S'.phase = false → S'.hold = 0 := by
  obtain ⟨acc, hold, phase⟩ := S
  cases phase with
  | false =>
    rw [feed_first, Option.some.injEq] at h
    subst h
    simp
  | true =>
    rw [feed_second, Option.ite_none_left_eq_some, Option.some.injEq] at h
    obtain ⟨-, rfl⟩ := h
    exact fun _ => rfl

theorem feeds_hold {S S' : Stream} {bs : List Byte} (hS : S.phase = false → S.hold = 0) (h : feeds S bs = some S') :
    S'.phase = false → S'.hold = 0 := by
  induction bs generalizing S with
  | nil => cases h; exact hS
  | cons b bs ih =>
    rw [feeds] at h
    cases hb : feed S b with
    | none => simp [hb] at h
    | some T => rw [hb] at h; exact ih (feed_hold hb) h

/-! ### The effect of each operation -/

theorem State.sealed_effect (s : State) : Effect .sealTx s s.sealed :=
  ⟨by simpa [SameOutside, writesOf] using fun a h2 h3 => (s.readByte_sealed_of_outside a (by omega)).symm, .sealed⟩

theorem State.advanced_sealed_effect (s : State) : Effect .nextSeq s s.advanced.sealed := by
  refine ⟨?_, fun h => h.advanced.sealed⟩
  have bytes (a : Nat) (h : ¬ (a = 2 ∨ a = 3 ∨ a = 6 ∨ a = 7)) : s.advanced.sealed.readByte a = s.readByte a := by
    rw [State.readByte_sealed_of_outside _ _ (by omega), State.readByte_advanced_of_outside _ _ (by omega)]
  simpa [SameOutside, writesOf] using fun a h2 h3 h6 h7 => (bytes a (by omega)).symm

theorem State.built_sealed_effect (p : Nat → Byte) (ident : Half) (s : State) :
    Effect (.build ident) s (s.built p ident).sealed := by
  refine ⟨?_, fun h => (h.built p ident).sealed⟩
  have bytes (a : Nat) (h : 72 ≤ a) : (s.built p ident).sealed.readByte a = s.readByte a := by
    rw [State.readByte_sealed_of_outside _ _ (by omega), State.readByte_built_of_outside _ _ _ _ h]
  simpa [SameOutside, writesOf] using fun a h => (bytes a h).symm

theorem State.writeField_effect {sel : Byte} {f : Field} (h : txField? sel = some f) (imm : Half) (s : State) :
    Effect (.wrf sel imm) s (s.writeField f imm) := by
  refine ⟨?_, fun hs => hs.writeField (txField?_range h).1 imm⟩
  have bytes (a : Nat) (ha : fieldAddr f ≤ a → fieldAddr f + f.bytes ≤ a) :
      (s.writeField f imm).readByte a = s.readByte a :=
    State.readByte_writeField_of_outside _ _ _ _ (by omega)
  simpa [SameOutside, writesOf, h, fieldBytes] using fun a ha => (bytes a ha).symm

theorem State.writeByte_effect {addr : Byte} (h : implemented addr.toNat = true) (imm : Half) (s : State) :
    Effect (.stb addr imm) s (s.writeByte addr.toNat (loByte imm)) := by
  refine ⟨?_, fun hs => hs.writeBytes addr.toNat [loByte imm] (by simpa using h)⟩
  have bytes (a : Nat) (ha : a ≠ addr.toNat) : s.readByte a = (s.writeByte addr.toNat (loByte imm)).readByte a := by
    simp [ha]
  simpa [SameOutside, writesOf] using bytes

/-- What each command does when it raises no cause. -/
theorem exec_ends (i : Instr) (s : State) : Ends (Effect i s) s (exec i s) := by
  cases i with
  | nop => exact .responds s 0 (.refl _ s)
  | srst => exact .responds s.softReset 0 ⟨by simp [SameOutside, writesOf], .softReset⟩
  | rds sel =>
    rw [exec, execRds]
    cases regSel? sel with
    | none => exact .raises .illegalField
    | some r => exact .responds s _ (.refl _ s)
  | ckclr =>
    exact .responds (s.setStream clearStream) 0 ⟨by simp [SameOutside, writesOf], fun h => h.setStream fun _ => rfl⟩
  | ckput imm =>
    exact .finishFeed fun S hS => ⟨by simp [SameOutside, writesOf], fun h => h.setStream (feed_hold hS)⟩
  | ckrun base len =>
    exact .guard fun _ => .guard fun _ => .finishFeed fun S hS =>
      ⟨by simp [SameOutside, writesOf], fun h => h.setStream (feeds_hold h.1 hS)⟩
  | ckfin =>
    rw [exec, execCkfin]
    cases fin s.stream with
    | none => exact .raises .accOverflow
    | some c => exact .responds { s with ckr := c } _ ⟨by simp [SameOutside, writesOf], id⟩
  | stb addr imm => exact .guard fun h => .responds _ 0 (s.writeByte_effect (by simpa using h) imm)
  | ldb addr => exact .guard fun _ => .guard fun _ => .responds s _ (.refl _ s)
  | wrf sel imm =>
    rw [exec, execWrf]
    cases h : txField? sel with
    | none => exact .raises .illegalField
    | some f => exact .guard fun _ => .responds _ 0 (s.writeField_effect h imm)
  | build ident => exact .responds _ _ (s.built_sealed_effect Config.payloadInit ident)
  | sealTx => exact .responds _ _ s.sealed_effect
  | nextSeq => exact .responds _ _ s.advanced_sealed_effect
  | setrxlen n =>
    refine .guard fun h => .responds { s with rxlen := loByte n } 0 ⟨by simp [SameOutside, writesOf], ?_⟩
    rintro ⟨hold, -, rest⟩
    have hn : n.toNat ≤ 92 := not_lt.1 h
    exact ⟨hold, by rw [loByte_toNat]; omega, rest⟩
  | rdf sel =>
    rw [exec, execRdf]
    cases fieldSel? sel with
    | none => exact .raises .illegalField
    | some f => exact .guard fun _ => .responds s _ (.refl _ s)
  | classify => exact .guard fun _ => .responds s _ (.refl _ s)
  | desc => exact .guard fun _ => .responds s _ (.refl _ s)

/-- The two ways the next state of a command comes about: its state with a cause raised, or the response from a state with
the command's effect. -/
theorem exec_next {i : Instr} {s t : State} (h : exec i s = .next t) :
    (∃ c, t = s.raise c) ∨ ∃ u v, Effect i s u ∧ t = u.respond v := by
  have he := exec_ends i s
  rw [h] at he
  cases he with
  | raises c => exact .inl ⟨c, rfl⟩
  | responds u v effect => exact .inr ⟨u, v, effect, rfl⟩

/-! ### The invariant along the steps -/

/-- However a command ends, its next state meets the invariant if the state before does. -/
theorem exec_keeps_inv {i : Instr} {s t : State} (hs : s.Inv) (h : exec i s = .next t) : t.Inv := by
  obtain ⟨c, rfl⟩ | ⟨u, v, effect, rfl⟩ := exec_next h
  · exact hs.raise c
  · exact effect.inv hs

/-- Settles O14: with nothing issued the state stays, the reset input gives the reset values, a word that is no command
raises a cause, and a command keeps the invariant. -/
theorem everyStepKeepsTheInvariant : Obligations.EveryStepKeepsTheInvariant := by
  intro s t hs h
  cases hq : s.inputs with
  | nil =>
    simp only [step, answer, hq, Host.Outcome.next.injEq] at h
    exact h ▸ hs
  | cons x q =>
    cases x with
    | reset =>
      simp only [step, answer, hq, Host.Outcome.next.injEq] at h
      exact h ▸ (s.withInputs q).inv_hardReset
    | command w =>
      have hs' : (s.withInputs q).Inv := hs
      rw [step_command hq] at h
      cases hw : decode w with
      | error e =>
        rw [issueWord_error hw, Host.Outcome.next.injEq] at h
        exact h ▸ hs'.raise .illegalCommand
      | ok i =>
        rw [issueWord_ok hw] at h
        exact exec_keeps_inv hs' h

/-- Settles O15: no byte is written and every register is 0. -/
theorem resetStateMeetsTheInvariant : Obligations.ResetStateMeetsTheInvariant := by
  refine ⟨fun _ => rfl, ?_, ?_, ?_, .nil, ?_⟩ <;> simp [State.reset]

end Sys2Proof.Machine
end

section
/-! PROOFS. The frame of every command (R33, column `writes`), the bits of `ESR` (R26), the model's own fields, the state at reset (R40). -/

namespace Sys2Proof.Machine

/-! ### Causes as codes and bits (R210, R211) -/

theorem causeErr_ne_zero (c : Cause) : causeErr c ≠ 0 := by
  cases c <;> decide

/-- Raising a cause sets the bit of its code and leaves the other bits of `ESR` as they are. -/
theorem getLsbD_esrAfter (e : Byte) (c : Cause) (n : Nat) :
    (esrAfter e c).getLsbD n = (e.getLsbD n || decide (n = causeCode c)) := by
  have hc : causeCode c < 8 := by cases c <;> decide
  rw [esrAfter, causeBit, BitVec.getLsbD_or, BitVec.getLsbD_ofNat, Nat.testBit_two_pow]
  by_cases h : n = causeCode c
  · simp [h, hc]
  · simp [h, Ne.symm h]

/-- A number of one byte that is the `ERR` of a cause is the cause's code. -/
theorem causeCode_of_causeErr {c : Cause} {n : Nat} (hn : n < 256) (h : causeErr c = BitVec.ofNat 8 n) :
    causeCode c = n := by
  have hc : causeCode c < 256 := by cases c <;> decide
  have := congrArg BitVec.toNat h
  rw [causeErr, BitVec.toNat_ofNat, BitVec.toNat_ofNat] at this
  omega

/-! ### The frame -/

/-- A cause changes only `ESR` (R210). -/
theorem State.raise_frame (s : State) (c : Cause) : SameOutside { esr := true } s (s.raise c) := by
  simp [SameOutside]

/-- Settles O25: a raised cause has `ERR` above 0 and changes only `ESR`; a response has `ERR` 0 and the frame of its
command. -/
theorem frameOfEveryCommand : Obligations.FrameOfEveryCommand := by
  intro i s t h
  obtain ⟨c, rfl⟩ | ⟨u, v, effect, rfl⟩ := exec_next h
  · exact ⟨⟨causeErr c, 0⟩, rfl, fun h0 => absurd h0 (causeErr_ne_zero c), fun _ => s.raise_frame c⟩
  · exact ⟨⟨0, v⟩, rfl, fun _ => effect.frame, fun h0 => absurd rfl h0⟩

/-! ### `ESR` -/

/-- `SRST` is the only command whose row of R33 names `ESR` as written. -/
theorem writesOf_esr {i : Instr} (h : i ≠ .srst) : (writesOf i).esr = false := by
  cases i with
  | srst => exact absurd rfl h
  | _ => rfl

/-- What an issued word that is not `SRST` does to `ESR`: it raises a cause, whose bit is set, or it keeps `ESR` (R26). -/
theorem issueWord_esr {w : Word} {s t : State} (hw : decode w ≠ .ok .srst) (h : issueWord w s = .next t) :
    (∃ c, t.rsp = some ⟨causeErr c, 0⟩ ∧ t.esr = esrAfter s.esr c) ∨ (∃ v, t.rsp = some ⟨0, v⟩ ∧ t.esr = s.esr) := by
  cases hd : decode w with
  | error e =>
    rw [issueWord_error hd, Host.Outcome.next.injEq] at h
    exact .inl ⟨.illegalCommand, h ▸ rfl, h ▸ rfl⟩
  | ok i =>
    have hi : i ≠ .srst := fun h' => hw (h' ▸ hd)
    rw [issueWord_ok hd] at h
    obtain ⟨c, rfl⟩ | ⟨u, v, effect, rfl⟩ := exec_next h
    · exact .inl ⟨c, rfl, rfl⟩
    · obtain ⟨-, -, -, -, -, esr, -⟩ := effect.frame
      exact .inr ⟨v, rfl, (esr (writesOf_esr hi)).symm⟩

/-- Settles O18: an issued word but `SRST` raises one cause and sets its bit alone, or keeps `ESR`. -/
theorem esrBitsAreSticky : Obligations.EsrBitsAreSticky := by
  refine ⟨fun s t w q hq h hw => ?_, fun s => ⟨_, rfl, rfl⟩, fun s => rfl⟩
  rw [step_command hq] at h
  obtain ⟨c, hrsp, hesr⟩ | ⟨v, hrsp, hesr⟩ := issueWord_esr hw h
  · rw [hrsp, hesr]
    simp only [getLsbD_esrAfter, State.withInputs_esr]
    have hc : causeCode c ≠ 0 ∧ causeCode c ≠ 7 := by cases c <;> decide
    refine ⟨fun n hn => by simp [hn], ?_, fun n h0 h1 => ?_, fun h0 => ?_, fun h7 => ?_⟩
    · rintro n h1 h6 ⟨v, hv⟩
      simp only [Option.some.injEq, Response.mk.injEq] at hv
      simp [causeCode_of_causeErr (by omega) hv.1]
    · have hn : n = causeCode c := by simpa [h0] using h1
      rw [hn, causeErr]
    · rw [h0, Bool.false_or, decide_eq_false hc.1.symm]
    · rw [h7, Bool.false_or, decide_eq_false hc.2.symm]
  · rw [hrsp, hesr]
    refine ⟨fun n hn => hn, ?_, fun n h0 h1 => ?_, id, id⟩
    · rintro n h1 h6 ⟨v', hv⟩
      have := congrArg (BitVec.toNat ∘ Response.err) (Option.some.inj hv)
      simp only [Function.comp, BitVec.toNat_ofNat, BitVec.ofNat_eq_ofNat] at this
      omega
    · rw [State.withInputs_esr, h0] at h1
      cases h1

/-! ### The model's own fields, and the state at reset -/

/-- Settles O9: however a command ends, it leaves the queue and the reset number alone. -/
theorem commandsLeaveTheQueueAlone : Obligations.CommandsLeaveTheQueueAlone := by
  intro i s t h
  have hc := exec_completes i s
  rw [h] at hc
  cases hc with
  | raises c _ => exact ⟨rfl, rfl⟩
  | responds u v inputs resets => exact ⟨inputs, resets⟩

/-- `LDB` of a byte of `RXB` at or past `RXLEN` raises `ShortDatagram` (R164). -/
theorem exec_ldb_short {s : State} {a : Byte} (h : implemented a.toNat = true) (hr : s.received a.toNat = false) :
    exec (.ldb a) s = .next (s.raise .shortDatagram) := by
  simp [exec, execLdb, h, hr]

/-- Settles O11: `TXB` can be read at once, and no byte of `RXB` lies below `RXLEN` 0. -/
theorem resetStateIsAsTheSpecSays : Obligations.ResetStateIsAsTheSpecSays := by
  refine ⟨⟨rfl, rfl, rfl, rfl, rfl, rfl⟩, fun a => rfl, fun a ha => ?_, fun a h1 h2 => ?_⟩
  · rw [exec_after, State.after_ldb_txb _ _ ha]
    rfl
  · have short : ¬ State.reset.received a.toNat = true := by
      simp [State.received_iff, State.reset, h1, h2]
    rw [exec_ldb_short ((implemented_iff _).2 (.inr ⟨h1, h2⟩)) (Bool.not_eq_true _ ▸ short)]
    rfl

end Sys2Proof.Machine
end

section
/-! PROOFS. Two runs of one command (R29, R33, column `reads`): what no command reads, and what two states must agree on for a command to answer alike. -/

namespace Sys2Proof.Machine

/-! ### The fields no command reads -/

/-- A state with other values in the three fields that no command reads, but for `RDS` of `ESR`: `ESR` itself, the last
response and the queue (R27, R29, R38). -/
def State.withUnread (s : State) (e : Byte) (r : Option Response) (q : List HostInput) : State :=
  { s with esr := e, rsp := r, inputs := q }

section withUnread

variable (s : State) (e : Byte) (r : Option Response) (q : List HostInput)

@[simp] theorem State.readByte_withUnread (x : Nat) : (s.withUnread e r q).readByte x = s.readByte x := rfl

@[simp] theorem State.writeBytes_withUnread (a : Nat) (bs : List Byte) :
    (s.withUnread e r q).writeBytes a bs = (s.writeBytes a bs).withUnread e r q := by
  induction bs generalizing s a with
  | nil => rfl
  | cons b bs ih => exact ih (s.writeByte a b) (a + 1)

@[simp] theorem State.writeField_withUnread (f : Field) (v : Half) :
    (s.withUnread e r q).writeField f v = (s.writeField f v).withUnread e r q :=
  s.writeBytes_withUnread e r q _ _

@[simp] theorem State.readBytes_withUnread (a n : Nat) : (s.withUnread e r q).readBytes a n = s.readBytes a n :=
  State.readBytes_congr _ _ _ _ fun _ _ _ => rfl

@[simp] theorem State.sealed_withUnread : (s.withUnread e r q).sealed = s.sealed.withUnread e r q := by
  simp only [State.sealed, State.txb, State.writeField_withUnread, State.readBytes_withUnread]
  rfl

@[simp] theorem State.advanced_withUnread : (s.withUnread e r q).advanced = s.advanced.withUnread e r q := by
  simp only [State.advanced, State.readField16, State.memRead, State.writeField_withUnread, State.readBytes_withUnread]

@[simp] theorem State.built_withUnread (p : Nat → Byte) (ident : Half) :
    (s.withUnread e r q).built p ident = (s.built p ident).withUnread e r q := by
  simp only [State.built, State.writeField_withUnread, State.writeBytes_withUnread]

end withUnread

/-! ### Two runs of one command -/

/-- The states `u` and `u'` that command `i` makes of `s` and `s'`: they agree on what the row of R33 says it writes, and
where the two states differed only in the unread fields they still do, with `ESR` equal if it was. -/
structure SameEffect (i : Instr) (s s' u u' : State) : Prop where
  agree : AgreeOn (writesOf i) u u'
  unread : ∀ e r q, s' = s.withUnread e r q → ∃ e', u' = u.withUnread e' r q ∧ (e = s.esr → e' = u.esr)

/-- Two runs end alike: both raise the same cause, or both respond with the same `VAL` from states related by `R`. -/
inductive Alike (R : State → State → Prop) (s s' : State) : Result → Result → Prop where
  | raises (c : Cause) : Alike R s s' (.next (s.raise c)) (.next (s'.raise c))
  | responds (u u' : State) (v : Word) (rel : R u u') : Alike R s s' (.next (u.respond v)) (.next (u'.respond v))

namespace Alike

variable {R : State → State → Prop} {s s' : State}

/-- The same test before the rest of both runs: both raise its cause, or both go on with the test passed. -/
theorem guard {p p' : Prop} [Decidable p] [Decidable p'] {c : Cause} {r r' : Result} (test : p ↔ p')
    (rest : ¬ p → Alike R s s' r r') :
    Alike R s s' (if p then .next (s.raise c) else r) (if p' then .next (s'.raise c) else r') := by
  by_cases hp : p
  · rw [if_pos hp, if_pos (test.1 hp)]
    exact .raises c
  · rw [if_neg hp, if_neg (mt test.2 hp)]
    exact rest hp

/-- The same new stream, or the same overflow, in both runs (R110, R111). -/
theorem finishFeed {o o' : Option Stream} (same : o = o') (rel : ∀ S, R (s.setStream S) (s'.setStream S)) :
    Alike R s s' (finishFeed s o) (finishFeed s' o') := by
  subst same
  cases o with
  | none => exact .raises _
  | some S => exact .responds _ _ 0 (rel S)

end Alike

/-- An operation that keeps `ESR` and lets the unread fields pass through, in two runs. -/
theorem SameEffect.of_commutes {i : Instr} {s s' : State} (f : State → State) (agree : AgreeOn (writesOf i) (f s) (f s'))
    (commutes : ∀ e r q, f (s.withUnread e r q) = (f s).withUnread e r q) (esr : (f s).esr = s.esr) :
    SameEffect i s s' (f s) (f s') :=
  ⟨agree, fun e r q h => ⟨e, by rw [h, commutes], fun he => he.trans esr.symm⟩⟩

/-- A command that writes nothing, in two runs. -/
theorem SameEffect.refl {i : Instr} (s s' : State) (h : writesOf i = {}) : SameEffect i s s' s s' :=
  .of_commutes id (by simp [h, AgreeOn]) (fun _ _ _ => rfl) rfl

/-- The same answer, in two runs of a command that writes nothing. -/
theorem Alike.answers {i : Instr} {s s' : State} {v v' : Word} (h : writesOf i = {}) (same : v = v') :
    Alike (SameEffect i s s') s s' (.next (s.respond v)) (.next (s'.respond v')) :=
  same ▸ .responds s s' v (.refl s s' h)

/-- The stream written, in two runs of a command whose row names the three stream registers and nothing else. -/
theorem SameEffect.setStream {i : Instr} (s s' : State) (S : Stream)
    (h : writesOf i = { acc := true, hold := true, phase := true }) :
    SameEffect i s s' (s.setStream S) (s'.setStream S) :=
  .of_commutes (·.setStream S) (by simp [h, AgreeOn]) (fun _ _ _ => rfl) rfl

/-! ### The encoder's operations from two templates -/

/-- The 72 bytes of `TXB` are the same. -/
def SameTemplate (s s' : State) : Prop := ∀ a < 72, s.readByte a = s'.readByte a

/-- After the same bytes are written, an address reads the same if it is one of those written or did so before. -/
theorem State.readByte_writeBytes_congr (s s' : State) (a : Nat) (bs : List Byte) (x : Nat)
    (h : ¬ (a ≤ x ∧ x < a + bs.length) → s.readByte x = s'.readByte x) :
    (s.writeBytes a bs).readByte x = (s'.writeBytes a bs).readByte x := by
  rw [State.readByte_writeBytes, State.readByte_writeBytes]
  split_ifs with hx
  · rfl
  · exact h hx

theorem State.readByte_writeField_congr (s s' : State) (f : Field) (v : Half) (x : Nat)
    (h : ¬ (fieldAddr f ≤ x ∧ x < fieldAddr f + f.bytes) → s.readByte x = s'.readByte x) :
    (s.writeField f v).readByte x = (s'.writeField f v).readByte x :=
  State.readByte_writeBytes_congr _ _ _ _ _ (by simpa using h)

namespace SameTemplate

variable {s s' : State}

theorem writeField (h : SameTemplate s s') (f : Field) (v : Half) : SameTemplate (s.writeField f v) (s'.writeField f v) :=
  fun a ha => State.readByte_writeField_congr _ _ _ _ _ fun _ => h a ha

theorem txb (h : SameTemplate s s') : s.txb = s'.txb :=
  State.readBytes_congr _ _ _ _ fun x _ hx => h x (by simpa using hx)

/-- Everything `SEAL` leaves in the checksum unit is computed from the template (R123). -/
theorem sealed_registers (h : SameTemplate s s') :
    s.sealed.acc = s'.sealed.acc ∧ s.sealed.ckr = s'.sealed.ckr := by
  simp only [State.sealed, (h.writeField (fieldOf .tCksum) 0).txb, and_self]

theorem sealed (h : SameTemplate s s') : SameTemplate s.sealed s'.sealed := by
  intro a ha
  rw [State.readByte_sealed, State.readByte_sealed, h.sealed_registers.2]
  exact (h.writeField _ _).writeField _ _ a ha

theorem readField16_tSeq (h : SameTemplate s s') : s.readField16 .tSeq = s'.readField16 .tSeq := by
  rw [State.readField16, State.readField16, State.memRead, State.memRead, State.readBytes_congr s s']
  exact fun x _ hx => h x (Nat.lt_trans hx (by decide))

theorem advanced (h : SameTemplate s s') : SameTemplate s.advanced s'.advanced := by
  rw [State.advanced, State.advanced, h.readField16_tSeq]
  exact h.writeField _ _

/-- `BUILD` writes the whole template, whatever stood there (R122). -/
theorem built (s s' : State) (p : Nat → Byte) (ident : Half) : SameTemplate (s.built p ident) (s'.built p ident) := by
  intro a ha
  refine State.readByte_writeBytes_congr _ _ _ _ _ fun hpayload => ?_
  refine State.readByte_writeField_congr _ _ _ _ _ fun (hseq : ¬ (6 ≤ a ∧ a < 8)) => ?_
  refine State.readByte_writeField_congr _ _ _ _ _ fun (hident : ¬ (4 ≤ a ∧ a < 6)) => ?_
  refine State.readByte_writeField_congr _ _ _ _ _ fun (hcksum : ¬ (2 ≤ a ∧ a < 4)) => ?_
  refine State.readByte_writeField_congr _ _ _ _ _ fun (hcode : ¬ (1 ≤ a ∧ a < 2)) => ?_
  refine State.readByte_writeField_congr _ _ _ _ _ fun (htype : ¬ (0 ≤ a ∧ a < 1)) => ?_
  simp only [List.length_map, List.length_range, Config.payloadLen, Config.echoHdrLen] at hpayload
  omega

/-- Sealing the same template gives the same checksum unit and the same template. -/
theorem agreeOn_sealed {p : Footprint} (h : SameTemplate s s') (rxlen : p.rxlen = false) (esr : p.esr = false)
    (bytes : ∀ a, p.byte a = true → a < 72) : AgreeOn p s.sealed s'.sealed := by
  obtain ⟨acc, ckr⟩ := h.sealed_registers
  exact ⟨fun _ => acc, fun _ => rfl, fun _ => rfl, fun _ => ckr, by simp [rxlen], by simp [esr],
    fun a ha => h.sealed a (bytes a ha)⟩

end SameTemplate

/-- `BUILD`, `SEAL` and `NEXT`, in two runs: an operation `f` that leaves the same template in both, and the seal. -/
theorem SameEffect.sealed {i : Instr} {s s' : State} (f : State → State) (h : SameTemplate (f s) (f s'))
    (commutes : ∀ e r q, f (s.withUnread e r q) = (f s).withUnread e r q) (fesr : (f s).esr = s.esr)
    (rxlen : (writesOf i).rxlen = false) (esr : (writesOf i).esr = false)
    (bytes : ∀ a, (writesOf i).byte a = true → a < 72) : SameEffect i s s' (f s).sealed (f s').sealed :=
  .of_commutes (fun u => (f u).sealed) (h.agreeOn_sealed rxlen esr bytes) (by simp [commutes]) (by simp [fesr])

/-! ### What a command reads (R33) -/

theorem State.received_congr {s s' : State} (h : s.rxlen = s'.rxlen) (a : Nat) : s.received a = s'.received a := by
  rw [State.received, State.received, h]

theorem State.allReceived_congr {s s' : State} (h : s.rxlen = s'.rxlen) (a n : Nat) :
    s.allReceived a n = s'.allReceived a n := by
  rw [Bool.eq_iff_iff, State.allReceived_iff, State.allReceived_iff]
  simp only [State.received_congr h]

theorem State.hasTypeCode_congr {s s' : State} (h : s.rxlen = s'.rxlen) : s.hasTypeCode = s'.hasTypeCode := by
  rw [State.hasTypeCode, State.hasTypeCode, h]

/-- `RDS` returns the register its selector names and reads no other (R162). -/
theorem State.readReg_congr {s s' : State} {r : RegSel} (h : AgreeOn (regFootprint (some r)) s s') :
    s.readReg r = s'.readReg r := by
  obtain ⟨acc, hold, phase, ckr, rxlen, esr, -⟩ := h
  cases r with
  | esr => simp only [State.readReg, esr rfl]
  | ckr => simp only [State.readReg, ckr rfl]
  | acc => exact acc rfl
  | ckst => simp only [State.readReg, hold rfl, phase rfl]
  | rxlen => simp only [State.readReg, rxlen rfl]

/-- A command answers alike in two states that agree on what its row of R33 says it reads. -/
theorem exec_alike {i : Instr} {s s' : State} (h : AgreeOn (readsOf i) s s') :
    Alike (SameEffect i s s') s s' (exec i s) (exec i s') := by
  obtain ⟨acc, hold, phase, -, rxlen, -, bytes⟩ := id h
  have stream (ha : (readsOf i).acc = true) (hh : (readsOf i).hold = true) (hp : (readsOf i).phase = true) :
      s.stream = s'.stream := by
    simp only [State.stream, acc ha, hold hh, phase hp]
  cases i with
  | nop => exact .answers rfl rfl
  | srst =>
    exact .responds _ _ 0 ⟨by simp [AgreeOn, writesOf], fun e r q hs => ⟨0, by rw [hs]; rfl, fun _ => rfl⟩⟩
  | rds sel =>
    simp only [exec, execRds]
    cases hr : regSel? sel with
    | none => exact .raises .illegalField
    | some r =>
      simp only [readsOf, hr] at h
      exact .answers rfl (State.readReg_congr h)
  | ckclr => exact .responds _ _ 0 (.setStream s s' clearStream rfl)
  | ckput imm => exact .finishFeed (by rw [stream rfl rfl rfl]) fun S => .setStream s s' S rfl
  | ckrun base len =>
    refine .guard Iff.rfl fun _ => .guard (by rw [State.allReceived_congr (rxlen rfl)]) fun _ => .finishFeed ?_ fun S =>
      .setStream s s' S rfl
    rw [stream rfl rfl rfl, State.readBytes_congr s s' _ _ fun x h1 h2 => bytes x (by simp [readsOf, h1, h2])]
  | ckfin =>
    simp only [exec, execCkfin]
    rw [← stream rfl rfl rfl]
    cases fin s.stream with
    | none => exact .raises .accOverflow
    | some c =>
      exact .responds _ _ _
        (.of_commutes (fun u => { u with ckr := c }) (by simp [AgreeOn, writesOf]) (fun _ _ _ => rfl) rfl)
  | stb addr imm =>
    exact .guard Iff.rfl fun _ => .responds _ _ 0
      (.of_commutes (·.writeByte addr.toNat (loByte imm)) (by simp [AgreeOn, writesOf]) (fun _ _ _ => rfl) rfl)
  | ldb addr =>
    exact .guard Iff.rfl fun _ => .guard (by rw [State.received_congr (rxlen rfl)]) fun _ =>
      .answers rfl (by rw [bytes addr.toNat (by simp [readsOf])])
  | wrf sel imm =>
    simp only [exec, execWrf]
    cases hf : txField? sel with
    | none => exact .raises .illegalField
    | some f =>
      refine .guard Iff.rfl fun _ => .responds _ _ 0 (.of_commutes (·.writeField f imm) ?_ (by simp) (by simp))
      have written (x : Nat) (h1 : fieldAddr f ≤ x) (h2 : x < fieldAddr f + f.bytes) :=
        State.readByte_writeField_congr s s' f imm x fun hx => absurd ⟨h1, h2⟩ hx
      simpa [AgreeOn, writesOf, fieldBytes, hf] using written
  | build ident =>
    have same := SameTemplate.built s s' Config.payloadInit ident
    simp only [exec, execBuild]
    rw [← same.sealed_registers.2]
    exact .responds _ _ _
      (.sealed (State.built Config.payloadInit ident) same (by simp) (by simp) rfl rfl (by simp [writesOf]))
  | sealTx =>
    have same : SameTemplate s s' := fun a ha => bytes a (by simp [readsOf, ha])
    simp only [exec, execSeal]
    rw [← same.sealed_registers.2]
    exact .responds _ _ _ (.sealed id same (fun _ _ _ => rfl) rfl rfl rfl (by simp [writesOf]))
  | nextSeq =>
    have same : SameTemplate s s' := fun a ha => bytes a (by simp [readsOf, ha])
    simp only [exec, execNext]
    rw [← same.advanced.sealed_registers.2, ← same.advanced.readField16_tSeq]
    exact .responds _ _ _ (.sealed State.advanced same.advanced (by simp) (by simp) rfl rfl (by simp [writesOf]))
  | setrxlen n =>
    exact .guard Iff.rfl fun _ => .responds _ _ 0
      (.of_commutes (fun u => { u with rxlen := loByte n }) (by simp [AgreeOn, writesOf]) (fun _ _ _ => rfl) rfl)
  | rdf sel =>
    simp only [exec, execRdf]
    cases hf : fieldSel? sel with
    | none => exact .raises .illegalField
    | some f =>
      refine .guard (by rw [State.fieldShort, State.fieldShort, rxlen rfl]) fun _ => .answers rfl ?_
      rw [State.memRead, State.memRead,
        State.readBytes_congr s s' _ _ fun x h1 h2 => bytes x (by simp [readsOf, hf, fieldBytes, h1, h2])]
  | classify =>
    have type : s.rxByte 20 = s'.rxByte 20 := bytes 0x94 rfl
    have code : s.rxByte 21 = s'.rxByte 21 := bytes 0x95 rfl
    exact .guard (by rw [State.hasTypeCode_congr (rxlen rfl)]) fun _ => .answers rfl (by rw [type, code])
  | desc =>
    have type : s.rxByte 20 = s'.rxByte 20 := bytes 0x94 rfl
    have code : s.rxByte 21 = s'.rxByte 21 := bytes 0x95 rfl
    exact .guard (by rw [State.hasTypeCode_congr (rxlen rfl)]) fun _ => .answers rfl (by rw [type, code])

/-! ### The obligations -/

/-- Settles O26: both runs raise one cause, or respond alike from states that agree on what the command writes. -/
theorem commandsDependOnlyOnWhatTheyRead : Obligations.CommandsDependOnlyOnWhatTheyRead := by
  intro i s s' t t' h ht ht'
  have ha := exec_alike h
  rw [ht, ht'] at ha
  cases ha with
  | raises c =>
    refine ⟨rfl, ?_⟩
    rintro ⟨v, hv⟩
    exact absurd (congrArg Response.err (Option.some.inj hv)) (causeErr_ne_zero c)
  | responds u u' v effect => exact ⟨rfl, fun _ => effect.agree⟩

theorem eq_zero_of_regSel?_esr {sel : Byte} (h : regSel? sel = some .esr) : sel = 0x00 := by
  unfold regSel? at h
  split at h
  · exact BitVec.eq_of_toNat_eq ‹_›
  all_goals cases h

/-- `ESR` is read by `RDS` with its selector and by no other command (R33). -/
theorem eq_rds_esr_of_readsOf {i : Instr} (h : (readsOf i).esr = true) : i = .rds 0x00 := by
  cases i with
  | rds sel =>
    cases hr : regSel? sel with
    | none => simp [readsOf, hr, regFootprint] at h
    | some r =>
      cases r with
      | esr => rw [eq_zero_of_regSel?_esr hr]
      | _ => simp [readsOf, hr, regFootprint] at h
  | _ => simp [readsOf] at h

/-- Two states that differ only in the unread fields answer a command alike, if the command is not the one that reads
`ESR` or `ESR` is the same. -/
theorem exec_withUnread {i : Instr} {s t : State} (e : Byte) (r : Option Response) (q : List HostInput)
    (he : i = .rds 0x00 → e = s.esr) (h : exec i s = .next t) :
    ∃ e', exec i (s.withUnread e r q) = .next { t with esr := e', inputs := q } ∧ (e = s.esr → e' = t.esr) := by
  have agree : AgreeOn (readsOf i) s (s.withUnread e r q) :=
    ⟨fun _ => rfl, fun _ => rfl, fun _ => rfl, fun _ => rfl, fun _ => rfl,
      fun hr => (he (eq_rds_esr_of_readsOf hr)).symm, fun _ _ => rfl⟩
  obtain ⟨t', ht'⟩ := exec_answers i (s.withUnread e r q)
  have ha := exec_alike agree
  rw [h, ht'] at ha
  rw [ht']
  cases ha with
  | raises c => exact ⟨esrAfter e c, rfl, fun hes => hes ▸ rfl⟩
  | responds u u' v effect =>
    obtain ⟨e', rfl, hesr⟩ := effect.unread e r q rfl
    exact ⟨e', rfl, hesr⟩

/-- Settles O10: the last response and the queue are unread fields, and `ESR` is the same. -/
theorem lastResponseIsNotRead : Obligations.LastResponseIsNotRead := by
  intro i s t r q h
  obtain ⟨e', he, hesr⟩ := exec_withUnread s.esr r q (fun _ => rfl) h
  rw [hesr rfl] at he
  exact he

/-- Settles O19: `ESR` is an unread field of every command but `RDS` with its selector. -/
theorem esrAffectsNoOtherCommand : Obligations.EsrAffectsNoOtherCommand := by
  intro i s t e hi h
  obtain ⟨e', he, -⟩ := exec_withUnread e s.rsp s.inputs (fun h' => absurd h' hi) h
  refine ⟨e', he.trans ?_⟩
  rw [← (commandsLeaveTheQueueAlone i s t h).1]

end Sys2Proof.Machine
end

section
/-! PROOFS. Writes of bytes and of fields, one after the other (R14, R121): which of them commute, and which are lost. -/

namespace Sys2Proof.Machine

@[simp] theorem State.writeByte_writeByte (s : State) (a : Nat) (b c : Byte) :
    (s.writeByte a b).writeByte a c = s.writeByte a c := by
  simp [State.writeByte]

theorem State.writeByte_comm (s : State) {a a' : Nat} (h : a ≠ a') (b b' : Byte) :
    (s.writeByte a b).writeByte a' b' = (s.writeByte a' b').writeByte a b := by
  simp [State.writeByte, Memory.set_comm _ h]

/-- A write of one byte is lost under a later write of a range that holds its address. -/
theorem State.writeBytes_writeByte (s : State) (a : Nat) (bs : List Byte) (x : Nat) (c : Byte) (h1 : a ≤ x)
    (h2 : x < a + bs.length) : (s.writeByte x c).writeBytes a bs = s.writeBytes a bs := by
  induction bs generalizing s a with
  | nil => simp at h2; omega
  | cons b bs ih =>
    rw [List.length_cons] at h2
    rcases h1.eq_or_lt with rfl | hlt
    · simp [State.writeBytes]
    · rw [State.writeBytes, State.writeByte_comm _ hlt.ne', ih _ _ (by omega) (by omega), State.writeBytes]

/-- A write of a range is lost under a later write of a range that holds it. -/
theorem State.writeBytes_writeBytes (s : State) (a : Nat) (bs : List Byte) (a' : Nat) (bs' : List Byte) (h1 : a ≤ a')
    (h2 : a' + bs'.length ≤ a + bs.length) : (s.writeBytes a' bs').writeBytes a bs = s.writeBytes a bs := by
  induction bs' generalizing s a' with
  | nil => rfl
  | cons b bs' ih =>
    rw [List.length_cons] at h2
    rw [State.writeBytes, ih _ _ (by omega) (by omega), State.writeBytes_writeByte _ _ _ _ _ h1 (by omega)]

theorem State.writeBytes_append (s : State) (a : Nat) (bs bs' : List Byte) :
    s.writeBytes a (bs ++ bs') = (s.writeBytes a bs).writeBytes (a + bs.length) bs' := by
  induction bs generalizing s a with
  | nil => rfl
  | cons b bs ih => rw [List.cons_append, State.writeBytes, ih, List.length_cons, Nat.add_right_comm, Nat.add_assoc]; rfl

/-- The same field written twice holds the second value (R121). -/
@[simp] theorem State.writeField_writeField (s : State) (f : Field) (v w : Half) :
    (s.writeField f v).writeField f w = s.writeField f w :=
  s.writeBytes_writeBytes _ _ _ _ le_rfl (by simp)

end Sys2Proof.Machine
end

section
/-! PROOFS. Reads without a side effect and idempotent writes (R60). -/

namespace Sys2Proof.Machine

/-! ### The checksum unit overwritten (R123) -/

/-- A state with other values in the checksum unit, which `SEAL` overwrites (R123). -/
def State.withUnit (s : State) (acc : Word) (hold : Byte) (phase : Bool) (ckr : Half) : State :=
  { s with acc := acc, hold := hold, phase := phase, ckr := ckr }

section withUnit

variable (s : State) (acc : Word) (hold : Byte) (phase : Bool) (ckr : Half)

theorem State.writeBytes_withUnit (a : Nat) (bs : List Byte) :
    (s.withUnit acc hold phase ckr).writeBytes a bs = (s.writeBytes a bs).withUnit acc hold phase ckr := by
  induction bs generalizing s a with
  | nil => rfl
  | cons b bs ih => exact ih (s.writeByte a b) (a + 1)

theorem State.writeField_withUnit (f : Field) (v : Half) :
    (s.withUnit acc hold phase ckr).writeField f v = (s.writeField f v).withUnit acc hold phase ckr :=
  s.writeBytes_withUnit acc hold phase ckr _ _

theorem State.txb_withUnit : (s.withUnit acc hold phase ckr).txb = s.txb :=
  State.readBytes_congr _ _ _ _ fun _ _ _ => rfl

/-- Sealing does not depend on what the checksum unit held. -/
theorem State.sealed_withUnit : (s.withUnit acc hold phase ckr).sealed = s.sealed := by
  simp only [State.sealed, State.writeField_withUnit, State.txb_withUnit]
  rfl

theorem State.built_withUnit (payload : Nat → Byte) (ident : Half) :
    (s.withUnit acc hold phase ckr).built payload ident = (s.built payload ident).withUnit acc hold phase ckr := by
  simp only [State.built, State.writeField_withUnit, State.writeBytes_withUnit]

end withUnit

/-- Sealing zeroes and writes the checksum field, and overwrites the checksum unit (R123). -/
theorem State.sealed_eq (s : State) :
    s.sealed = ((s.writeField (fieldOf .tCksum) 0).writeField (fieldOf .tCksum) s.sealed.ckr).withUnit s.sealed.acc 0 false
      s.sealed.ckr := rfl

/-! ### The encoder's operations done twice (R122, R123) -/

/-- Sealing does not depend on what the checksum field held. -/
theorem State.sealed_writeField_tCksum (s : State) (v : Half) : (s.writeField (fieldOf .tCksum) v).sealed = s.sealed := by
  simp only [State.sealed, State.writeField_writeField]

/-- A sealed template sealed again is the same. -/
theorem State.sealed_sealed (s : State) : s.sealed.sealed = s.sealed := by
  rw [s.sealed_eq, State.sealed_withUnit, State.sealed_writeField_tCksum, State.sealed_writeField_tCksum, ← s.sealed_eq]

/-- The 72 bytes that `BUILD` writes before it seals (R122). -/
def templateBytes (payload : Nat → Byte) (ident : Half) : List Byte :=
  beBytes 1 ((Config.echoRequest.setWidth 16).setWidth 32) ++ beBytes 1 0 ++ beBytes 2 0 ++
    beBytes 2 (ident.setWidth 32) ++ beBytes 2 (Config.seqFirst.setWidth 32) ++ (List.range Config.payloadLen).map payload

@[simp] theorem length_templateBytes (payload : Nat → Byte) (ident : Half) :
    (templateBytes payload ident).length = 72 := by
  simp [templateBytes]

/-- The fields of the template and its payload lie one behind the other from address 0 (R78, R122). -/
theorem State.built_eq_writeBytes (payload : Nat → Byte) (ident : Half) (s : State) :
    s.built payload ident = s.writeBytes 0 (templateBytes payload ident) := by
  simp only [templateBytes, State.writeBytes_append, List.length_append, length_beBytes]
  rfl

/-- Building does not depend on what a range inside the template held. -/
theorem State.built_writeBytes (payload : Nat → Byte) (ident : Half) (s : State) (a : Nat) (bs : List Byte)
    (h : a + bs.length ≤ 72) : (s.writeBytes a bs).built payload ident = s.built payload ident := by
  rw [State.built_eq_writeBytes, State.built_eq_writeBytes, State.writeBytes_writeBytes _ _ _ _ _ (Nat.zero_le a) (by simpa)]

/-- A template built and sealed, then built again, is the template built, but for the checksum unit. -/
theorem State.built_sealed_built (payload : Nat → Byte) (ident : Half) (s : State) :
    ((s.built payload ident).sealed.built payload ident).sealed = (s.built payload ident).sealed := by
  have field (u : State) (v : Half) :
      (u.writeField (fieldOf .tCksum) v).built payload ident = u.built payload ident :=
    u.built_writeBytes payload ident _ _ (by rw [length_beBytes]; decide)
  have again : (s.built payload ident).built payload ident = s.built payload ident := by
    rw [s.built_eq_writeBytes, State.built_writeBytes _ _ _ _ _ (by simp), s.built_eq_writeBytes]
  rw [(s.built payload ident).sealed_eq, State.built_withUnit, State.sealed_withUnit, field, field, again, ← State.sealed_eq]

/-! ### Commands that only read -/

/-- The five reads of R60. -/
abbrev IsRead (i : Instr) : Prop := (∃ a, i = .ldb a ∨ i = .rdf a ∨ i = .rds a) ∨ i = .classify ∨ i = .desc

/-- A read that raises no cause responds from the state it began in. -/
theorem IsRead.ends {i : Instr} (h : IsRead i) (s : State) : Ends (· = s) s (exec i s) := by
  obtain ⟨a, rfl | rfl | rfl⟩ | rfl | rfl := h
  · exact .guard fun _ => .guard fun _ => .responds s _ rfl
  · rw [exec, execRdf]
    cases fieldSel? a with
    | none => exact .raises .illegalField
    | some f => exact .guard fun _ => .responds s _ rfl
  · rw [exec, execRds]
    cases regSel? a with
    | none => exact .raises .illegalField
    | some r => exact .responds s _ rfl
  · exact .guard fun _ => .responds s _ rfl
  · exact .guard fun _ => .responds s _ rfl

/-- `ERR` is not 0 after a cause is raised (R210). -/
theorem State.raise_rsp_ne (s : State) (c : Cause) (v : Word) : (s.raise c).rsp ≠ some ⟨0, v⟩ :=
  fun h => causeErr_ne_zero c (congrArg Response.err (Option.some.inj h))

/-- A read that does not fault changes the response alone, and answers the same when repeated (R27, R60). -/
theorem IsRead.repeats {i : Instr} (hi : IsRead i) {s t : State} {v : Word} (h : exec i s = .next t)
    (hrsp : t.rsp = some ⟨0, v⟩) : t = s.respond v ∧ exec i t = .next t := by
  have he := hi.ends s
  rw [h] at he
  cases he with
  | raises c => exact absurd hrsp (s.raise_rsp_ne c v)
  | responds u w hu =>
    subst hu
    cases hrsp
    exact ⟨rfl, lastResponseIsNotRead i u _ (some ⟨0, v⟩) u.inputs h⟩

/-- `CKFIN` that does not fault changes `CKR` alone, and answers the same when repeated (R60, R112). -/
theorem exec_ckfin_repeats {s t : State} {v : Word} (h : exec .ckfin s = .next t) (hrsp : t.rsp = some ⟨0, v⟩) :
    t = { s with ckr := t.ckr, rsp := some ⟨0, v⟩ } ∧ exec .ckfin t = .next t := by
  rw [exec, execCkfin] at h
  cases hf : fin s.stream with
  | none =>
    rw [hf, Host.Outcome.next.injEq] at h
    exact absurd (h ▸ hrsp) (s.raise_rsp_ne _ v)
  | some c =>
    rw [hf, Host.Outcome.next.injEq] at h
    subst h
    cases hrsp
    have stream : fin (({ s with ckr := c } : State).respond (c.setWidth 32)).stream = some c := hf
    exact ⟨rfl, by rw [exec, execCkfin, stream]; rfl⟩

/-! ### Writes that are idempotent -/

/-- A cause raised again changes nothing: its bit of `ESR` is set already (R210). -/
theorem State.raise_raise (s : State) (c : Cause) : (s.raise c).raise c = s.raise c := by
  simp [State.raise, esrAfter, BitVec.or_assoc]

/-- The command repeated leaves the state it left the first time (R60). -/
def Idempotent (i : Instr) : Prop := ∀ s t, exec i s = .next t → exec i t = .next t

/-- A command that raises the same cause in every state is idempotent. -/
theorem Idempotent.of_raise {i : Instr} (c : Cause) (h : ∀ s, exec i s = .next (s.raise c)) : Idempotent i := by
  intro s t ht
  rw [h, Host.Outcome.next.injEq] at ht
  rw [← ht, h, s.raise_raise]

/-- A command that in every state does the operation `f` and answers from its result is idempotent if `f` is: the response
in between is not read (R27). -/
theorem Idempotent.of_operation {i : Instr} (f : State → State) (answer : State → Word) (hf : ∀ s, f (f s) = f s)
    (h : ∀ s, exec i s = .next ((f s).respond (answer (f s)))) : Idempotent i := by
  intro s t ht
  have again : exec i (f s) = .next t := by rw [← ht, h (f s), h s, hf]
  rw [h, Host.Outcome.next.injEq] at ht
  subst ht
  exact lastResponseIsNotRead i (f s) _ (some ⟨0, answer (f s)⟩) (f s).inputs again

theorem idempotent_stb (a : Byte) (v : Half) : Idempotent (.stb a v) := by
  cases ha : implemented a.toNat with
  | false => exact .of_raise .addressRange fun s => by simp [exec, execStb, ha]
  | true =>
    exact .of_operation (·.writeByte a.toNat (loByte v)) (fun _ => 0) (fun s => s.writeByte_writeByte _ _ _) fun s => by
      simp [exec, execStb, ha]

theorem idempotent_wrf (sel : Byte) (v : Half) : Idempotent (.wrf sel v) := by
  cases hf : txField? sel with
  | none => exact .of_raise .illegalField fun s => by simp only [exec, execWrf, hf]
  | some f =>
    by_cases hv : f.bytes = 1 ∧ hiByte v ≠ 0
    · exact .of_raise .illegalCommand fun s => by simp only [exec, execWrf, hf, if_pos hv]
    · exact .of_operation (·.writeField f v) (fun _ => 0) (fun s => s.writeField_writeField f v v) fun s => by
        simp only [exec, execWrf, hf, if_neg hv]

theorem idempotent_setrxlen (n : Half) : Idempotent (.setrxlen n) := by
  by_cases hn : Config.rxCap < n.toNat
  · exact .of_raise .lengthRange fun s => by simp only [exec, execSetrxlen, if_pos hn]
  · exact .of_operation (fun s => { s with rxlen := loByte n }) (fun _ => 0) (fun _ => rfl) fun s => by
      simp only [exec, execSetrxlen, if_neg hn]

theorem idempotent_build (ident : Half) : Idempotent (.build ident) :=
  .of_operation (fun s => (s.built Config.payloadInit ident).sealed) (fun t => t.ckr.setWidth 32)
    (fun s => s.built_sealed_built Config.payloadInit ident) fun _ => rfl

theorem idempotent_sealTx : Idempotent .sealTx :=
  .of_operation State.sealed (fun t => t.ckr.setWidth 32) State.sealed_sealed fun _ => rfl

theorem idempotent_ckclr : Idempotent .ckclr :=
  .of_operation (·.setStream clearStream) (fun _ => 0) (fun _ => rfl) fun _ => rfl

/-! ### The obligation -/

/-- Settles O27: reads respond from the state they began in; the idempotent writes test their operands alone and do an
idempotent operation; `CKPUT`, `CKRUN` and `NEXT` repeated from a zeroed template show another `PHASE` and another sequence
number. -/
theorem readsAndIdempotentWrites : Obligations.ReadsAndIdempotentWrites := by
  refine ⟨fun i s t v hi h hrsp => IsRead.repeats hi h hrsp, fun s t v h hrsp => exec_ckfin_repeats h hrsp, ?_, ?_, ?_, ?_⟩
  · rintro i s t (⟨a, v, rfl | rfl | rfl | rfl⟩ | rfl | rfl)
    · exact idempotent_stb a v s t
    · exact idempotent_wrf a v s t
    · exact idempotent_setrxlen v s t
    · exact idempotent_build v s t
    · exact idempotent_ckclr s t
    · exact idempotent_sealTx s t
  · exact ⟨State.reset, _, _, rfl, rfl, by decide⟩
  · exact ⟨State.reset.writeBytes 0 (List.replicate 72 0), _, _, rfl, rfl, by decide⟩
  · exact ⟨State.reset.writeBytes 0 (List.replicate 72 0), _, _, rfl, rfl, by decide⟩

end Sys2Proof.Machine
end

section
/-! PROOFS. Bytes and two-byte fields of `BUF` read back (R52, R55, R62): `STB`, `LDB`, `WRF` and `RDF` as reads and writes of
bytes. -/

namespace Sys2Proof.Machine

/-! ### The bytes of a 16-bit value (R12, R52) -/

theorem loByte_setWidth (b : Byte) : loByte (b.setWidth 16) = b := by
  apply BitVec.eq_of_toNat_eq
  rw [loByte_toNat, BitVec.toNat_setWidth]
  omega

theorem loByte_setWidth_word (v : Half) : (loByte v).setWidth 32 = BitVec.ofNat 32 (v.toNat % 256) := by
  rw [← loByte_toNat, BitVec.ofNat_toNat]

theorem hiByte_setWidth_word (v : Half) : (hiByte v).setWidth 32 = BitVec.ofNat 32 (v.toNat / 256) := by
  rw [← hiByte_toNat, BitVec.ofNat_toNat]

/-- The two bytes of a 16-bit value, most significant first (R14). -/
theorem beBytes_two (v : Half) : beBytes 2 (v.setWidth 32) = [hiByte v, loByte v] := by
  have hi : (v.setWidth 32).extractLsb' 8 8 = hiByte v := by ext i hi; simp [hiByte]; omega
  have lo : (v.setWidth 32).extractLsb' 0 8 = loByte v := by ext i hi; simp [loByte]; omega
  simp only [beBytes, hi, lo]

/-- Two bytes read as one value, first byte most significant (R14). -/
theorem State.memRead_two (s : State) (a : Nat) :
    s.memRead a 2 = BitVec.ofNat 32 ((s.readByte a).toNat * 256 + (s.readByte (a + 1)).toNat) := by
  simp [State.memRead, State.readBytes, beNat]

/-! ### The commands as reads and writes of bytes -/

/-- `STB` of an implemented address writes its byte (R163). -/
theorem State.after_stb (s : State) {a : Byte} (v : Half) (h : implemented a.toNat = true) :
    s.after (.stb a v) = (s.writeByte a.toNat (loByte v)).respond 0 := by
  simp [State.after, exec, execStb, h]

/-- `STB` of any other address raises `AddressRange` (R163). -/
theorem State.after_stb_hole (s : State) {a : Byte} (v : Half) (h : implemented a.toNat = false) :
    s.after (.stb a v) = s.raise .addressRange := by
  simp [State.after, exec, execStb, h]

/-- `LDB` of an implemented address, received if it lies in `RXB`, returns the byte (R164). -/
theorem State.after_ldb (s : State) {a : Byte} (h : implemented a.toNat = true) (hr : s.received a.toNat = true) :
    s.after (.ldb a) = s.respond ((s.readByte a.toNat).setWidth 32) := by
  simp [State.after, exec, execLdb, h, hr]

/-- `WRF` of a two-byte field writes the high byte and behind it the low byte (R52, R121). -/
theorem State.after_wrf_half (s : State) {sel : Byte} {f : Field} (v : Half) (hf : txField? sel = some f)
    (two : f.bytes = 2) :
    s.after (.wrf sel v) = ((s.writeByte (fieldAddr f) (hiByte v)).writeByte (fieldAddr f + 1) (loByte v)).respond 0 := by
  simp [State.after, exec, execWrf, hf, State.writeField, State.memWrite, two, beBytes_two, State.writeBytes]

/-- `RDF` of a whole two-byte field that is not short returns its first byte times 256 plus its second (R52, R142). -/
theorem State.after_rdf_half (s : State) {sel : Byte} {f : Field} (hf : (fieldSel? sel).map fieldOf = some f)
    (two : f.bytes = 2) (whole : f.slice = none) (long : s.fieldShort f = false) :
    s.after (.rdf sel) = s.respond
      (BitVec.ofNat 32 ((s.readByte (fieldAddr f)).toNat * 256 + (s.readByte (fieldAddr f + 1)).toNat)) := by
  obtain ⟨g, hg, rfl⟩ := Option.map_eq_some_iff.1 hf
  simp [State.after, exec, execRdf, hg, long, whole, takeSlice, two, State.memRead_two]

/-! ### A byte through commands that do not write it (R62) -/

/-- However a command ends, a byte that its row of R33 does not name as written is as before. -/
theorem exec_keeps_byte {i : Instr} {s t : State} {x : Nat} (hi : (writesOf i).byte x = false) (h : exec i s = .next t) :
    t.readByte x = s.readByte x := by
  obtain ⟨c, rfl⟩ | ⟨u, v, effect, rfl⟩ := exec_next h
  · rfl
  · obtain ⟨-, -, -, -, -, -, bytes⟩ := effect.frame
    exact (bytes x hi).symm

theorem State.readByte_afterAll (s : State) (is : List Instr) (x : Nat) (h : ∀ i ∈ is, (writesOf i).byte x = false) :
    (s.afterAll is).readByte x = s.readByte x := by
  induction is generalizing s with
  | nil => rfl
  | cons i is ih =>
    rw [State.afterAll_cons, ih _ fun j hj => h j (List.mem_cons_of_mem _ hj),
      exec_keeps_byte (h i List.mem_cons_self) (exec_after i s)]

/-- Settles O28: the store writes the byte, the commands behind it keep it, and the load returns it. -/
theorem loadReturnsTheLastStore : Obligations.LoadReturnsTheLastStore := by
  intro s t u a b is hstb hrsp his hu hr
  rw [exec_after, Host.Outcome.next.injEq] at hstb
  rw [execAll_afterAll, Host.Outcome.next.injEq] at hu
  cases ha : implemented a.toNat with
  | false =>
    rw [s.after_stb_hole b ha] at hstb
    rw [← hstb] at hrsp
    exact absurd (congrArg Response.err (Option.some.inj hrsp)) (causeErr_ne_zero _)
  | true =>
    have stored : u.readByte a.toNat = loByte b := by
      rw [← hu, t.readByte_afterAll is _ his, ← hstb, s.after_stb b ha]
      simp
    rw [exec_after, u.after_ldb ha hr, stored, loByte_setWidth_word]
    rfl

/-! ### Two-byte fields (R52, R55) -/

/-- The three 16-bit fields of the template, by selector and address (R78). -/
theorem txb_half_fields : ∀ f ∈ [((0x02 : Byte), (0x02 : Byte)), (0x03, 0x04), (0x04, 0x06)],
    txField? f.1 = some ⟨.txb, f.2.toNat, 2, none⟩ ∧ (fieldSel? f.1).map fieldOf = some ⟨.txb, f.2.toNat, 2, none⟩ ∧
      f.2.toNat ≤ 6 ∧ (f.2 + 1).toNat = f.2.toNat + 1 := by
  simp [txField?, fieldSel?, fieldOf]

/-- The whole 16-bit fields of `RXB` in the table of R78: their place in the machine's own table, the length they need, and
that both bytes lie in the RX window. -/
theorem rxb_half_fields : ∀ r ∈ fieldRows, 0x80 ≤ r.addr → r.bytes = 2 → r.bits = 16 →
    (fieldSel? r.sel).map fieldOf = some ⟨.rxb, r.addr - 0x80, 2, none⟩ ∧ r.need = r.addr - 0x80 + 2 ∧ r.addr ≤ 0xDA := by
  decide

/-- Settles O53: `WRF` writes the two bytes of its value in order, and `RDF` reads two bytes in order, whoever wrote them. -/
theorem fieldsAreMostSignificantByteFirst : Obligations.FieldsAreMostSignificantByteFirst := by
  refine ⟨fun s v b f hf => ?_, fun s hi lo r hr haddr hbytes hbits hneed => ?_⟩
  · obtain ⟨tx, sel, h6, next⟩ := txb_half_fields f hf
    have addr : fieldAddr ⟨.txb, f.2.toNat, 2, none⟩ = f.2.toNat := Nat.zero_add _
    have wrf := s.after_wrf_half v tx rfl
    rw [addr] at wrf
    refine ⟨⟨_, execAll_afterAll _ s, ?_⟩, ⟨_, execAll_afterAll _ s, ?_⟩, ⟨_, execAll_afterAll _ s, ?_⟩⟩
    · rw [State.afterAll_cons, wrf, State.afterAll_cons, State.after_ldb_txb _ _ (by omega)]
      simp [hiByte_setWidth_word]
    · rw [State.afterAll_cons, wrf, State.afterAll_cons, State.after_ldb_txb _ _ (by omega), next]
      simp [loByte_setWidth_word]
    · rw [State.afterAll_cons, wrf, State.afterAll_cons, State.after_stb _ _ ((implemented_iff _).2 (by omega)),
        State.afterAll_cons, State.after_rdf_half _ sel rfl rfl (by simp [State.fieldShort]), addr]
      simp [loByte_setWidth, loByte_toNat]
  · obtain ⟨sel, need, hlast⟩ := rxb_half_fields r hr haddr hbytes hbits
    have addr : fieldAddr ⟨.rxb, r.addr - 0x80, 2, none⟩ = r.addr := Nat.add_sub_cancel' haddr
    have a0 : (BitVec.ofNat 8 r.addr).toNat = r.addr := by rw [BitVec.toNat_ofNat]; omega
    have a1 : (BitVec.ofNat 8 (r.addr + 1)).toNat = r.addr + 1 := by rw [BitVec.toNat_ofNat]; omega
    refine ⟨_, execAll_afterAll _ s, ?_⟩
    rw [State.afterAll_cons, State.after_stb _ _ (by rw [a0, implemented_iff]; omega),
      State.afterAll_cons, State.after_stb _ _ (by rw [a1, implemented_iff]; omega), a0, a1,
      State.afterAll_cons, State.after_rdf_half _ sel rfl rfl (by simp [State.fieldShort]; omega), addr]
    simp [loByte_setWidth]

end Sys2Proof.Machine
end

section
/-! PROOFS. Runs of `CKRUN` (R57, R66, R105, R111): a range in two pieces, the windows, when a run succeeds and with what. -/

namespace Sys2Proof.Machine

/-! ### A range in two pieces -/

theorem allImplemented_add (a m n : Nat) :
    allImplemented a (m + n) = true ↔ allImplemented a m = true ∧ allImplemented (a + m) n = true := by
  induction m generalizing a with
  | zero => simp [allImplemented]
  | succ m ih =>
    rw [Nat.add_right_comm, allImplemented, allImplemented, Bool.and_eq_true, Bool.and_eq_true, ih, and_assoc,
      Nat.add_right_comm a 1, Nat.add_assoc a]

theorem State.allReceived_add (s : State) (a m n : Nat) :
    s.allReceived a (m + n) = true ↔ s.allReceived a m = true ∧ s.allReceived (a + m) n = true := by
  induction m generalizing a with
  | zero => simp [State.allReceived]
  | succ m ih =>
    rw [Nat.add_right_comm, State.allReceived, State.allReceived, Bool.and_eq_true, Bool.and_eq_true, ih, and_assoc,
      Nat.add_right_comm a 1, Nat.add_assoc a]

theorem State.readBytes_add (s : State) (a m n : Nat) :
    s.readBytes a (m + n) = s.readBytes a m ++ s.readBytes (a + m) n := by
  induction m generalizing a with
  | zero => simp [State.readBytes]
  | succ m ih =>
    rw [Nat.add_right_comm, State.readBytes, State.readBytes, ih, List.cons_append, Nat.add_right_comm a 1, Nat.add_assoc a]

/-- The stream after two byte lists is the stream after the second from the stream after the first (R105). -/
theorem feeds_append (S : Stream) (bs bs' : List Byte) : feeds S (bs ++ bs') = (feeds S bs).bind (feeds · bs') := by
  induction bs generalizing S with
  | nil => rfl
  | cons b bs ih =>
    rw [List.cons_append, feeds, feeds]
    cases feed S b with
    | none => rfl
    | some T => exact ih T

/-! ### How a run ends (R111) -/

/-- A run with an address outside the windows raises `AddressRange` (R111, R215). -/
theorem exec_ckrun_hole {base : Byte} {len : Half} (h : allImplemented base.toNat len.toNat = false) (s : State) :
    exec (.ckrun base len) s = .next (s.raise .addressRange) := by
  simp [exec, execCkrun, h]

/-- A run answers with `ERR` 0 exactly when both tests of R66 pass and the stream does not overflow; it has then written the
stream. -/
theorem exec_ckrun_success {base : Byte} {len : Half} {s t : State} :
    (exec (.ckrun base len) s = .next t ∧ t.rsp = some ⟨0, 0⟩) ↔
      allImplemented base.toNat len.toNat = true ∧ s.allReceived base.toNat len.toNat = true ∧
        ∃ S, feeds s.stream (s.readBytes base.toNat len.toNat) = some S ∧ t = (s.setStream S).respond 0 := by
  constructor
  · rintro ⟨h, hrsp⟩
    have noFault (c : Cause) : t ≠ s.raise c := fun ht => s.raise_rsp_ne c 0 (ht ▸ hrsp)
    simp only [exec, execCkrun, Bool.not_eq_true'] at h
    split_ifs at h with impl rec
    · cases h; exact absurd rfl (noFault .addressRange)
    · cases h; exact absurd rfl (noFault .shortDatagram)
    · refine ⟨by simpa using impl, by simpa using rec, ?_⟩
      cases hS : feeds s.stream (s.readBytes base.toNat len.toNat) with
      | none => rw [hS] at h; cases h; exact absurd rfl (noFault .accOverflow)
      | some S => rw [hS] at h; cases h; exact ⟨S, rfl, rfl⟩
  · rintro ⟨impl, rec, S, hS, rfl⟩
    exact ⟨by simp [exec, execCkrun, impl, rec, hS, finishFeed], rfl⟩

/-- A range of implemented bytes is empty or lies in one window: the hole between them is in no run (R50, R66). -/
theorem allImplemented_window {a n : Nat} (h : allImplemented a n = true) :
    n = 0 ∨ a + n ≤ 0x48 ∨ (0x80 ≤ a ∧ a + n ≤ 0xDC) := by
  have admitted (i : Nat) (hi : i < n) := (implemented_iff _).1 ((allImplemented_iff a n).1 h i hi)
  by_contra outside
  rcases admitted 0 (by omega) with ha | ha
  · have := admitted (0x48 - a) (by omega)
    omega
  · have := admitted (0xDC - a) (by omega)
    omega

/-- Settles O29: without `AddressRange` every byte of the range is implemented, and the windows have a hole between them. -/
theorem admittedRangeLiesInOneWindow : Obligations.AdmittedRangeLiesInOneWindow := by
  refine ⟨fun base len s t h hrsp => ?_, fun base s => rfl⟩
  cases hi : allImplemented base.toNat len.toNat with
  | false =>
    rw [exec_ckrun_hole hi, Host.Outcome.next.injEq] at h
    exact absurd (h ▸ rfl) (hrsp 0)
  | true => exact (allImplemented_window hi).imp_left fun h0 => BitVec.eq_of_toNat_eq h0

/-- Settles O45: both tests of a range are the tests of its pieces, its bytes are theirs one behind the other, and feeding
is by position in the stream. -/
theorem runsConcatenate : Obligations.RunsConcatenate := by
  intro s t u base base' m n k hbase hk h hrsp h' hrsp'
  obtain ⟨impl, rec, S, hS, rfl⟩ := exec_ckrun_success.1 ⟨h, hrsp⟩
  obtain ⟨impl', rec', S', hS', rfl⟩ := exec_ckrun_success.1 ⟨h', hrsp'⟩
  rw [hbase] at impl' rec' hS'
  refine (exec_ckrun_success.2 ⟨?_, ?_, S', ?_, rfl⟩).1
  · rw [hk, allImplemented_add]
    exact ⟨impl, impl'⟩
  · rw [hk, State.allReceived_add]
    exact ⟨rec, (State.allReceived_congr (s := s) (s' := (s.setStream S).respond 0) rfl _ _).trans rec'⟩
  · rw [hk, State.readBytes_add, feeds_append, hS, Option.bind_some, ← hS']
    exact congrArg (feeds S) (State.readBytes_congr _ _ _ _ fun _ _ _ => rfl)

end Sys2Proof.Machine
end

section
/-! PROOFS. The document's algorithm on a little-endian host (R54): swapping the bytes of every word swaps the bytes of the
one's complement sum. -/

namespace Sys2Proof.Machine

/-! ### The raw sum of little-endian words -/

/-- The little-endian raw sum of n bytes is at most 65535 for each word begun (R54). -/
theorem sumLE_le (bs : List Byte) : sumLE bs ≤ 65535 * ((bs.length + 1) / 2) := by
  fun_induction sumLE bs with
  | case1 => simp
  | case2 b => have := b.isLt; simp; omega
  | case3 b0 b1 rest ih =>
    have h0 := b0.isLt; have h1 := b1.isLt
    simp only [List.length_cons]; omega

/-- Modulo 65535, a word with its bytes swapped is the word times 256, and so for the sums (RFC 1071's byte order
independence). -/
theorem sumLE_mod (bs : List Byte) : sumLE bs % 65535 = 256 * sum32 bs % 65535 := by
  fun_induction sumLE bs with
  | case1 => rfl
  | case2 b => rw [sum32]; omega
  | case3 b0 b1 rest ih => rw [sum32, wireWord_toNat]; omega

/-- Both raw sums are 0 for the same byte lists, those of zeros. -/
theorem sumLE_eq_zero_iff (bs : List Byte) : sumLE bs = 0 ↔ sum32 bs = 0 := by
  fun_induction sumLE bs with
  | case1 => rfl
  | case2 b => rw [sum32]; omega
  | case3 b0 b1 rest ih => rw [sum32, wireWord_toNat]; omega

/-! ### The sum folded -/

/-- `FOLD` keeps a sum modulo 65535 (R101). -/
theorem fold_mod {a : Nat} (h : a < 2 ^ 32) : (fold a).toNat % 65535 = a % 65535 := by
  rw [fold_toNat a h]; omega

/-- `FOLD` is 0 for the sum 0 and no other (R101). -/
theorem fold_eq_zero_iff {a : Nat} (h : a < 2 ^ 32) : (fold a).toNat = 0 ↔ a = 0 := by
  rw [fold_toNat a h]; omega

/-- The bytes of the complement are the complements of the bytes (R102). -/
theorem hiByte_complement (v : Half) : (hiByte (0xFFFF - v)).toNat = 255 - v.toNat / 256 := by
  have sub : (0xFFFF - v).toNat = 65535 - v.toNat := by bv_omega
  have := v.isLt
  rw [hiByte_toNat, sub]; omega

theorem loByte_complement (v : Half) : (loByte (0xFFFF - v)).toNat = 255 - v.toNat % 256 := by
  have sub : (0xFFFF - v).toNat = 65535 - v.toNat := by bv_omega
  have := v.isLt
  rw [loByte_toNat, sub]; omega

/-- Two 16-bit numbers, both 0 or neither, one of them 256 times the other modulo 65535: their bytes are swapped. -/
theorem bytes_swapped {x y : Nat} (hx : x < 65536) (hy : y < 65536) (zero : y = 0 ↔ x = 0)
    (mod : y % 65535 = 256 * x % 65535) : y % 256 = x / 256 ∧ y / 256 = x % 256 := by
  have swap : 256 * x % 65535 = (x % 256 * 256 + x / 256) % 65535 := by omega
  have : y = x % 256 * 256 + x / 256 := by omega
  omega

/-- Settles O40: the folded sums have their bytes swapped, and so have their complements. -/
theorem littleEndianHostGivesTheSameBytes : Obligations.LittleEndianHostGivesTheSameBytes := by
  intro bs hlen
  have hbe : sum32 bs < 2 ^ 32 := by have := sum32_le bs; omega
  have hle : sumLE bs < 2 ^ 32 := by have := sumLE_le bs; omega
  have zero : (fold (sumLE bs)).toNat = 0 ↔ (fold (sum32 bs)).toNat = 0 := by
    rw [fold_eq_zero_iff hle, fold_eq_zero_iff hbe, sumLE_eq_zero_iff]
  have mod : (fold (sumLE bs)).toNat % 65535 = 256 * (fold (sum32 bs)).toNat % 65535 := by
    rw [fold_mod hle, sumLE_mod, Nat.mul_mod, ← fold_mod hbe, ← Nat.mul_mod]
  obtain ⟨lo, hi⟩ := bytes_swapped (fold (sum32 bs)).isLt (fold (sumLE bs)).isLt zero mod
  exact ⟨BitVec.eq_of_toNat_eq (by rw [csumLE, csum, loByte_complement, hiByte_complement, lo]),
    BitVec.eq_of_toNat_eq (by rw [csumLE, csum, loByte_complement, hiByte_complement, hi])⟩

end Sys2Proof.Machine
end

section
/-! PROOFS. The encoding (R70 to R83): the decoder as the opcode map, the opcode map as the match and mask table, the encoder
as the inverse of the decoder. -/

namespace Sys2Proof

/-! ### The decoder by the opcode map (R76) -/

/-- No two rows of the opcode map have the same `OP`. -/
theorem opcodes_distinct : opcodes.Pairwise (fun o o' => o.op ≠ o'.op) := by decide

/-- A row of the opcode map is the one found by its `OP`. -/
theorem find?_opcodes_op : ∀ o ∈ opcodes, opcodes.find? (fun o' => o'.op == o.op) = some o := by
  intro o ho
  fin_cases ho <;> rfl

/-- The row found for an `OP` is the row of the opcode map that has it. -/
theorem find?_opcodes_eq_some_iff {op : Byte} {o : Opcode} :
    opcodes.find? (fun o' => o'.op == op) = some o ↔ o ∈ opcodes ∧ o.op = op := by
  constructor
  · intro h
    exact ⟨List.mem_of_find?_eq_some h, by simpa using List.find?_some h⟩
  · rintro ⟨ho, rfl⟩
    exact find?_opcodes_op o ho

/-- A word is decoded by the row of the opcode map that has its `OP`: to the command the row makes of the operand fields if
the reserved bits are clear, else to none (R71 to R74). -/
theorem decode_of_mem_opcodes {o : Opcode} {w : Word} (ho : o ∈ opcodes) (hop : o.op = opField w) :
    decode w = if reservedClear o.format (aField w) (immField w) then .ok (o.make (aField w) (immField w))
      else .error .reservedBits := by
  rw [decode, find?_opcodes_eq_some_iff.2 ⟨ho, hop⟩]

/-- A word whose `OP` no row of the opcode map has is no command (R80). -/
theorem decode_of_undefined {w : Word} (h : ∀ o ∈ opcodes, o.op ≠ opField w) : decode w = .error .undefinedOpcode := by
  have missing : opcodes.find? (fun o => o.op == opField w) = none :=
    List.find?_eq_none.2 fun o ho => by simpa using h o ho
  rw [decode, missing]

/-! ### The encoder and the decoder (R83) -/

/-- The statement about the encoding of one instruction holds of all seventeen. -/
theorem encoding_statement (i : Instr) : Laws.Encoding.Statement i := by
  cases i with
  | nop => exact Laws.Encoding.nop
  | srst => exact Laws.Encoding.srst
  | rds sel => exact Laws.Encoding.rds sel
  | ckclr => exact Laws.Encoding.ckclr
  | ckput imm => exact Laws.Encoding.ckput imm
  | ckrun base len => exact Laws.Encoding.ckrun base len
  | ckfin => exact Laws.Encoding.ckfin
  | stb addr imm => exact Laws.Encoding.stb addr imm
  | ldb addr => exact Laws.Encoding.ldb addr
  | wrf sel imm => exact Laws.Encoding.wrf sel imm
  | build ident => exact Laws.Encoding.build ident
  | sealTx => exact Laws.Encoding.sealTx
  | nextSeq => exact Laws.Encoding.nextSeq
  | setrxlen n => exact Laws.Encoding.setrxlen n
  | rdf sel => exact Laws.Encoding.rdf sel
  | classify => exact Laws.Encoding.classify
  | desc => exact Laws.Encoding.desc

/-- Settles O2: the word's `OP` finds the instruction's row, whose reserved bits a well-formed instruction leaves clear, and
the row makes the instruction of the word's operand fields. -/
theorem decodeInvertsEncode : Obligations.DecodeInvertsEncode := by
  intro i wf
  obtain ⟨op, a, imm, o, found, make, clear⟩ := encoding_statement i
  obtain ⟨ho, hop⟩ := find?_opcodes_eq_some_iff.1 found
  rw [decode_of_mem_opcodes ho (hop.trans op.symm), a, imm, if_pos (clear wf), make]

/-- With the reserved bits of its format clear, a row of the opcode map makes a well-formed instruction with the row's `OP`
that keeps both operand fields (R71 to R74). -/
theorem opcodes_make : ∀ o ∈ opcodes, ∀ (a : Byte) (imm : Half), reservedClear o.format a imm = true →
    (o.make a imm).wf = true ∧ (o.make a imm).op = o.op ∧ (o.make a imm).aOperand = a ∧
      (o.make a imm).immOperand = imm := by
  intro o ho a imm clear
  fin_cases ho <;> simp_all [reservedClear, Instr.wf, Instr.op, Instr.aOperand, Instr.immOperand]

/-- A word that decodes has the `OP` of a row of the opcode map whose format's reserved bits it leaves clear, and decodes to
what the row makes of its operand fields. -/
theorem decode_eq_ok_iff {w : Word} {i : Instr} :
    decode w = .ok i ↔ ∃ o ∈ opcodes, o.op = opField w ∧ reservedClear o.format (aField w) (immField w) = true ∧
      o.make (aField w) (immField w) = i := by
  constructor
  · intro h
    by_cases defined : ∃ o ∈ opcodes, o.op = opField w
    · obtain ⟨o, ho, hop⟩ := defined
      rw [decode_of_mem_opcodes ho hop] at h
      split at h
      · exact ⟨o, ho, hop, ‹_›, Except.ok.inj h⟩
      · cases h
    · rw [decode_of_undefined (by simpa using defined)] at h
      cases h
  · rintro ⟨o, ho, hop, clear, rfl⟩
    rw [decode_of_mem_opcodes ho hop, if_pos clear]

/-- Settles O3: the row that decodes the word makes a well-formed instruction with the three fields of the word. -/
theorem encodeInvertsDecode : Obligations.EncodeInvertsDecode := by
  intro w i h
  obtain ⟨o, ho, hop, clear, rfl⟩ := decode_eq_ok_iff.1 h
  obtain ⟨wf, op, a, imm⟩ := opcodes_make o ho _ _ clear
  exact ⟨wf, by rw [encode, op, a, imm, hop, packWord_fields]⟩

/-! ### The reserved bits of a format as a mask (R79) -/

/-- The bits of `A` that a format reserves. -/
def Format.aMask : Format → Byte
  | .z => BitVec.allOnes 8
  | .a => 0#8
  | .i8 => BitVec.allOnes 8
  | .i16 => BitVec.allOnes 8
  | .ai8 => 0#8
  | .ai16 => 0#8

/-- The bits of `IMM` that a format reserves. -/
def Format.immMask : Format → Half
  | .z => BitVec.allOnes 16
  | .a => BitVec.allOnes 16
  | .i8 => BitVec.allOnes 8 ++ 0#8
  | .i16 => 0#16
  | .ai8 => BitVec.allOnes 8 ++ 0#8
  | .ai16 => 0#16

/-- The mask of the high byte takes nothing of a 16-bit value exactly when its high byte is zero. -/
theorem and_highMask_eq_zero_iff (imm : Half) :
    imm &&& (BitVec.allOnes 8 ++ 0#8 : Half) = 0#16 ↔ imm.extractLsb' 8 8 = 0#8 := by
  have bytes : imm = imm.extractLsb' 8 8 ++ imm.extractLsb' 0 8 :=
    (BitVec.extractLsb'_append_extractLsb' (w := 8) (len := 8)).symm
  have masked : imm &&& (BitVec.allOnes 8 ++ 0#8 : Half) = imm.extractLsb' 8 8 ++ 0#8 := by
    conv_lhs => rw [bytes]
    rw [BitVec.and_append, BitVec.and_allOnes, BitVec.and_zero]
  rw [masked, ← BitVec.zero_append_zero (v := 8) (w := 8), BitVec.append_left_inj]

/-- The reserved bits of a format are zero exactly when its masks take nothing of the operand fields (R71 to R74). -/
theorem reservedClear_iff_masks (f : Format) (a : Byte) (imm : Half) :
    reservedClear f a imm = true ↔ a &&& f.aMask = 0#8 ∧ imm &&& f.immMask = 0#16 := by
  cases f <;>
    simp only [reservedClear, Format.aMask, Format.immMask, Bool.and_eq_true, beq_iff_eq, BitVec.and_allOnes,
      BitVec.and_zero, BitVec.ofNat_eq_ofNat, and_highMask_eq_zero_iff, true_and, and_true]

/-- The mask of a word masks its three fields. -/
theorem packWord_and (op op' a a' : Byte) (imm imm' : Half) :
    packWord op a imm &&& packWord op' a' imm' = packWord (op &&& op') (a &&& a') (imm &&& imm') := by
  rw [packWord, packWord, packWord, BitVec.and_append, BitVec.and_append]

/-- Words are equal exactly when their three fields are. -/
theorem packWord_inj {op op' a a' : Byte} {imm imm' : Half} :
    packWord op a imm = packWord op' a' imm' ↔ op = op' ∧ a = a' ∧ imm = imm' := by
  constructor
  · intro h
    exact ⟨by simpa using congrArg opField h, by simpa using congrArg aField h, by simpa using congrArg immField h⟩
  · rintro ⟨rfl, rfl, rfl⟩
    rfl

end Sys2Proof

namespace Sys2Proof.Machine

/-! ### The table of R79 as the opcode map -/

/-- The row of R79 of a row of the opcode map: `OP` and the bits its format reserves make the mask, `OP` alone the match. -/
def commandRow (o : Opcode) : CommandRow :=
  ⟨packWord o.op 0#8 0#16, packWord (BitVec.allOnes 8) o.format.aMask o.format.immMask,
    fun w => o.make (aField w) (immField w)⟩

/-- The table transcribed from R79 is the opcode map's own. -/
theorem commandRows_eq : commandRows = opcodes.map commandRow := rfl

theorem opField_mat_commandRow (o : Opcode) : opField (commandRow o).mat = o.op := opField_packWord _ _ _

/-- A word fits a row exactly when it has the row's `OP` and leaves the reserved bits of the row's format clear (R79). -/
theorem fits_commandRow_iff (o : Opcode) (w : Word) :
    (commandRow o).Fits w ↔ o.op = opField w ∧ reservedClear o.format (aField w) (immField w) = true := by
  have masked : w &&& (commandRow o).mask =
      packWord (opField w) (aField w &&& o.format.aMask) (immField w &&& o.format.immMask) := by
    conv_lhs => rw [← packWord_fields w]
    rw [commandRow, packWord_and, BitVec.and_allOnes]
  rw [CommandRow.Fits, masked, commandRow, packWord_inj, reservedClear_iff_masks, eq_comm]

/-- A word decodes exactly to the command of the row of R79 that it fits. -/
theorem decode_eq_ok_iff_fits {w : Word} {i : Instr} :
    decode w = .ok i ↔ ∃ r ∈ commandRows, r.Fits w ∧ r.command w = i := by
  simp only [decode_eq_ok_iff, commandRows_eq, List.mem_map, exists_exists_and_eq_and, fits_commandRow_iff, and_assoc]
  rfl

/-- The decoder says 'undefined opcode' exactly when no row of R79 has the word's `OP` (R80). -/
theorem decode_eq_undefinedOpcode_iff (w : Word) :
    decode w = .error .undefinedOpcode ↔ ∀ r ∈ commandRows, opField r.mat ≠ opField w := by
  rw [commandRows_eq, List.forall_mem_map]
  simp only [opField_mat_commandRow]
  refine ⟨fun h o ho hop => ?_, decode_of_undefined⟩
  rw [decode_of_mem_opcodes ho hop] at h
  split at h <;> cases h

/-- A word is a command exactly when it fits a row of R79 (R79, R80). -/
theorem exists_decode_eq_ok_iff (w : Word) : (∃ i, decode w = .ok i) ↔ ∃ r ∈ commandRows, r.Fits w := by
  simp only [decode_eq_ok_iff_fits]
  exact ⟨fun ⟨_, r, hr, fits, _⟩ => ⟨r, hr, fits⟩, fun ⟨r, hr, fits⟩ => ⟨_, r, hr, fits, rfl⟩⟩

/-- A word that fits no row of R79 is no command (R79, R80). -/
theorem exists_decode_eq_error {w : Word} (h : ∀ r ∈ commandRows, ¬ r.Fits w) : ∃ e, decode w = .error e := by
  cases hd : decode w with
  | error e => exact ⟨e, rfl⟩
  | ok i =>
    obtain ⟨r, hr, fits⟩ := (exists_decode_eq_ok_iff w).1 ⟨i, hd⟩
    exact absurd fits (h r hr)

/-- Settles O4: a word that fits two rows has the `OP` of both; it decodes to the command of the row it fits. -/
theorem decodeFollowsTheMatchAndMaskTable : Obligations.DecodeFollowsTheMatchAndMaskTable := by
  refine ⟨rfl, ?_, fun r hr w fits => decode_eq_ok_iff_fits.2 ⟨r, hr, fits, rfl⟩, fun w h => exists_decode_eq_error h⟩
  rw [commandRows_eq, List.pairwise_map]
  refine opcodes_distinct.imp fun distinct w ⟨fits, fits'⟩ => distinct ?_
  exact ((fits_commandRow_iff _ w).1 fits).1.trans ((fits_commandRow_iff _ w).1 fits').1.symm

/-- The decoder says 'reserved bits' exactly when a row of R79 has the word's `OP` and the word fits none: it is then no
command, and its opcode is not undefined (R80). -/
theorem decode_eq_reservedBits_iff (w : Word) :
    decode w = .error .reservedBits ↔
      (∃ r ∈ commandRows, opField r.mat = opField w) ∧ ∀ r ∈ commandRows, ¬ r.Fits w := by
  have defined := (decode_eq_undefinedOpcode_iff w).not
  have fits := (exists_decode_eq_ok_iff w).not
  push Not at defined fits
  rw [← defined, ← fits]
  cases decode w with
  | ok i => simp
  | error e => cases e <;> simp

/-- Settles O5: a word of no row is no command, which raises `IllegalCommand`; the decoder's two answers by the opcode and the
reserved bits. -/
theorem illegalWordSetsOnlyEsrBitOne : Obligations.IllegalWordSetsOnlyEsrBitOne := by
  refine ⟨fun s w q hq h => ?_, decode_eq_undefinedOpcode_iff, decode_eq_reservedBits_iff, exists_decode_eq_ok_iff⟩
  obtain ⟨e, he⟩ := exists_decode_eq_error h
  rw [step_command hq, issueWord_error he]
  rfl

/-- Settles O1: the words are those of R83's examples and of the matches of R79. -/
theorem decodesWordsWrittenOutFromTheSpec : Obligations.DecodesWordsWrittenOutFromTheSpec := by
  unfold Obligations.DecodesWordsWrittenOutFromTheSpec
  decide

end Sys2Proof.Machine
end

section
/-! PROOFS. The pseudo-commands (R84): the checksum of the template by hand, `SEAL` as its list of commands, `VERIFYTX` on a
sealed template, `LDRX`. -/

namespace Sys2Proof.Machine

/-! ### The stream after whole words (R103) -/

/-- A list of whole words fed to a stream with no byte pending adds their raw sum to `ACC`, if the sum fits (R103, R105). -/
theorem feeds_words {acc : Word} {bs : List Byte} (even : bs.length % 2 = 0) (fits : acc.toNat + sum32 bs < 2 ^ 32) :
    feeds ⟨acc, 0, false⟩ bs = some ⟨BitVec.ofNat 32 (acc.toNat + sum32 bs), 0, false⟩ := by
  fun_induction sum32 bs generalizing acc with
  | case1 => simp [feeds]
  | case2 b => simp at even
  | case3 hi lo rest ih =>
    rw [wireWord_toNat] at fits ⊢
    have added : (BitVec.ofNat 32 (acc.toNat + (hi.toNat * 256 + lo.toNat))).toNat =
        acc.toNat + (hi.toNat * 256 + lo.toNat) := by rw [BitVec.toNat_ofNat]; omega
    simp only [feeds, feed_first, feed_second]
    rw [if_neg (by omega)]
    simp only
    rw [ih (by rw [List.length_cons, List.length_cons] at even; omega) (by omega), added, Nat.add_assoc]

/-- The stream fed with whole words from `CLEAR`: the raw sum and no byte pending. -/
theorem feeds_clearStream {bs : List Byte} (even : bs.length % 2 = 0) (fits : sum32 bs < 2 ^ 32) :
    feeds clearStream bs = some ⟨BitVec.ofNat 32 (sum32 bs), 0, false⟩ := by
  have zero : (0 : Word).toNat + sum32 bs = sum32 bs := Nat.zero_add _
  have fed := feeds_words (acc := 0) even (by rwa [zero])
  rwa [zero] at fed

/-- `FIN` of a stream with no byte pending complements the folded `ACC` (R104). -/
theorem fin_whole (acc : Word) (hold : Byte) : fin ⟨acc, hold, false⟩ = some (0xFFFF - fold acc.toNat) := by
  have sum : finSum ⟨acc, hold, false⟩ = acc.toNat := rfl
  rw [fin, sum, if_neg (not_le.2 acc.isLt)]

/-! ### The response and the checksum unit beside other updates -/

@[simp] theorem State.respond_respond (s : State) (v w : Word) : (s.respond v).respond w = s.respond w := rfl

/-- A field write does not touch the last response. -/
theorem State.writeField_respond (s : State) (f : Field) (v : Half) (w : Word) :
    (s.respond w).writeField f v = (s.writeField f v).respond w :=
  s.writeBytes_with_rsp _ _ _

section withUnit

variable (s : State) (acc : Word) (hold : Byte) (phase : Bool) (ckr : Half)

@[simp] theorem State.withUnit_ckr : (s.withUnit acc hold phase ckr).ckr = ckr := rfl
@[simp] theorem State.withUnit_esr : (s.withUnit acc hold phase ckr).esr = s.esr := rfl
@[simp] theorem State.withUnit_mem : (s.withUnit acc hold phase ckr).mem = s.mem := rfl

end withUnit

/-! ### `CKCLR`, `CKRUN`, `CKFIN` over the template (R84) -/

/-- The raw sum of the template has room to spare in `ACC` (R100). -/
theorem State.sum32_txb_lt (s : State) : sum32 s.txb < 2 ^ 22 := by
  have := sum32_le s.txb
  rw [State.txb, State.length_readBytes] at this
  exact lt_of_le_of_lt this (by decide)

/-- `CKRUN` over the whole template from a clear stream leaves the raw sum of its 72 bytes (R111). -/
theorem State.after_ckrun_txb {s : State} (clear : s.stream = clearStream) :
    s.after (.ckrun 0x00 72) = (s.setStream ⟨BitVec.ofNat 32 (sum32 s.txb), 0, false⟩).respond 0 := by
  have received : s.allReceived 0 72 = true :=
    (s.allReceived_iff 0 72).2 fun i hi => (s.received_iff _).2 (by omega)
  have fed : feeds s.stream s.txb = some ⟨BitVec.ofNat 32 (sum32 s.txb), 0, false⟩ := by
    rw [clear]
    exact feeds_clearStream (by simp [State.txb]) (by have := s.sum32_txb_lt; omega)
  have run := (exec_ckrun_success (base := 0x00) (len := 72)).2 ⟨by decide, received, _, fed, rfl⟩
  rw [exec_after, Host.Outcome.next.injEq] at run
  exact run.1

/-- `CKFIN` with no byte pending leaves the complement of the folded `ACC` in `CKR` and returns it (R112). -/
theorem State.after_ckfin_whole {s : State} (whole : s.phase = false) :
    s.after .ckfin = ({ s with ckr := 0xFFFF - fold s.acc.toNat } : State).respond
      ((0xFFFF - fold s.acc.toNat).setWidth 32) := by
  have hf : fin s.stream = some (0xFFFF - fold s.acc.toNat) := by
    rw [State.stream, whole, fin_whole]
  simp [State.after, exec, execCkfin, hf]

/-- `CKSUM` over the template changes the checksum unit and nothing else, and returns the checksum of the 72 bytes (R84). -/
theorem State.afterAll_cksum_txb (s : State) :
    s.afterAll (cksum 0x00 72) =
      (s.withUnit (BitVec.ofNat 32 (sum32 s.txb)) 0 false (csum s.txb)).respond ((csum s.txb).setWidth 32) := by
  have cleared : s.after .ckclr = (s.setStream clearStream).respond 0 := rfl
  have same : ((s.setStream clearStream).respond 0).txb = s.txb := State.readBytes_congr _ _ _ _ fun _ _ _ => rfl
  have acc : (BitVec.ofNat 32 (sum32 s.txb)).toNat = sum32 s.txb := by
    have := s.sum32_txb_lt
    rw [BitVec.toNat_ofNat]; omega
  have ran := State.after_ckrun_txb (s := (s.setStream clearStream).respond 0) rfl
  rw [cksum, State.afterAll_cons, cleared, State.afterAll_cons, ran, same, State.afterAll_cons,
    State.after_ckfin_whole rfl, State.respond_acc, State.setStream_acc, acc, ← csum]
  -- the two values as variables, for `rfl` would otherwise compute the sum
  generalize BitVec.ofNat 32 (sum32 s.txb) = sum
  generalize csum s.txb = c
  rfl

/-! ### `SEAL` and its list of commands (R84, R123) -/

/-- `WRF` of the template's checksum field writes it (R121). -/
theorem State.after_wrf_tCksum (s : State) (v : Half) :
    s.after (.wrf 0x02 v) = (s.writeField (fieldOf .tCksum) v).respond 0 := rfl

/-- The template with a zero checksum field is what `SEAL` sums (R123). -/
theorem State.sealed_unit (s : State) :
    s.sealed.acc = BitVec.ofNat 32 (sum32 (s.writeField (fieldOf .tCksum) 0).txb) ∧
      s.sealed.ckr = csum (s.writeField (fieldOf .tCksum) 0).txb := ⟨rfl, rfl⟩

/-- The first four commands of the list leave the checksum unit as `SEAL` does, over the template with a zero checksum
field. -/
theorem State.afterAll_seal_sum (s : State) :
    s.afterAll (.wrf 0x02 0 :: cksum 0x00 72) =
      ((s.writeField (fieldOf .tCksum) 0).withUnit s.sealed.acc 0 false s.sealed.ckr).respond (s.sealed.ckr.setWidth 32) := by
  have same : ((s.writeField (fieldOf .tCksum) 0).respond 0).txb = (s.writeField (fieldOf .tCksum) 0).txb :=
    State.readBytes_congr _ _ _ _ fun _ _ _ => rfl
  obtain ⟨acc, ckr⟩ := s.sealed_unit
  rw [State.afterAll_cons, State.after_wrf_tCksum, State.afterAll_cksum_txb, same, acc, ckr]
  rfl

/-- The whole list, with the checksum that its `CKFIN` returns, ends in the sealed state (R84). -/
theorem State.afterAll_sealByHand (s : State) : s.afterAll (sealByHand s.sealed.ckr) = s.sealed.respond 0 := by
  have split : sealByHand s.sealed.ckr = (.wrf 0x02 0 :: cksum 0x00 72) ++ [.wrf 0x02 s.sealed.ckr] := rfl
  rw [split, State.afterAll_append, s.afterAll_seal_sum, State.afterAll_cons, State.after_wrf_tCksum,
    State.writeField_respond, State.respond_respond, State.writeField_withUnit, ← s.sealed_eq, State.afterAll_nil]

/-- Settles O51: `c` is the checksum in `CKR` of the sealed state. -/
theorem sealEqualsItsCommandList : Obligations.SealEqualsItsCommandList := by
  intro s
  refine ⟨s.sealed.ckr, s.sealed, rfl, ?_, ?_⟩
  · have first : (sealByHand s.sealed.ckr).take 4 = .wrf 0x02 0 :: cksum 0x00 72 := rfl
    rw [first, execAll_afterAll, s.afterAll_seal_sum]
    rfl
  · rw [execAll_afterAll, s.afterAll_sealByHand]
    rfl

/-! ### `VERIFYTX` (R84, R125) -/

/-- A checksum is 0 exactly for a positive raw sum that 65535 divides (R106). -/
theorem csum_eq_zero_iff {bs : List Byte} (h : sum32 bs < 2 ^ 32) :
    csum bs = 0 ↔ sum32 bs ≠ 0 ∧ sum32 bs % 65535 = 0 := by
  have value : csum bs = 0 ↔ (fold (sum32 bs)).toNat = 65535 := by rw [csum]; bv_omega
  have zero := fold_eq_zero_iff h
  have mod := fold_mod h
  have := (fold (sum32 bs)).isLt
  rw [value]; omega

/-- The value of the template's checksum field (R12, R78). -/
theorem State.readField16_tCksum_toNat (s : State) :
    (s.readField16 .tCksum).toNat = (s.readByte 2).toNat * 256 + (s.readByte 3).toNat := by
  have hi := (s.readByte 2).isLt
  have lo := (s.readByte 3).isLt
  have read : s.readField16 .tCksum =
      (BitVec.ofNat 32 ((s.readByte 2).toNat * 256 + (s.readByte 3).toNat)).setWidth 16 :=
    congrArg (·.setWidth 16) (s.memRead_two 2)
  rw [read, BitVec.toNat_setWidth, BitVec.toNat_ofNat]; omega

/-- The raw sum of the template is the raw sum with a zero checksum field plus the field (R85). -/
theorem State.sum32_txb (s : State) : sum32 s.txb = sum32 s.txbZeroField + (s.readField16 .tCksum).toNat := by
  have bytes : s.txb = s.readByte 0 :: s.readByte 1 :: s.readByte 2 :: s.readByte 3 :: s.readBytes 4 68 := rfl
  rw [State.txbZeroField, bytes, s.readField16_tCksum_toNat]
  simp [sum32]
  omega

/-- The checksum of a sealed template, its checksum field included, is 0: the field is the complement of the rest's folded
sum (R125). -/
theorem State.Sealed.csum_txb {s : State} (h : s.Sealed) : csum s.txb = 0 := by
  have total := s.sum32_txb
  have small := s.sum32_txb_lt
  have rest : sum32 s.txbZeroField < 2 ^ 32 := by omega
  have field : (s.readField16 .tCksum).toNat = 65535 - (fold (sum32 s.txbZeroField)).toNat := by
    rw [h, csum]; bv_omega
  have zero := fold_eq_zero_iff rest
  have mod := fold_mod rest
  have := (fold (sum32 s.txbZeroField)).isLt
  rw [csum_eq_zero_iff (by omega)]; omega

/-- Settles O52: `VERIFYTX` is `CKSUM` over the template, whose checksum is 0. -/
theorem verifyTxReturnsZeroWhenSealed : Obligations.VerifyTxReturnsZeroWhenSealed := by
  intro s sealed
  refine ⟨_, execAll_afterAll verifyTx s, ?_⟩
  rw [verifyTx, s.afterAll_cksum_txb, sealed.csum_txb]
  simp

/-! ### `LDRX` (R84, R185) -/

/-- `SETRXLEN` of at most 92 writes `RXLEN` (R141). -/
theorem State.after_setrxlen {s : State} {n : Half} (h : n.toNat ≤ 92) :
    s.after (.setrxlen n) = ({ s with rxlen := loByte n } : State).respond 0 := by
  have fits : ¬ Config.rxCap < n.toNat := not_lt.2 h
  simp only [State.after, exec, execSetrxlen, if_neg fits]

/-- `LDRX` writes the datagram from the start of `RXB` on and its number of bytes to `RXLEN`. -/
theorem State.afterAll_ldrx (s : State) {bs : List Byte} (h : bs.length ≤ 92) :
    s.afterAll (ldrx bs) =
      ({ s.writeBytes 0x80 bs with rxlen := BitVec.ofNat 8 bs.length } : State).respond 0 := by
  have length : (BitVec.ofNat 16 bs.length).toNat = bs.length := by rw [BitVec.toNat_ofNat]; omega
  have low : loByte (BitVec.ofNat 16 bs.length) = BitVec.ofNat 8 bs.length :=
    BitVec.eq_of_toNat_eq (by rw [loByte_toNat, length, BitVec.toNat_ofNat])
  obtain ⟨r, stored⟩ := s.afterAll_storeRx 0 bs (by omega)
  rw [ldrx, State.afterAll_append, stored, State.afterAll_cons, State.after_setrxlen (by omega), low]
  rfl

/-- Settles O58: the bytes written are read back, and those below `RXB` are outside the range written. -/
theorem loadingADatagram : Obligations.LoadingADatagram := by
  intro s bs h
  refine ⟨_, execAll_afterAll _ s, ?_⟩
  rw [s.afterAll_ldrx h]
  refine ⟨?_, by simp, fun i hi => ?_, fun x hx => ?_⟩
  · rw [State.respond_rxlen, BitVec.toNat_ofNat]; omega
  · rw [State.readByte_respond, State.readByte_with_rxlen, State.readByte_writeBytes,
      if_pos (by omega)]
    simp [hi]
  · rw [State.readByte_respond, State.readByte_with_rxlen,
      State.readByte_writeBytes_of_outside _ _ _ _ (.inl hx)]

end Sys2Proof.Machine
end

section
/-! PROOFS. The checksum function (R100 to R102, R106): the raw sum by words and of lists put together, the fold as a number,
a checksum stored in the buffer it is over. -/

namespace Sys2Proof.Machine

/-! ### The raw sum (R100) -/

/-- The raw sum of whole words is the sum of their values, read by index from any list they begin. -/
theorem sum32_of_words {ws : List Byte} (even : ws.length % 2 = 0) (tail : List Byte) :
    sum32 ws = ((List.range (ws.length / 2)).map
      (fun k => ((ws ++ tail)[2 * k]?.getD 0).toNat * 256 + ((ws ++ tail)[2 * k + 1]?.getD 0).toNat)).sum := by
  fun_induction sum32 ws with
  | case1 => rfl
  | case2 b => simp at even
  | case3 hi lo rest ih =>
    rw [List.length_cons, List.length_cons] at even ⊢
    have half : (rest.length + 1 + 1) / 2 = rest.length / 2 + 1 := by omega
    rw [half, List.range_succ_eq_map, List.map_cons, List.map_map, List.sum_cons, wireWord_toNat, ih (by omega)]
    rfl

/-- A list of whole words in front adds its own raw sum. -/
theorem sum32_append {xs : List Byte} (even : xs.length % 2 = 0) (ys : List Byte) :
    sum32 (xs ++ ys) = sum32 xs + sum32 ys := by
  fun_induction sum32 xs with
  | case1 => simp
  | case2 b => simp at even
  | case3 hi lo rest ih =>
    rw [List.cons_append, List.cons_append, sum32, ih (by rw [List.length_cons, List.length_cons] at even; omega), Nat.add_assoc]

/-- A list of odd length is a list of whole words and one byte. -/
theorem exists_words_of_odd {bs : List Byte} (odd : bs.length % 2 = 1) :
    ∃ ws b, bs = ws ++ [b] ∧ ws.length % 2 = 0 := by
  rcases bs.eq_nil_or_concat' with rfl | ⟨ws, b, rfl⟩
  · simp at odd
  · exact ⟨ws, b, rfl, by rw [List.length_append, List.length_singleton] at odd; omega⟩

/-- Settles O35: the whole words by index, and behind them the last byte of a list of odd length. -/
theorem rawSumIsTheSumOfWireWords : Obligations.RawSumIsTheSumOfWireWords := by
  intro bs
  have bound := sum32_le bs
  refine ⟨?_, bound, fun h => by omega⟩
  rcases Nat.mod_two_eq_zero_or_one bs.length with even | odd
  · have words := sum32_of_words even []
    rw [List.append_nil] at words
    rw [if_neg (by omega), Nat.add_zero, words]
  · obtain ⟨ws, b, rfl, even⟩ := exists_words_of_odd odd
    have half : (ws ++ [b]).length / 2 = ws.length / 2 := by rw [List.length_append, List.length_singleton]; omega
    rw [half, if_pos odd, sum32_append even, sum32_of_words even [b]]
    simp [sum32]

/-- The raw sum is 0 for the lists of zero bytes and no other. -/
theorem sum32_eq_zero_iff (bs : List Byte) : sum32 bs = 0 ↔ ∀ b ∈ bs, b = 0 := by
  have zero (b : Byte) : b = 0 ↔ b.toNat = 0 := (BitVec.toNat_inj (y := (0 : Byte))).symm
  fun_induction sum32 bs with
  | case1 => simp
  | case2 b => rw [List.forall_mem_singleton, zero]; omega
  | case3 hi lo rest ih =>
    simp only [List.forall_mem_cons, ← ih, zero hi, zero lo, wireWord_toNat]
    omega

/-! ### The fold (R101) -/

/-- The closed form of `FOLD`: the numbers from 1 on wrap at 65535, and 0 stays 0. -/
theorem fold_closed {a : Nat} (h : a < 2 ^ 32) : (fold a).toNat = if a = 0 then 0 else (a - 1) % 65535 + 1 := by
  rw [fold_toNat a h]
  split <;> omega

/-- A sum without a carry is no longer changed by the loop. -/
theorem foldLoop_of_lt {a : Nat} (h : a < 0x10000) (n : Nat) : foldLoop n a = a := by
  cases n with
  | zero => rfl
  | succ n => rw [foldLoop, if_pos (Nat.div_eq_of_lt h)]

/-- One pass of the loop adds the carry into the low half; a sum without a carry is what the pass gives back. -/
theorem foldLoop_succ (n a : Nat) : foldLoop (n + 1) a = foldLoop n (a % 0x10000 + a / 0x10000) := by
  rw [foldLoop]
  split
  next carry =>
    have small : a < 0x10000 := by omega
    rw [carry, Nat.mod_eq_of_lt small, Nat.add_zero, foldLoop_of_lt small]
  next => rfl

/-- After two passes no carry is left, and the sum is `FOLD`. -/
theorem foldLoop_eq_fold {a : Nat} (h : a < 2 ^ 32) (n : Nat) : foldLoop (n + 2) a = (fold a).toNat := by
  have folded := fold_toNat a h
  rw [foldLoop_succ, foldLoop_succ, ← folded, foldLoop_of_lt (fold a).isLt]

/-- Settles O36: two passes of the loop, and the closed form. -/
theorem foldIsTheCarryLoop : Obligations.FoldIsTheCarryLoop := by
  intro a h
  refine ⟨fun n two => ?_, fold_closed h, ?_, fold_mod h, fun positive multiple => ?_⟩
  · obtain ⟨n, rfl⟩ := Nat.exists_eq_add_of_le' two
    rw [foldLoop_eq_fold h]
    exact ⟨rfl, Nat.div_eq_of_lt (fold a).isLt⟩
  · rw [← fold_eq_zero_iff h, BitVec.toNat_eq]
    rfl
  · have wraps : (a - 1) % 65535 + 1 = 65535 := by omega
    exact BitVec.eq_of_toNat_eq (by rw [fold_closed h, if_neg positive, wraps]; rfl)

/-! ### A checksum stored in its buffer (R106 (a)) -/

/-- A 16-bit value stored at an index stands between what is before it and what is behind it (R52). -/
theorem putHalf_eq {bs : List Byte} {i : Nat} (h : i + 2 ≤ bs.length) (v : Half) :
    putHalf bs i v = bs.take i ++ hiByte v :: loByte v :: bs.drop (i + 2) := by
  have second : i + 1 < (bs.set i (hiByte v)).length := by rw [List.length_set]; omega
  have first : i < bs.length := by omega
  rw [putHalf, List.set_eq_take_append_cons_drop, if_pos second, List.drop_set_of_lt (by omega), List.take_set,
    List.take_succ_eq_append_getElem first, List.set_append_right _ _ (by simp)]
  simp [Nat.min_eq_left first.le]

/-- A 16-bit value stored at an even index adds to the raw sum what it is. -/
theorem sum32_putHalf {bs : List Byte} {i : Nat} (even : i % 2 = 0) (h : i + 2 ≤ bs.length) (v : Half) :
    sum32 (putHalf bs i v) = sum32 (putHalf bs i 0) + v.toNat := by
  have words : (bs.take i).length % 2 = 0 := by rw [List.length_take]; omega
  have value (v : Half) : (wireWord (hiByte v) (loByte v)).toNat = v.toNat := by
    rw [wireWord_toNat, hiByte_toNat, loByte_toNat]; omega
  have zero : (0 : Half).toNat = 0 := rfl
  simp only [putHalf_eq h, sum32_append words, sum32, value, zero]
  omega

/-- A raw sum that is another and its complement has the checksum 0. -/
theorem csum_eq_zero_of_complement {bs : List Byte} {a : Nat} (h : sum32 bs = a + (0xFFFF - fold a).toNat)
    (fits : sum32 bs < 2 ^ 32) : csum bs = 0 := by
  have complement : (0xFFFF - fold a).toNat = 65535 - (fold a).toNat := by bv_omega
  have zero := fold_eq_zero_iff (a := a) (by omega)
  have mod := fold_mod (a := a) (by omega)
  have := (fold a).isLt
  rw [csum_eq_zero_iff fits]
  omega

/-- Settles O38: storing the checksum adds the complement of the folded sum to the sum. -/
theorem verificationLaw : Obligations.VerificationLaw := by
  intro bs i even h hlen
  have stored := sum32_putHalf even h (csum (putHalf bs i 0))
  have bound := sum32_le (putHalf bs i (csum (putHalf bs i 0)))
  rw [putHalf, List.length_set, List.length_set, ← putHalf] at bound
  exact csum_eq_zero_of_complement stored (by omega)

/-! ### Checksums of particular lists (R106 (b) to (e)) -/

/-- A checksum is 0xFFFF exactly for the raw sum 0. -/
theorem csum_eq_ones_iff {bs : List Byte} (h : sum32 bs < 2 ^ 32) : csum bs = 0xFFFF ↔ sum32 bs = 0 := by
  rw [← fold_eq_zero_iff h, csum]
  bv_omega

/-- The checksum of one byte, for a sum of one word has no carry to fold. -/
theorem complement_fold_hold (b : Byte) : (0xFFFF - fold (b.toNat * 256) : Half) = BitVec.ofNat 16 (0xFFFF - b.toNat * 256) := by
  have small := b.isLt
  have folded : (fold (b.toNat * 256)).toNat = b.toNat * 256 := by rw [fold_toNat _ (by omega)]; omega
  bv_omega

/-- A zero byte behind a list of odd length completes its last word. -/
theorem sum32_padded {bs : List Byte} (odd : bs.length % 2 = 1) : sum32 (bs ++ [0]) = sum32 bs := by
  obtain ⟨ws, b, rfl, even⟩ := exists_words_of_odd odd
  rw [List.append_assoc, sum32_append even, sum32_append even]
  simp [sum32]

/-! ### The end-around-carry adder (R106 (f)) -/

/-- One end-around addition to a folded sum folds the sum and the word. -/
theorem addEndAround_fold {a w : Nat} (word : w ≤ 0xFFFF) (h : a + w < 2 ^ 32) :
    addEndAround (fold a).toNat w = (fold (a + w)).toNat := by
  rw [fold_closed h, fold_closed (by omega : a < 2 ^ 32), addEndAround]
  split_ifs <;> omega

/-- The adder run over a list from a folded sum folds that sum and the raw sum. -/
theorem sumEndAround_fold {a : Nat} {bs : List Byte} (h : a + sum32 bs < 2 ^ 32) :
    sumEndAround (fold a).toNat bs = (fold (a + sum32 bs)).toNat := by
  fun_induction sum32 bs generalizing a with
  | case1 => rfl
  | case2 b =>
    have := b.isLt
    exact addEndAround_fold (by omega) h
  | case3 hi lo rest ih =>
    have := (wireWord hi lo).isLt
    rw [sumEndAround, addEndAround_fold (by omega) (by omega), ih (by omega), Nat.add_assoc]

/-- Settles O39: the raw sum of each list, then its fold. -/
theorem checksumLaws : Obligations.ChecksumLaws := by
  refine ⟨fun n => ?_, fun b => complement_fold_hold b, fun b0 b1 b2 => ?_, fun bs odd => ?_, fun bs h => ⟨?_, ?_, ?_⟩⟩
  · have zero : sum32 (List.replicate n 0) = 0 := (sum32_eq_zero_iff _).2 fun b hb => List.eq_of_mem_replicate hb
    rw [csum_eq_ones_iff (by omega), zero]
  · rw [csum, sum32, sum32, wireWord_toNat]
  · rw [csum, csum, sum32_padded odd]
  · rw [csum_eq_ones_iff h, sum32_eq_zero_iff]
  · exact csum_eq_zero_iff h
  · have run := sumEndAround_fold (a := 0) (bs := bs) (by omega)
    rwa [Nat.zero_add] at run

end Sys2Proof.Machine
end

section
/-! PROOFS. The streaming checksum unit (R103 to R105): a list fed to the stream, and the stream finished. -/

namespace Sys2Proof.Machine

/-- Feeding a list feeds its first byte and then the rest (R103). -/
theorem feeds_cons (S : Stream) (b : Byte) (bs : List Byte) : feeds S (b :: bs) = (feed S b).bind (feeds · bs) := by
  rw [feeds]
  cases feed S b <;> rfl

/-- The first word of a list fed to a stream with no byte pending: the word is added, or it overflows (R103). -/
theorem feeds_cons_cons (acc : Word) (hi lo : Byte) (rest : List Byte) :
    feeds ⟨acc, 0, false⟩ (hi :: lo :: rest) =
      if 2 ^ 32 ≤ acc.toNat + (wireWord hi lo).toNat then none
      else feeds ⟨BitVec.ofNat 32 (acc.toNat + (wireWord hi lo).toNat), 0, false⟩ rest := by
  rw [feeds_cons, feed_first, Option.bind_some, feeds_cons, feed_second, wireWord_toNat]
  split <;> rfl

/-- Feeding a list and finishing folds `ACC` and the raw sum, or overflows in one of the two (R105). -/
theorem feeds_bind_fin (acc : Word) (bs : List Byte) :
    (feeds ⟨acc, 0, false⟩ bs).bind fin =
      if 2 ^ 32 ≤ acc.toNat + sum32 bs then none else some (0xFFFF - fold (acc.toNat + sum32 bs)) := by
  fun_induction sum32 bs generalizing acc with
  | case1 => rfl
  | case2 b => rfl
  | case3 hi lo rest ih =>
    rw [feeds_cons_cons]
    split
    next big => rw [if_pos (by omega)]; rfl
    next fits =>
      have added : (BitVec.ofNat 32 (acc.toNat + (wireWord hi lo).toNat)).toNat = acc.toNat + (wireWord hi lo).toNat := by
        rw [BitVec.toNat_ofNat]; omega
      rw [ih, added, Nat.add_assoc]

/-- From a clear stream that is the checksum of the list, when its raw sum fits (R105). -/
theorem feeds_clearStream_bind_fin (bs : List Byte) :
    (feeds clearStream bs).bind fin = if 2 ^ 32 ≤ sum32 bs then none else some (csum bs) := by
  have run := feeds_bind_fin 0 bs
  have zero : (0 : Word).toNat + sum32 bs = sum32 bs := Nat.zero_add _
  rwa [zero] at run

/-- The clear stream fed with whole words and one byte: the byte is held behind the words' raw sum (R103). -/
theorem feeds_clearStream_odd {ws : List Byte} (even : ws.length % 2 = 0) (fits : sum32 ws < 2 ^ 32) (b : Byte) :
    feeds clearStream (ws ++ [b]) = some ⟨BitVec.ofNat 32 (sum32 ws), b, true⟩ := by
  rw [feeds_append, feeds_clearStream even fits]
  rfl

/-- The clear stream fed with a list whose raw sum fits, for either parity of its length (R105). -/
theorem feeds_clearStream_fits {bs : List Byte} (fits : sum32 bs < 2 ^ 32) :
    feeds clearStream bs = some ⟨BitVec.ofNat 32 (sum32 (bs.take (bs.length / 2 * 2))),
      if bs.length % 2 = 1 then bs[bs.length - 1]?.getD 0 else 0, decide (bs.length % 2 = 1)⟩ := by
  rcases Nat.mod_two_eq_zero_or_one bs.length with even | odd
  · have whole : bs.take (bs.length / 2 * 2) = bs := List.take_of_length_le (by omega)
    rw [feeds_clearStream even fits, whole, if_neg (by omega), decide_eq_false (by omega)]
  · obtain ⟨ws, b, rfl, even⟩ := exists_words_of_odd odd
    have sum := sum32_append even [b]
    have words : (ws ++ [b]).length / 2 * 2 = ws.length := by rw [List.length_append, List.length_singleton]; omega
    have last : (ws ++ [b])[(ws ++ [b]).length - 1]?.getD 0 = b := by simp
    rw [feeds_clearStream_odd even (by omega), words, List.take_left, if_pos odd, last, decide_eq_true odd]

/-- Settles O37: feeding and finishing is the checksum; the stream by the parity of the length. -/
theorem streamAgreesWithWholeBuffer : Obligations.StreamAgreesWithWholeBuffer := by
  refine ⟨fun bs => ⟨?_, fun fits => ?_⟩, feeds_append⟩
  · have run := feeds_clearStream_bind_fin bs
    have overflow : (feeds clearStream bs).bind fin = none ↔ 2 ^ 32 ≤ sum32 bs := by simp [run]
    rw [← overflow]
    cases feeds clearStream bs with
    | none => exact ⟨fun _ => rfl, fun _ => trivial⟩
    | some S => exact Iff.rfl
  · have fed := feeds_clearStream_fits fits
    have run := feeds_clearStream_bind_fin bs
    have words : sum32 (bs.take (bs.length / 2 * 2)) ≤ sum32 bs := by
      have split := sum32_append (xs := bs.take (bs.length / 2 * 2)) (by rw [List.length_take]; omega)
        (bs.drop (bs.length / 2 * 2))
      rw [List.take_append_drop] at split
      omega
    rw [fed, if_neg (not_le.2 fits)] at run
    exact ⟨_, fed, rfl, rfl, by rw [BitVec.toNat_ofNat]; omega, run⟩

/-- A byte flips `PHASE` when it does not overflow (R103). -/
theorem feed_phase {S T : Stream} {b : Byte} (h : feed S b = some T) : T.phase = !S.phase := by
  rw [feed] at h
  split_ifs at h with first
  · cases h; rw [first]; rfl
  · cases h; rw [Bool.eq_true_of_not_eq_false first]; rfl

/-- A list flips `PHASE` by the parity of its length (R105, R111). -/
theorem feeds_phase {S T : Stream} {bs : List Byte} (h : feeds S bs = some T) :
    T.phase = xor S.phase (decide (bs.length % 2 = 1)) := by
  induction bs generalizing S with
  | nil => cases h; simp
  | cons b bs ih =>
    rw [feeds_cons, Option.bind_eq_some_iff] at h
    obtain ⟨S', first, rest⟩ := h
    have parity : decide ((b :: bs).length % 2 = 1) = !decide (bs.length % 2 = 1) := by
      rw [← decide_not, List.length_cons]; exact decide_eq_decide.2 (by omega)
    rw [ih rest, feed_phase first, parity, Bool.not_xor, Bool.xor_not]

end Sys2Proof.Machine
end

section
/-! PROOFS. The commands of the checksum unit (R109 to R112): each as the stream operation it runs, and its word. -/

namespace Sys2Proof.Machine

/-- A command word as the number of R83. -/
theorem packWord_eq_ofNat (op a : Byte) (imm : Half) :
    packWord op a imm = BitVec.ofNat 32 (op.toNat * 2 ^ 24 + a.toNat * 2 ^ 16 + imm.toNat) := by
  have ho := op.isLt
  have ha := a.isLt
  have hi := imm.isLt
  apply BitVec.eq_of_toNat_eq
  rw [packWord, BitVec.toNat_append, BitVec.toNat_append, ← Nat.shiftLeft_add_eq_or_of_lt ha,
    ← Nat.shiftLeft_add_eq_or_of_lt hi, BitVec.toNat_ofNat, Nat.shiftLeft_eq, Nat.shiftLeft_eq]
  omega

/-! ### `CKCLR` and `CKPUT` (R109, R110) -/

/-- Settles O41: the clear stream is written, and `CKR` is not part of it. -/
theorem ckclrResult : Obligations.CkclrResult := ⟨fun _ => rfl, by decide⟩

/-- Settles O42: `FEED` of the first byte of a word, and of the second. -/
theorem ckputResult : Obligations.CkputResult := by
  intro s imm
  have low : loByte imm = imm.setWidth 8 := BitVec.eq_of_toNat_eq (by rw [loByte_toNat, BitVec.toNat_setWidth])
  have run : exec (.ckput imm) s = finishFeed s (feed s.stream (loByte imm)) := rfl
  refine ⟨fun first => ?_, fun second fits => ?_, fun second big => ?_, fun h => ?_⟩
  · rw [run, State.stream, first, feed_first, low]; rfl
  · rw [run, State.stream, second, feed_second, loByte_toNat, if_neg (not_le.2 fits)]; rfl
  · have overflow : feed s.stream (loByte imm) = none := by
      rw [State.stream, second, feed_second, loByte_toNat, if_pos big]
    rw [run, overflow]; rfl
  · exact packWord_eq_ofNat 0x11 0 imm

/-! ### `CKRUN` (R111) -/

/-- A run in the windows over a byte of `RXB` that is not received raises `ShortDatagram` (R111, R216). -/
theorem exec_ckrun_short {base : Byte} {len : Half} {s : State} (impl : allImplemented base.toNat len.toNat = true)
    (short : s.allReceived base.toNat len.toNat = false) :
    exec (.ckrun base len) s = .next (s.raise .shortDatagram) := by
  simp [exec, execCkrun, impl, short]

/-- A run that passes both tests of R66 feeds its range (R111). -/
theorem exec_ckrun_admitted {base : Byte} {len : Half} {s : State} (impl : allImplemented base.toNat len.toNat = true)
    (rec : s.allReceived base.toNat len.toNat = true) :
    exec (.ckrun base len) s = finishFeed s (feeds s.stream (s.range base.toNat len.toNat)) := by
  have range : s.range base.toNat len.toNat = s.readBytes base.toNat len.toNat := (s.readBytes_eq_map _ _).symm
  simp [exec, execCkrun, impl, rec, range]

/-- Settles O43: the two tests of R66 in their order, then `FEEDS` of the range. -/
theorem ckrunResult : Obligations.CkrunResult := by
  intro s base len
  refine ⟨fun ⟨k, hk, hole⟩ => ?_, fun impl ⟨k, hk, short⟩ => ?_, fun impl rec => ?_, rfl, packWord_eq_ofNat 0x12 base len⟩
  · have notAll : allImplemented base.toNat len.toNat = false :=
      Bool.eq_false_iff.2 fun all => hole ((allImplemented_iff _ _).1 all k hk)
    rw [exec_ckrun_hole notAll]; rfl
  · have notAll : s.allReceived base.toNat len.toNat = false :=
      Bool.eq_false_iff.2 fun all => (s.received_iff _).1 ((s.allReceived_iff _ _).1 all k hk) short
    rw [exec_ckrun_short ((allImplemented_iff _ _).2 impl) notAll]; rfl
  · have run := exec_ckrun_admitted ((allImplemented_iff _ _).2 impl)
      ((s.allReceived_iff _ _).2 fun k hk => (s.received_iff _).2 (rec k hk))
    refine ⟨fun overflow => by rw [run, State.stream, overflow]; rfl, fun S fed => ⟨by rw [run, State.stream, fed]; rfl, ?_⟩⟩
    have phase := feeds_phase fed
    rwa [State.range, List.length_map, List.length_range] at phase

/-! ### `CKFIN` (R112) -/

/-- `CKFIN` of a final sum that fits stores and returns its folded complement (R104, R112). -/
theorem exec_ckfin_fits {s : State} {n : Nat} (sum : finSum s.stream = n) (fits : n < 2 ^ 32) :
    exec .ckfin s = .next (({ s with ckr := 0xFFFF - fold n } : State).respond ((0xFFFF - fold n).setWidth 32)) := by
  have result : fin s.stream = some (0xFFFF - fold n) := by rw [fin, sum, if_neg (not_le.2 fits)]
  simp [exec, execCkfin, result]

/-- `CKFIN` of a final sum that does not fit raises `AccOverflow` (R104, R112). -/
theorem exec_ckfin_overflow {s : State} (big : 2 ^ 32 ≤ finSum s.stream) :
    exec .ckfin s = .next (s.raise .accOverflow) := by
  have result : fin s.stream = none := by rw [fin, if_pos big]
  simp [exec, execCkfin, result]

/-- The final sum of the stream registers (R104). -/
theorem State.finSum_stream (s : State) :
    finSum s.stream = s.acc.toNat + if s.phase then s.hold.toNat * 256 else 0 := rfl

/-- Settles O44: the final sum fits or not; without a byte pending it always does. -/
theorem ckfinResult : Obligations.CkfinResult := by
  refine ⟨fun s fits => ?_, fun s big => ⟨?_, exec_ckfin_overflow big⟩, fun s acc phase => ?_,
    fun s acc phase => ?_, by decide⟩
  · rw [exec_ckfin_fits s.finSum_stream fits]; rfl
  · by_contra whole
    have := s.acc.isLt
    rw [if_neg whole] at big
    omega
  · have sum : finSum s.stream = 0 := by simp [s.finSum_stream, acc, phase]
    have empty : (0xFFFF - fold 0 : Half) = 0xFFFF := by decide
    rw [exec_ckfin_fits sum (Nat.two_pow_pos 32), empty]; rfl
  · have small := s.hold.isLt
    have sum : finSum s.stream = s.hold.toNat * 256 := by simp [s.finSum_stream, acc, phase]
    have wide : (BitVec.ofNat 16 (0xFFFF - s.hold.toNat * 256)).setWidth 32 = BitVec.ofNat 32 (0xFFFF - s.hold.toNat * 256) := by
      bv_omega
    rw [exec_ckfin_fits sum (by omega), complement_fold_hold, wide]; rfl

end Sys2Proof.Machine
end

section
/-! PROOFS. The sealed template (R125): the bytes of the fields of `TXB`, what the encoder's operations leave there, and what
keeps the template sealed. -/

namespace Sys2Proof.Machine

/-! ### The fields of the template as bytes (R12, R78) -/

/-- A byte-wide field holds the low byte of the value written (R121). -/
theorem State.readByte_writeField_byte (s : State) {f : Field} (one : f.bytes = 1) (v : Half) (x : Nat) :
    (s.writeField f v).readByte x = if x = fieldAddr f then loByte v else s.readByte x := by
  have low : (v.setWidth 32).extractLsb' 0 8 = loByte v := by ext i hi; simp [loByte]; omega
  simp [State.writeField, State.memWrite, one, beBytes, low, State.writeBytes]

/-- A two-byte field holds the high byte of the value written and behind it the low byte (R52, R121). -/
theorem State.readByte_writeField_half (s : State) {f : Field} (two : f.bytes = 2) (v : Half) (x : Nat) :
    (s.writeField f v).readByte x =
      if x = fieldAddr f then hiByte v else if x = fieldAddr f + 1 then loByte v else s.readByte x := by
  have bytes : s.writeField f v = (s.writeByte (fieldAddr f) (hiByte v)).writeByte (fieldAddr f + 1) (loByte v) := by
    simp [State.writeField, State.memWrite, two, beBytes_two, State.writeBytes]
  rw [bytes, State.readByte_writeByte, State.readByte_writeByte]
  split_ifs with hi lo
  · omega
  · rfl
  · rfl
  · rfl

/-- The value of a 16-bit field, first byte most significant (R12). -/
theorem State.readField16_eq (s : State) (g : FieldSel) :
    s.readField16 g = wireWord (s.readByte (fieldAddr (fieldOf g))) (s.readByte (fieldAddr (fieldOf g) + 1)) := by
  have hi := (s.readByte (fieldAddr (fieldOf g))).isLt
  have lo := (s.readByte (fieldAddr (fieldOf g) + 1)).isLt
  apply BitVec.eq_of_toNat_eq
  rw [State.readField16, State.memRead_two, wireWord_toNat, BitVec.toNat_setWidth, BitVec.toNat_ofNat]
  omega

/-- A 16-bit value is the word of its two bytes (R12). -/
theorem wireWord_hiByte_loByte (v : Half) : wireWord (hiByte v) (loByte v) = v := by
  apply BitVec.eq_of_toNat_eq
  rw [wireWord_toNat, hiByte_toNat, loByte_toNat]
  omega

/-- A 16-bit field reads back the value written (R55). -/
theorem State.readField16_writeField (s : State) {g : FieldSel} (two : (fieldOf g).bytes = 2) (v : Half) :
    (s.writeField (fieldOf g) v).readField16 g = v := by
  rw [State.readField16_eq, s.readByte_writeField_half two, s.readByte_writeField_half two, if_pos rfl,
    if_neg (by omega), if_pos rfl, wireWord_hiByte_loByte]

/-! ### The template with its checksum field as zero (R85) -/

/-- Two templates are the same but for the checksum field. -/
def SameButCksum (s t : State) : Prop := ∀ a < 72, ¬ (a = 2 ∨ a = 3) → s.readByte a = t.readByte a

/-- Templates that are the same but for the checksum field are the same once it is written. -/
theorem SameButCksum.writeField {s t : State} (h : SameButCksum s t) (v : Half) :
    SameTemplate (s.writeField (fieldOf .tCksum) v) (t.writeField (fieldOf .tCksum) v) :=
  fun a ha => State.readByte_writeField_congr _ _ _ _ _ fun (outside : ¬ (2 ≤ a ∧ a < 4)) => h a ha (by omega)

/-- Writing zero to the checksum field leaves the template with that field as zero (R85, R123). -/
theorem State.txb_writeField_tCksum (s : State) : (s.writeField (fieldOf .tCksum) 0).txb = s.txbZeroField := by
  have bytes (u : State) :
      u.txb = u.readByte 0 :: u.readByte 1 :: u.readByte 2 :: u.readByte 3 :: u.readBytes 4 68 := rfl
  have field (x : Nat) : (s.writeField (fieldOf .tCksum) 0).readByte x =
      if x = 2 then 0 else if x = 3 then 0 else s.readByte x := s.readByte_writeField_half rfl 0 x
  have rest : (s.writeField (fieldOf .tCksum) 0).readBytes 4 68 = s.readBytes 4 68 :=
    State.readBytes_congr _ _ _ _ fun x h4 _ => by rw [field, if_neg (by omega), if_neg (by omega)]
  rw [State.txbZeroField, bytes, bytes, rest, field, field, field, field]
  rfl

theorem SameButCksum.txbZeroField {s t : State} (h : SameButCksum s t) : s.txbZeroField = t.txbZeroField := by
  rw [← s.txb_writeField_tCksum, ← t.txb_writeField_tCksum]
  exact (h.writeField 0).txb

/-- Sealing does not depend on what the checksum field held (R123). -/
theorem SameButCksum.sealed {s t : State} (h : SameButCksum s t) : SameTemplate s.sealed t.sealed := by
  rw [← s.sealed_writeField_tCksum 0, ← t.sealed_writeField_tCksum 0]
  exact (h.writeField 0).sealed

/-! ### What sealing leaves (R123) -/

/-- `CKR` holds the checksum of the template with its checksum field as zero. -/
theorem State.sealed_ckr (s : State) : s.sealed.ckr = csum s.txbZeroField := by
  rw [← s.txb_writeField_tCksum]
  exact s.sealed_unit.2

theorem State.sum32_txbZeroField_lt (s : State) : sum32 s.txbZeroField < 2 ^ 22 := by
  rw [← s.txb_writeField_tCksum]
  exact State.sum32_txb_lt _

/-- `ACC` holds the raw sum of the template with its checksum field as zero. -/
theorem State.sealed_acc_toNat (s : State) : s.sealed.acc.toNat = sum32 s.txbZeroField := by
  have small := s.sum32_txbZeroField_lt
  rw [s.sealed_unit.1, s.txb_writeField_tCksum, BitVec.toNat_ofNat]
  omega

/-- Sealing writes the checksum to bytes 2 and 3 and no other byte. -/
theorem State.readByte_sealed_eq (s : State) (x : Nat) :
    s.sealed.readByte x =
      if x = 2 then hiByte s.sealed.ckr else if x = 3 then loByte s.sealed.ckr else s.readByte x := by
  rw [s.readByte_sealed, State.writeField_writeField]
  exact s.readByte_writeField_half rfl _ x

theorem SameButCksum.of_sealed (s : State) : SameButCksum s.sealed s :=
  fun a _ outside => s.readByte_sealed_of_outside a outside

/-- Sealing leaves a sealed template (R125). -/
theorem State.sealed_isSealed (s : State) : s.sealed.Sealed := by
  have stored : s.sealed.readField16 .tCksum = s.sealed.ckr := by
    have addr : fieldAddr (fieldOf .tCksum) = 2 := rfl
    rw [State.readField16_eq, addr, s.readByte_sealed_eq, s.readByte_sealed_eq, if_pos rfl, if_neg (by decide), if_pos rfl,
      wireWord_hiByte_loByte]
  have zeroField : s.sealed.txbZeroField = s.txbZeroField := (SameButCksum.of_sealed s).txbZeroField
  exact (stored.trans s.sealed_ckr).trans (congrArg csum zeroField.symm)

/-! ### What keeps a template sealed (R125) -/

/-- Whether a template is sealed depends on its 72 bytes alone. -/
theorem State.Sealed.congr {s t : State} (h : s.Sealed) (same : SameTemplate s t) : t.Sealed := by
  have zeroField : s.txbZeroField = t.txbZeroField := SameButCksum.txbZeroField fun a ha _ => same a ha
  have field : s.readField16 .tCksum = t.readField16 .tCksum := by
    rw [State.readField16_eq, State.readField16_eq]
    exact congrArg₂ wireWord (same 2 (by decide)) (same 3 (by decide))
  exact field.symm.trans (h.trans (congrArg csum zeroField))

theorem State.Sealed.respond {s : State} (h : s.Sealed) (v : Word) : (s.respond v).Sealed :=
  h.congr fun _ _ => rfl

/-- The commands that seal the template they leave (R122 to R124). -/
abbrev IsSealing (i : Instr) : Prop := (∃ v, i = .build v) ∨ i = .sealTx ∨ i = .nextSeq

/-- Such a command ends by sealing, whatever it did before. -/
theorem IsSealing.ends_sealed {i : Instr} (h : IsSealing i) (s : State) :
    ∃ u v, exec i s = .next ((State.sealed u).respond v) := by
  obtain ⟨ident, rfl⟩ | rfl | rfl := h
  · exact ⟨s.built Config.payloadInit ident, _, rfl⟩
  · exact ⟨s, _, rfl⟩
  · exact ⟨s.advanced, _, rfl⟩

theorem IsSealing.sealed {i : Instr} (h : IsSealing i) {s t : State} (ht : exec i s = .next t) : t.Sealed := by
  obtain ⟨u, v, answer⟩ := h.ends_sealed s
  rw [answer, Host.Outcome.next.injEq] at ht
  exact ht ▸ u.sealed_isSealed.respond v

/-- The column `writes` of R33 names no byte of `TXB` but for the commands that seal, `WRF`, and `STB` into `TXB`. -/
theorem writesOf_byte_txb {i : Instr} (sealing : ¬ IsSealing i) (wrf : ∀ sel v, i ≠ .wrf sel v)
    (stb : ∀ (a : Byte) v, a.toNat ≤ 0x47 → i ≠ .stb a v) {x : Nat} (hx : x < 72) : (writesOf i).byte x = false := by
  cases i with
  | wrf sel v => exact absurd rfl (wrf sel v)
  | build v => exact absurd (.inl ⟨v, rfl⟩) sealing
  | sealTx => exact absurd (.inr (.inl rfl)) sealing
  | nextSeq => exact absurd (.inr (.inr rfl)) sealing
  | stb a v =>
    have outside : ¬ a.toNat ≤ 0x47 := fun h => stb a v h rfl
    exact decide_eq_false (by omega)
  | _ => rfl

/-- Settles O16: a command that seals does so anew, any other command but `WRF` and `STB` into `TXB` writes no byte of
`TXB`, and the checksum field complements the folded sum of the rest. -/
theorem sealedInvariant : Obligations.SealedInvariant := by
  refine ⟨fun i s t sealing h => IsSealing.sealed sealing h, fun i s t wrf stb hs h => ?_, fun s h => h.csum_txb⟩
  by_cases sealing : IsSealing i
  · exact sealing.sealed h
  · exact hs.congr fun x hx => (exec_keeps_byte (writesOf_byte_txb sealing wrf stb hx) h).symm

end Sys2Proof.Machine
end

section
/-! PROOFS. The commands of the encoder (R121 to R124): each as the bytes and registers it writes, and its word. -/

namespace Sys2Proof.Machine

/-! ### Writes of bytes touch memory alone (R14) -/

theorem State.writeBytes_eq (s : State) (a : Nat) (bs : List Byte) :
    s.writeBytes a bs = { s with mem := (s.writeBytes a bs).mem } := by
  induction bs generalizing s a with
  | nil => rfl
  | cons b bs ih => exact ih (s.writeByte a b) (a + 1)

theorem State.writeField_eq (s : State) (f : Field) (v : Half) :
    s.writeField f v = { s with mem := (s.writeField f v).mem } :=
  s.writeBytes_eq _ _

/-! ### Sealing and responding (R123) -/

/-- Sealing a state that differs from `s` in memory alone, and responding, writes memory, the checksum unit and the
response (R123). -/
theorem State.sealed_respond_eq {s u : State} (h : u = { s with mem := u.mem }) (v : Word) :
    u.sealed.respond v =
      { s with
        mem := u.sealed.mem, acc := u.sealed.acc, hold := 0, phase := false, ckr := u.sealed.ckr, rsp := some ⟨0, v⟩ } := by
  have rest : u.sealed = { u with
      mem := u.sealed.mem, acc := u.sealed.acc, hold := 0, phase := false, ckr := u.sealed.ckr } := by
    rw [u.sealed_eq, State.writeField_writeField, u.writeField_eq]
    rfl
  rw [rest, h]
  rfl

/-- The checksum stands in its field, every other byte is as before (R123). -/
theorem State.readByte_sealed_respond_eq (s : State) (v : Word) (x : Nat) :
    (s.sealed.respond v).readByte x =
      if x = 2 then hiByte (s.sealed.respond v).ckr else if x = 3 then loByte (s.sealed.respond v).ckr else s.readByte x := by
  rw [State.readByte_respond, State.respond_ckr, s.readByte_sealed_eq]

theorem State.readByte_sealed_respond (s : State) (v : Word) {x : Nat} (h : ¬ (x = 2 ∨ x = 3)) :
    (s.sealed.respond v).readByte x = s.readByte x := by
  rw [State.readByte_respond, s.readByte_sealed_of_outside x h]

theorem State.txbZeroField_sealed_respond (s : State) (v : Word) : (s.sealed.respond v).txbZeroField = s.txbZeroField :=
  SameButCksum.txbZeroField fun _ _ outside => s.readByte_sealed_respond v outside

/-- Sealing leaves in `CKR` and `ACC` the checksum and the raw sum of the message it leaves, the checksum field as zero
(R123). -/
theorem State.sealed_respond_unit (s : State) (v : Word) :
    (s.sealed.respond v).ckr = csum (s.sealed.respond v).txbZeroField ∧
      (s.sealed.respond v).acc.toNat = sum32 (s.sealed.respond v).txbZeroField := by
  rw [s.txbZeroField_sealed_respond]
  exact ⟨s.sealed_ckr, s.sealed_acc_toNat⟩

/-! ### `WRF` (R121) -/

theorem hiByte_eq_zero_iff (v : Half) : hiByte v = 0 ↔ v.toNat < 256 := by
  have zero : (0 : Byte).toNat = 0 := rfl
  rw [← BitVec.toNat_inj, hiByte_toNat, zero]
  omega

/-- The selectors of the template fields are 0 to 4 (R78). -/
theorem txField?_eq_none {sel : Byte} (h : 0x04 < sel.toNat) : txField? sel = none := by
  rw [txField?]
  cases hg : fieldSel? sel with
  | none => rfl
  | some g =>
    have reply : (fieldOf g).buf = .rxb := by
      rw [fieldSel?] at hg
      split at hg
      -- the five `T_` selectors, then the others
      iterate 5 omega
      all_goals cases hg <;> rfl
    simp [reply]

/-- `WRF` of a template field with a value that fits writes the field (R121). -/
theorem exec_wrf_fits (s : State) {sel : Byte} {f : Field} {v : Half} (hf : txField? sel = some f)
    (fits : f.bytes = 1 → v.toNat < 256) : exec (.wrf sel v) s = .next ((s.writeField f v).respond 0) := by
  have passes : ¬ (f.bytes = 1 ∧ hiByte v ≠ 0) := fun ⟨one, high⟩ => high ((hiByte_eq_zero_iff v).2 (fits one))
  simp only [exec, execWrf, hf, if_neg passes]

/-- `WRF` of a byte-wide field with a larger value raises `IllegalCommand` (R121, R212). -/
theorem exec_wrf_wide (s : State) {sel : Byte} {f : Field} {v : Half} (hf : txField? sel = some f) (one : f.bytes = 1)
    (wide : 256 ≤ v.toNat) : exec (.wrf sel v) s = .next (s.raise .illegalCommand) := by
  have fails : f.bytes = 1 ∧ hiByte v ≠ 0 := ⟨one, fun zero => absurd ((hiByte_eq_zero_iff v).1 zero) (not_lt.2 wide)⟩
  simp only [exec, execWrf, hf, if_pos fails]

/-- `WRF` of any other selector raises `IllegalField` (R121, R213). -/
theorem exec_wrf_illegal (s : State) {sel : Byte} (v : Half) (h : 0x04 < sel.toNat) :
    exec (.wrf sel v) s = .next (s.raise .illegalField) := by
  simp only [exec, execWrf, txField?_eq_none h]

/-- The next state of a `WRF` that writes its field: memory and the response alone, with the bytes `bytes` in memory. -/
theorem exec_wrf_bytes (s : State) {sel : Byte} {f : Field} {v : Half} {bytes : Nat → Byte} (hf : txField? sel = some f)
    (fits : f.bytes = 1 → v.toNat < 256) (written : ∀ x, (s.writeField f v).readByte x = bytes x) :
    ∃ t, exec (.wrf sel v) s = .next t ∧ t = { s with mem := t.mem, rsp := some ⟨0, 0⟩ } ∧
      ∀ x, t.readByte x = bytes x := by
  refine ⟨_, exec_wrf_fits s hf fits, ?_, written⟩
  rw [s.writeField_eq]
  rfl

/-- Settles O46: the five template fields, one or two bytes wide, and the two tests in their order. -/
theorem wrfResult : Obligations.WrfResult := by
  intro s sel v
  refine ⟨fun hsel fits => ?_, fun h => exec_wrf_illegal s v h, fun hsel wide => ?_, packWord_eq_ofNat 0x30 sel v⟩
  · have five : sel = 0x00 ∨ sel = 0x01 ∨ sel = 0x02 ∨ sel = 0x03 ∨ sel = 0x04 := by bv_omega
    obtain rfl | rfl | rfl | rfl | rfl := five
    · exact exec_wrf_bytes s (f := fieldOf .tType) rfl (fun _ => fits (by decide)) (s.readByte_writeField_byte rfl v)
    · exact exec_wrf_bytes s (f := fieldOf .tCode) rfl (fun _ => fits (by decide)) (s.readByte_writeField_byte rfl v)
    · exact exec_wrf_bytes s (f := fieldOf .tCksum) rfl nofun (s.readByte_writeField_half rfl v)
    · exact exec_wrf_bytes s (f := fieldOf .tId) rfl nofun (s.readByte_writeField_half rfl v)
    · exact exec_wrf_bytes s (f := fieldOf .tSeq) rfl nofun (s.readByte_writeField_half rfl v)
  · have two : sel = 0x00 ∨ sel = 0x01 := by bv_omega
    obtain rfl | rfl := two
    · exact exec_wrf_wide s (f := fieldOf .tType) rfl rfl wide
    · exact exec_wrf_wide s (f := fieldOf .tCode) rfl rfl wide

/-! ### `BUILD` (R122) -/

/-- The message `BUILD` writes, byte by byte: type 8, code 0, no checksum yet, the identifier, sequence number 1, the
payload. -/
theorem templateBytes_eq (payload : Nat → Byte) (ident : Half) :
    templateBytes payload ident =
      [8, 0, 0, 0, hiByte ident, loByte ident, 0, 1] ++ (List.range 64).map payload := by
  have kind : beBytes 1 ((Config.echoRequest.setWidth 16).setWidth 32) ++ beBytes 1 0 ++ beBytes 2 0 = [8, 0, 0, 0] := by
    decide
  have seq : beBytes 2 (Config.seqFirst.setWidth 32) = [0, 1] := by decide
  rw [templateBytes, kind, beBytes_two, seq]
  rfl

theorem State.readByte_built (payload : Nat → Byte) (ident : Half) (s : State) {x : Nat} (h : x < 72) :
    (s.built payload ident).readByte x = (templateBytes payload ident)[x]?.getD 0 := by
  rw [s.built_eq_writeBytes, State.readByte_writeBytes, length_templateBytes, if_pos (by omega), Nat.sub_zero]

theorem State.built_eq (payload : Nat → Byte) (ident : Half) (s : State) :
    s.built payload ident = { s with mem := (s.built payload ident).mem } := by
  rw [s.built_eq_writeBytes]
  exact s.writeBytes_eq _ _

/-- The payload stands behind the eight bytes of the header (R122). -/
theorem State.readByte_built_payload (payload : Nat → Byte) (ident : Half) (s : State) {j : Nat} (h : j < 64) :
    (s.built payload ident).readByte (8 + j) = payload j := by
  rw [State.readByte_built _ _ _ (by omega), templateBytes_eq, List.getElem?_append_right (by simp)]
  simp [h]

/-- The bytes `BUILD` leaves in the header, but for the checksum field (R122). -/
theorem State.readByte_build_header (payload : Nat → Byte) (ident : Half) (s : State) (v : Word) (x : Nat) (hx : x < 8)
    (outside : ¬ (x = 2 ∨ x = 3)) :
    ((s.built payload ident).sealed.respond v).readByte x =
      [8, 0, 0, 0, hiByte ident, loByte ident, 0, 1][x]?.getD 0 := by
  rw [State.readByte_sealed_respond _ v outside, State.readByte_built _ _ _ (by omega), templateBytes_eq,
    List.getElem?_append_left (by simpa using hx)]

/-- `BUILD` writes the message, seals it and returns the checksum (R122). -/
theorem exec_build (ident : Half) (s : State) :
    exec (.build ident) s = .next ((s.built Config.payloadInit ident).sealed.respond
      ((s.built Config.payloadInit ident).sealed.ckr.setWidth 32)) := rfl

/-- Settles O47: sealing keeps the bytes built but for the checksum field, and stores the checksum of those bytes there. -/
theorem buildResult : Obligations.BuildResult := by
  intro s ident
  have header := s.readByte_build_header Config.payloadInit ident
  obtain ⟨ckr, acc⟩ := (s.built Config.payloadInit ident).sealed_respond_unit
    ((s.built Config.payloadInit ident).sealed.ckr.setWidth 32)
  refine ⟨_, exec_build ident s, header _ 0 (by decide) (by decide), header _ 1 (by decide) (by decide), ?_, ?_,
    header _ 4 (by decide) (by decide), header _ 5 (by decide) (by decide), header _ 6 (by decide) (by decide),
    header _ 7 (by decide) (by decide), fun j hj => ?_, fun x hx => ?_, ckr, acc, ?_,
    packWord_eq_ofNat 0x31 0 ident⟩
  · rw [State.readByte_sealed_respond_eq, if_pos rfl]
  · rw [State.readByte_sealed_respond_eq, if_neg (by decide), if_pos rfl]
  · rw [State.readByte_sealed_respond _ _ (by omega), s.readByte_built_payload _ _ hj]
  · rw [State.readByte_sealed_respond _ _ (by omega), State.readByte_built_of_outside _ _ _ _ hx]
  · rw [State.respond_mem, State.respond_acc, State.respond_ckr]
    exact State.sealed_respond_eq (s.built_eq _ _) _

/-! ### `SEAL` (R123) -/

/-- The checksum of an all-zero message is 0xFFFF (R106, R123). -/
theorem State.csum_txbZeroField_of_zero {s : State} (zero : ∀ x < 72, s.readByte x = 0) : csum s.txbZeroField = 0xFFFF := by
  have small := s.sum32_txbZeroField_lt
  rw [csum_eq_ones_iff (by omega), sum32_eq_zero_iff]
  intro b hb
  obtain hb | rfl := List.mem_or_eq_of_mem_set hb
  · obtain hb | rfl := List.mem_or_eq_of_mem_set hb
    · rw [State.txb, State.readBytes_eq_map, List.mem_map] at hb
      obtain ⟨x, hx, rfl⟩ := hb
      exact zero _ (by simpa using hx)
    · rfl
  · rfl

/-- Settles O48: the checksum is that of the message with its field as zero, and sealing again finds the same message. -/
theorem sealResult : Obligations.SealResult := by
  refine ⟨by decide, fun s => ?_⟩
  have small := s.sum32_txbZeroField_lt
  have acc : s.sealed.acc = BitVec.ofNat 32 (sum32 s.txbZeroField) := by
    rw [← s.sealed_acc_toNat, BitVec.ofNat_toNat, BitVec.setWidth_eq]
  have even : s.txbZeroField.length % 2 = 0 := by simp [State.txbZeroField, State.txb]
  refine ⟨s.sealed.respond (s.sealed.ckr.setWidth 32), rfl, s.sealed_ckr, s.sealed_acc_toNat, small, ?_,
    s.readByte_sealed_respond_eq _, State.sealed_respond_eq rfl _, idempotent_sealTx s _ rfl, fun zero => ?_⟩
  · rw [feeds_clearStream even (by omega), State.respond_acc, acc]
  · rw [State.respond_ckr, s.sealed_ckr, State.csum_txbZeroField_of_zero zero]

/-! ### `NEXT` (R124, R126) -/

/-- The sequence number that `NEXT` writes is one more, modulo 2^16 (R126). -/
theorem State.advanced_tSeq (s : State) : s.advanced.readField16 .tSeq = s.readField16 .tSeq + 1 :=
  s.readField16_writeField rfl _

theorem State.readField16_tSeq_toNat (s : State) :
    (s.readField16 .tSeq).toNat = (s.readByte 6).toNat * 256 + (s.readByte 7).toNat := by
  rw [State.readField16_eq, wireWord_toNat]
  rfl

/-- Two 16-bit values side by side are the first times 2^16 plus the second (R124). -/
theorem append_eq_ofNat (n c : Half) : (n ++ c : Word) = BitVec.ofNat 32 (n.toNat * 2 ^ 16 + c.toNat) := by
  have hn := n.isLt
  have hc := c.isLt
  apply BitVec.eq_of_toNat_eq
  rw [BitVec.toNat_append, ← Nat.shiftLeft_add_eq_or_of_lt hc, Nat.shiftLeft_eq, BitVec.toNat_ofNat]
  omega

/-- Settles O49: the next sequence number is written before sealing, which keeps it. -/
theorem nextResult : Obligations.NextResult := by
  refine ⟨by decide, fun s => ?_⟩
  let a := s.advanced
  have bytes (x : Nat) : a.readByte x =
      if x = 6 then hiByte (a.readField16 .tSeq) else if x = 7 then loByte (a.readField16 .tSeq) else s.readByte x := by
    rw [s.advanced_tSeq]
    exact s.readByte_writeField_half rfl _ x
  obtain ⟨ckr, acc⟩ := a.sealed_respond_unit (a.readField16 .tSeq ++ a.sealed.ckr)
  refine ⟨_, a.readField16 .tSeq, rfl, ?_, fun x => ?_, ckr, acc, ?_⟩
  · rw [s.advanced_tSeq, BitVec.toNat_add, s.readField16_tSeq_toNat]
    rfl
  · rw [← bytes]
    exact a.readByte_sealed_respond_eq _ x
  · rw [append_eq_ofNat]
    exact State.sealed_respond_eq (s.writeField_eq _ _) _

end Sys2Proof.Machine
end

section
/-! PROOFS. Building the message again and counting its sequence number up give the same bytes (R127). -/

namespace Sys2Proof.Machine

theorem SameTemplate.trans {s t u : State} (h : SameTemplate s t) (h' : SameTemplate t u) : SameTemplate s u :=
  fun a ha => (h a ha).trans (h' a ha)

/-! ### The template after each command -/

theorem State.after_build_template (s : State) (ident : Half) :
    SameTemplate (s.after (.build ident)) (s.built Config.payloadInit ident).sealed :=
  fun a _ => State.readByte_respond _ _ a

theorem State.after_seal_template (s : State) : SameTemplate (s.after .sealTx) s.sealed :=
  fun a _ => State.readByte_respond _ _ a

theorem State.after_next_template (s : State) : SameTemplate (s.after .nextSeq) s.advanced.sealed :=
  fun a _ => State.readByte_respond _ _ a

theorem State.after_wrf_tSeq_template (s : State) (v : Half) :
    SameTemplate (s.after (.wrf 0x04 v)) (s.writeField (fieldOf .tSeq) v) :=
  fun a _ => State.readByte_respond _ _ a

/-! ### Sealing between two writes -/

/-- Sealing before a field is written and sealed makes no difference (R123). -/
theorem State.sealed_writeField_sealed (s : State) (f : Field) (v : Half) :
    SameTemplate (s.sealed.writeField f v).sealed (s.writeField f v).sealed :=
  SameButCksum.sealed fun a _ outside =>
    State.readByte_writeField_congr _ _ _ _ _ fun _ => s.readByte_sealed_of_outside a outside

/-- Advancing the sealed template with sequence number `v` gives the sealed template with `v + 1` (R124). -/
theorem State.advanced_sealed_tSeq (s : State) (v : Half) :
    SameTemplate (s.writeField (fieldOf .tSeq) v).sealed.advanced.sealed (s.writeField (fieldOf .tSeq) (v + 1)).sealed := by
  have seq : (s.writeField (fieldOf .tSeq) v).sealed.readField16 .tSeq = v := by
    rw [State.readField16_eq, State.readByte_sealed_of_outside _ _ (by decide),
      State.readByte_sealed_of_outside _ _ (by decide), ← State.readField16_eq, State.readField16_writeField _ rfl]
  rw [State.advanced, seq, ← s.writeField_writeField _ v (v + 1)]
  exact State.sealed_writeField_sealed _ _ _

/-- `BUILD` writes the sequence number 1 (R122). -/
theorem State.built_tSeq (payload : Nat → Byte) (ident : Half) (s : State) :
    SameTemplate (s.built payload ident) ((s.built payload ident).writeField (fieldOf .tSeq) 1) := by
  intro a ha
  have field : ((s.built payload ident).writeField (fieldOf .tSeq) 1).readByte a =
      if a = 6 then 0 else if a = 7 then 1 else (s.built payload ident).readByte a :=
    State.readByte_writeField_half _ rfl _ _
  rw [field]
  split_ifs with first second
  · rw [first, State.readByte_built _ _ _ (by decide), templateBytes_eq]; rfl
  · rw [second, State.readByte_built _ _ _ (by decide), templateBytes_eq]; rfl
  · rfl

/-! ### The two lists of commands -/

/-- `m` times `NEXT` on a sealed template adds `m` to its sequence number and keeps it sealed (R124, R126). -/
theorem State.afterAll_next_template {s b : State} {v : Half} (h : SameTemplate s (b.writeField (fieldOf .tSeq) v).sealed)
    (m : Nat) : SameTemplate (s.afterAll (List.replicate m .nextSeq))
      (b.writeField (fieldOf .tSeq) (v + BitVec.ofNat 16 m)).sealed := by
  induction m generalizing s v with
  | zero => simpa using h
  | succ m ih =>
    have next : SameTemplate (s.after .nextSeq) (b.writeField (fieldOf .tSeq) (v + 1)).sealed :=
      (s.after_next_template.trans h.advanced.sealed).trans (b.advanced_sealed_tSeq v)
    have count : v + BitVec.ofNat 16 (m + 1) = v + 1 + BitVec.ofNat 16 m := by
      rw [Nat.add_comm, BitVec.ofNat_add, BitVec.add_assoc]; rfl
    rw [List.replicate_succ, State.afterAll_cons, count]
    exact ih next

/-- Settles O50: both lists leave the built template with the sequence number `k`, sealed. -/
theorem rebuildingEqualsMutating : Obligations.RebuildingEqualsMutating := by
  intro s ident k one _
  let b := s.built Config.payloadInit ident
  have built : SameTemplate (s.after (.build ident)) b.sealed := s.after_build_template ident
  have counted : SameTemplate (s.afterAll (.build ident :: List.replicate (k - 1) .nextSeq))
      (b.writeField (fieldOf .tSeq) (BitVec.ofNat 16 k)).sealed := by
    have count : BitVec.ofNat 16 k = 1 + BitVec.ofNat 16 (k - 1) := by
      rw [← Nat.add_sub_cancel' one, BitVec.ofNat_add, Nat.add_sub_cancel_left]; rfl
    rw [State.afterAll_cons, count]
    exact State.afterAll_next_template (built.trans (s.built_tSeq _ _).sealed) (k - 1)
  have mutated : SameTemplate (s.afterAll [.build ident, .wrf 0x04 (BitVec.ofNat 16 k), .sealTx])
      (b.writeField (fieldOf .tSeq) (BitVec.ofNat 16 k)).sealed := by
    have written := (State.after_wrf_tSeq_template _ (BitVec.ofNat 16 k)).trans (built.writeField _ _)
    exact ((State.after_seal_template _).trans written.sealed).trans (b.sealed_writeField_sealed _ _)
  exact ⟨_, _, execAll_afterAll _ s, execAll_afterAll _ s, counted.txb.trans mutated.txb.symm⟩

end Sys2Proof.Machine
end

section
/-! PROOFS. The fields of a datagram (R78, R142, R143): the field table as the machine's own, a field as a number, and `RDF`. -/

namespace Sys2Proof.Machine

/-! ### The rows of the field table (R78, R143) -/

/-- The lowest bit of its bytes' value that a field takes (R78). -/
def Field.low (f : Field) : Nat :=
  match f.slice with
  | none => 0
  | some (_, lo) => lo

/-- The number of bits a field takes (R78). -/
def Field.bits (f : Field) : Nat :=
  match f.slice with
  | none => 8 * f.bytes
  | some (hi, lo) => hi - lo + 1

/-- The least `RXLEN` with which a field can be read: 0 for a field of `TXB` (R143). -/
def Field.need (f : Field) : Nat :=
  match f.buf with
  | .txb => 0
  | .rxb => f.idx + f.bytes

/-- The row of R78 and R143 that a selector and its field make. -/
def fieldRow (sel : Byte) (f : Field) : FieldRow := ⟨sel, fieldAddr f, f.bytes, f.low, f.bits, f.need⟩

/-- A row of the transcribed table is the row that its selector and the field it names make. -/
theorem eq_fieldRow_of_mem {r : FieldRow} (hr : r ∈ fieldRows) :
    ∃ g, fieldSel? r.sel = some g ∧ r = fieldRow r.sel (fieldOf g) := by
  fin_cases hr <;> exact ⟨_, rfl, rfl⟩

/-- The transcribed table leaves out no selector that names a field. -/
theorem fieldRow_mem {sel : Byte} {g : FieldSel} (h : fieldSel? sel = some g) :
    fieldRow sel (fieldOf g) ∈ fieldRows := by
  have number : sel = BitVec.ofNat 8 sel.toNat := (BitVec.ofNat_toNat 8 sel).symm
  rw [fieldSel?] at h
  split at h
  all_goals cases h
  all_goals
    rename_i literal
    rw [number, literal]
    simp [fieldRows, fieldRow, fieldOf, fieldAddr, Buffer.base, Field.low, Field.bits, Field.need]

/-- A selector in no row of the table names no field. -/
theorem fieldSel?_eq_none {sel : Byte} (h : ∀ r ∈ fieldRows, r.sel ≠ sel) : fieldSel? sel = none :=
  Option.eq_none_iff_forall_ne_some.2 fun _ hg => h _ (fieldRow_mem hg) rfl

/-! ### A field as a number (R12, R14, R78) -/

theorem beNat_eq_foldl (acc : Nat) (bs : List Byte) : beNat acc bs = bs.foldl (fun n b => n * 256 + b.toNat) acc := by
  induction bs generalizing acc with
  | nil => rfl
  | cons b bs ih => exact ih _

/-- A number read from `n` bytes has at most `8 * n` bits. -/
theorem beNat_lt (acc : Nat) (bs : List Byte) : beNat acc bs < (acc + 1) * 2 ^ (8 * bs.length) := by
  induction bs generalizing acc with
  | nil => simp [beNat]
  | cons b bs ih =>
    have hb := b.isLt
    calc beNat (acc * 256 + b.toNat) bs
        < (acc * 256 + b.toNat + 1) * 2 ^ (8 * bs.length) := ih _
      _ ≤ ((acc + 1) * 2 ^ 8) * 2 ^ (8 * bs.length) := Nat.mul_le_mul_right _ (by omega)
      _ = (acc + 1) * 2 ^ (8 * (bs.length + 1)) := by rw [Nat.mul_assoc, ← Nat.pow_add]; congr 2; omega

theorem fieldOf_bytes_le (g : FieldSel) : (fieldOf g).bytes ≤ 4 := by
  cases g <;> decide

/-- Taking the bits of a field from the number its bytes are is a division and a remainder (R142). -/
theorem takeSlice_ofNat {f : Field} {n : Nat} (four : f.bytes ≤ 4) (fits : n < 2 ^ (8 * f.bytes)) :
    takeSlice f.slice (BitVec.ofNat 32 n) = BitVec.ofNat 32 (n / 2 ^ f.low % 2 ^ f.bits) := by
  have word : n < 2 ^ 32 := fits.trans_le (Nat.pow_le_pow_right (by decide) (by omega))
  unfold takeSlice Field.low Field.bits
  cases f.slice with
  | none => simp only [Nat.pow_zero, Nat.div_one, Nat.mod_eq_of_lt fits]
  | some slice =>
    apply BitVec.eq_of_toNat_eq
    simp only [BitVec.toNat_setWidth, BitVec.extractLsb'_toNat, BitVec.toNat_ofNat, Nat.mod_eq_of_lt word,
      Nat.shiftRight_eq_div_pow]

/-- The value of a field is the number its bytes are, cut to the field's bits (R142). -/
theorem State.takeSlice_memRead (s : State) (g : FieldSel) :
    takeSlice (fieldOf g).slice (s.memRead (fieldAddr (fieldOf g)) (fieldOf g).bytes) =
      BitVec.ofNat 32 ((s.range (fieldAddr (fieldOf g)) (fieldOf g).bytes).foldl (fun n b => n * 256 + b.toNat) 0 /
        2 ^ (fieldOf g).low % 2 ^ (fieldOf g).bits) := by
  have fits := beNat_lt 0 (s.readBytes (fieldAddr (fieldOf g)) (fieldOf g).bytes)
  rw [Nat.zero_add, Nat.one_mul, State.length_readBytes] at fits
  rw [State.memRead, takeSlice_ofNat (fieldOf_bytes_le g) fits, beNat_eq_foldl, State.readBytes_eq_map, ← State.range]

/-! ### `RDF` (R142) -/

/-- A field is short exactly when `RXLEN` is below the length it needs (R143). -/
theorem State.fieldShort_iff (s : State) (f : Field) : s.fieldShort f = true ↔ s.rxlen.toNat < f.need := by
  rw [State.fieldShort, Field.need, decide_eq_true_iff]
  cases f.buf <;> simp

/-- `RDF` with the length the field needs returns the field and changes nothing else (R142). -/
theorem exec_rdf_long {s : State} {sel : Byte} {g : FieldSel} (hg : fieldSel? sel = some g)
    (long : (fieldOf g).need ≤ s.rxlen.toNat) :
    exec (.rdf sel) s =
      .next (s.respond (takeSlice (fieldOf g).slice (s.memRead (fieldAddr (fieldOf g)) (fieldOf g).bytes))) := by
  have received : ¬ s.fieldShort (fieldOf g) = true := (s.fieldShort_iff _).not.2 (not_lt.2 long)
  simp only [exec, execRdf, hg, if_neg received]

/-- `RDF` below the length the field needs raises `ShortDatagram` (R142, R216). -/
theorem exec_rdf_short {s : State} {sel : Byte} {g : FieldSel} (hg : fieldSel? sel = some g)
    (short : s.rxlen.toNat < (fieldOf g).need) : exec (.rdf sel) s = .next (s.raise .shortDatagram) := by
  simp only [exec, execRdf, hg, if_pos ((s.fieldShort_iff _).2 short)]

/-- `RDF` of a selector that names no field raises `IllegalField` (R142, R213). -/
theorem exec_rdf_illegal {sel : Byte} (h : fieldSel? sel = none) (s : State) :
    exec (.rdf sel) s = .next (s.raise .illegalField) := by
  simp only [exec, execRdf, h]

/-- Settles O55: a row of the table is the machine's own row of its selector, and a selector in no row names no field. -/
theorem rdfResult : Obligations.RdfResult := by
  intro s
  refine ⟨fun r hr long => ?_, fun r hr short => ?_, fun sel h => ?_, fun sel => packWord_eq_ofNat 0x41 sel 0⟩
  · obtain ⟨g, hg, row⟩ := eq_fieldRow_of_mem hr
    rw [row] at long ⊢
    exact (exec_rdf_long hg long).trans (by rw [s.takeSlice_memRead]; rfl)
  · obtain ⟨g, hg, row⟩ := eq_fieldRow_of_mem hr
    rw [row] at short ⊢
    exact exec_rdf_short hg short
  · exact exec_rdf_illegal (fieldSel?_eq_none h) s

end Sys2Proof.Machine
end

section
/-! PROOFS. The reply's length, class and descriptor (R141, R144 to R148): `SETRXLEN`, `CLASS`, `DESC`, the error-descriptor
table, and their words. -/

namespace Sys2Proof.Machine

/-! ### The error descriptor (R147, R148) -/

/-- The pair has a string of its own (R147): what `DESC_OF` tests for `CKNOWN`. -/
abbrev PairKnown (t c : Byte) : Prop := tkind t ≠ 0 ∧ c.toNat ∈ knownCodes t

theorem tkind_eq (t : Byte) :
    tkind t = if t.toNat = 3 then 1 else if t.toNat = 5 then 2 else if t.toNat = 11 then 3 else if t.toNat = 12 then 4
      else 0 := by
  rw [tkind]
  split <;> simp_all

theorem tkind_le (t : Byte) : tkind t ≤ 4 := by
  rw [tkind_eq]
  split_ifs <;> decide

/-- The pairs with a string of their own are those of the four lists (R147). -/
theorem pairKnown_iff (t c : Byte) :
    PairKnown t c ↔
      (t.toNat = 3 ∧ c.toNat ∈ [0, 1, 2, 3, 4, 5, 6, 7, 8, 11, 12, 13, 14, 15]) ∨
      (t.toNat = 5 ∧ c.toNat ∈ [1, 3]) ∨ (t.toNat = 11 ∧ c.toNat ∈ [0, 1]) ∨ (t.toNat = 12 ∧ c.toNat ∈ [0, 1, 2]) := by
  rw [PairKnown, tkind, knownCodes]
  split <;> simp_all

/-- The descriptor as a number: its fields do not overlap (R148). -/
theorem descOf_toNat (t c : Byte) :
    (descOf t c).toNat = t.toNat * 2 ^ 16 + c.toNat * 2 ^ 8 + (if PairKnown t c then 1 else 0) * 8 + tkind t := by
  have ht := t.isLt
  have hc := c.isLt
  have hk := tkind_le t
  have hn : (if PairKnown t c then 1 else 0) ≤ 1 := by split_ifs <;> decide
  have value : descOf t c =
      BitVec.ofNat 32 (t.toNat * 2 ^ 16 + c.toNat * 2 ^ 8 + (if PairKnown t c then 1 else 0) * 8 + tkind t) := rfl
  rw [value, BitVec.toNat_ofNat]
  omega

/-- The fields of the descriptor but bit 3: type, code and kind, zeros between and above them (R145, R148). -/
theorem descOf_fields (t c : Byte) :
    (descOf t c).extractLsb' 24 8 = 0 ∧ (descOf t c).extractLsb' 16 8 = t ∧ (descOf t c).extractLsb' 8 8 = c ∧
      (descOf t c).extractLsb' 4 4 = 0 ∧ ((descOf t c).extractLsb' 0 3).toNat = tkind t := by
  have ht := t.isLt
  have hc := c.isLt
  have hk := tkind_le t
  have hn : (if PairKnown t c then 1 else 0) ≤ 1 := by split_ifs <;> decide
  simp only [← BitVec.toNat_inj, BitVec.extractLsb'_toNat, Nat.shiftRight_eq_div_pow, descOf_toNat,
    BitVec.ofNat_eq_ofNat, BitVec.toNat_ofNat]
  omega

/-- Bit 3 of the descriptor is set exactly for the known pairs (R148). -/
theorem descOf_bit_three (t c : Byte) : (descOf t c).getLsbD 3 = true ↔ PairKnown t c := by
  have hk := tkind_le t
  rw [BitVec.getLsbD, Nat.testBit_eq_decide_div_mod_eq, decide_eq_true_iff, descOf_toNat]
  split_ifs with known
  · exact iff_of_true (by omega) known
  · exact iff_of_false (by omega) known

/-! ### `SETRXLEN` (R141) -/

theorem loByte_eq_setWidth (v : Half) : loByte v = v.setWidth 8 :=
  BitVec.eq_of_toNat_eq (by rw [loByte_toNat, BitVec.toNat_setWidth])

/-- `SETRXLEN` above 92 raises `LengthRange` (R141, R214). -/
theorem exec_setrxlen_long {n : Half} (h : 92 < n.toNat) (s : State) :
    exec (.setrxlen n) s = .next (s.raise .lengthRange) := if_pos h

/-- Settles O54: a length up to 92 is written to `RXLEN`, a longer one raises the cause. -/
theorem setrxlenResult : Obligations.SetrxlenResult := by
  intro s n
  refine ⟨fun fits => ?_, fun long => exec_setrxlen_long long s, packWord_eq_ofNat 0x40 0 n⟩
  rw [exec_after, State.after_setrxlen fits, loByte_eq_setWidth]
  rfl

/-! ### `CLASS` and `DESC` (R144, R145) -/

theorem State.hasTypeCode_iff (s : State) : s.hasTypeCode = true ↔ 22 ≤ s.rxlen.toNat := decide_eq_true_iff

/-- The class by the numbers of type and code (R146). -/
theorem clsOf_eq (t c : Byte) :
    clsOf t c = if t.toNat = 0 ∧ c.toNat = 0 then 0 else if t.toNat = 8 ∧ c.toNat = 0 then 1 else 2 := by
  simp only [clsOf, Config.echoReply, Config.echoRequest, ← BitVec.toNat_inj, BitVec.ofNat_eq_ofNat, BitVec.toNat_ofNat]

/-- `CLASS` of a datagram whose type and code are received returns their class (R144). -/
theorem exec_classify_long {s : State} (long : 22 ≤ s.rxlen.toNat) :
    exec .classify s = .next (s.respond (clsOf (s.readByte 0x94) (s.readByte 0x95))) := by
  simp [exec, execClass, s.hasTypeCode_iff.2 long, State.rxByte]

/-- `CLASS` of a shorter datagram raises `ShortDatagram` (R144, R216). -/
theorem exec_classify_short {s : State} (short : s.rxlen.toNat < 22) :
    exec .classify s = .next (s.raise .shortDatagram) := by
  simp [exec, execClass, s.hasTypeCode_iff, short]

/-- `DESC` of a datagram whose type and code are received returns their descriptor (R145). -/
theorem exec_desc_long {s : State} (long : 22 ≤ s.rxlen.toNat) :
    exec .desc s = .next (s.respond (descOf (s.readByte 0x94) (s.readByte 0x95))) := by
  simp [exec, execDesc, s.hasTypeCode_iff.2 long, State.rxByte]

/-- `DESC` of a shorter datagram raises `ShortDatagram` (R145, R216). -/
theorem exec_desc_short {s : State} (short : s.rxlen.toNat < 22) : exec .desc s = .next (s.raise .shortDatagram) := by
  simp [exec, execDesc, s.hasTypeCode_iff, short]

/-- Settles O56: the class by the two bytes, or `ShortDatagram`. -/
theorem classResult : Obligations.ClassResult := by
  refine ⟨by decide, fun s => ⟨fun long => ?_, exec_classify_short⟩⟩
  rw [exec_classify_long long, clsOf_eq]
  rfl

/-- Settles O57: the fields of the descriptor, its bit 3 for the pairs of the table, and its kind. -/
theorem descResult : Obligations.DescResult := by
  refine ⟨by decide, fun s => ⟨fun long => ⟨_, exec_desc_long long, ?_⟩, exec_desc_short⟩⟩
  obtain ⟨top, type, code, middle, kind⟩ := descOf_fields (s.readByte 0x94) (s.readByte 0x95)
  exact ⟨top, type, code, middle, (descOf_bit_three _ _).trans (pairKnown_iff _ _), kind.trans (tkind_eq _)⟩

end Sys2Proof.Machine
end

section
/-! PROOFS. The system and buffer commands (R160 to R164): what each leaves of the state, what it answers, and its word. -/

namespace Sys2Proof.Machine

/-! ### `SRST` (R161) -/

/-- `ESR` with a cause raised is not zero: the cause's bit stands in it (R210). -/
theorem esrAfter_ne_zero (e : Byte) (c : Cause) : esrAfter e c ≠ 0 := by
  intro zero
  have bit := getLsbD_esrAfter e c (causeCode c)
  simp [zero] at bit

/-- A command but `SRST` keeps `ESR` or raises a cause on it (R26, R33). -/
theorem exec_esr {i : Instr} {s t : State} (hi : i ≠ .srst) (h : exec i s = .next t) :
    t.esr = s.esr ∨ ∃ c, t.esr = esrAfter s.esr c := by
  obtain ⟨c, rfl⟩ | ⟨u, v, effect, rfl⟩ := exec_next h
  · exact .inr ⟨c, rfl⟩
  · obtain ⟨-, -, -, -, -, esr, -⟩ := effect.frame
    exact .inl (esr (writesOf_esr hi)).symm

/-- Settles O31: a command but `SRST` keeps `ESR`, or leaves the bit of a cause in it. -/
theorem srstResult : Obligations.SrstResult := by
  refine ⟨fun s => rfl, fun i s t h recorded cleared => ?_, rfl⟩
  by_contra hi
  obtain kept | ⟨c, raised⟩ := exec_esr hi h
  · exact recorded (kept ▸ cleared)
  · exact esrAfter_ne_zero s.esr c (raised ▸ cleared)

/-! ### `NOP` (R160) -/

/-- Settles O30: the word of a decoded `NOP` is the word `NOP` encodes to. -/
theorem nopResult : Obligations.NopResult := by
  refine ⟨fun s => rfl, fun w => ⟨fun h => ?_, fun h => h ▸ decodeInvertsEncode .nop rfl⟩⟩
  obtain ⟨-, word⟩ := encodeInvertsDecode w .nop h
  exact word.symm

/-! ### `RDS` (R162) -/

/-- The register selectors are 0 to 4 (R32). -/
theorem regSel?_eq_none {sel : Byte} (h : 0x04 < sel.toNat) : regSel? sel = none := by
  rw [regSel?]
  split
  -- the five selectors, then the others
  iterate 5 omega
  rfl

/-- `RDS` of a selector that names a register returns it and changes nothing (R162). -/
theorem exec_rds_reg {sel : Byte} {r : RegSel} (h : regSel? sel = some r) (s : State) :
    exec (.rds sel) s = .next (s.respond (s.readReg r)) := by
  simp only [exec, execRds, h]

/-- `RDS` of any other selector raises `IllegalField` (R162, R213). -/
theorem exec_rds_illegal {sel : Byte} (h : regSel? sel = none) (s : State) :
    exec (.rds sel) s = .next (s.raise .illegalField) := by
  simp only [exec, execRds, h]

/-- `CKST` is `PHASE` above the eight bits of `HOLD` (R32). -/
theorem State.readReg_ckst (s : State) : s.readReg .ckst = BitVec.ofNat 32 (s.phase.toNat * 256 + s.hold.toNat) := by
  have byte := s.hold.isLt
  have bit := s.phase.toNat_lt
  apply BitVec.eq_of_toNat_eq
  rw [State.readReg, BitVec.toNat_setWidth, BitVec.toNat_append, ← Nat.shiftLeft_add_eq_or_of_lt byte, Nat.shiftLeft_eq,
    BitVec.toNat_ofBool, BitVec.toNat_ofNat]

/-- Settles O32: the five register selectors, and those that name no register. -/
theorem rdsResult : Obligations.RdsResult := by
  intro s
  have ckst : exec (.rds 0x03) s = .next (s.respond (s.readReg .ckst)) := exec_rds_reg rfl s
  rw [s.readReg_ckst] at ckst
  exact ⟨exec_rds_reg (r := .esr) rfl s, exec_rds_reg (r := .ckr) rfl s, exec_rds_reg (r := .acc) rfl s, ckst,
    exec_rds_reg (r := .rxlen) rfl s,
    fun sel => ⟨fun h => exec_rds_illegal (regSel?_eq_none h) s, packWord_eq_ofNat 0x02 sel 0⟩⟩

/-! ### `STB` and `LDB` (R163, R164) -/

/-- An address in neither window is a hole (R50). -/
theorem implemented_eq_false {a : Nat} (hole : ¬ (a ≤ 0x47 ∨ (0x80 ≤ a ∧ a ≤ 0xDB))) : implemented a = false :=
  Bool.eq_false_iff.2 ((implemented_iff a).not.2 hole)

/-- Settles O33: the write of one byte, or `AddressRange` for a hole. -/
theorem stbResult : Obligations.StbResult := by
  intro s a imm
  refine ⟨fun impl => ⟨_, exec_after _ s, ?_⟩, fun hole => ?_, fun _ => packWord_eq_ofNat 0x20 a imm⟩
  · rw [s.after_stb imm ((implemented_iff _).2 impl), loByte_eq_setWidth]
    exact ⟨rfl, s.readByte_writeByte a.toNat _⟩
  · rw [exec_after, s.after_stb_hole imm (implemented_eq_false hole)]
    rfl

/-- `LDB` of a hole raises `AddressRange` (R164, R215). -/
theorem exec_ldb_hole {a : Byte} (hole : implemented a.toNat = false) (s : State) :
    exec (.ldb a) s = .next (s.raise .addressRange) := by
  simp [exec, execLdb, hole]

/-- Settles O34: the two tests of R66 in their order, then the read of one byte. -/
theorem ldbResult : Obligations.LdbResult := by
  intro s a
  refine ⟨fun rec => ?_, fun hole => exec_ldb_hole (implemented_eq_false hole) s, fun low high short => ?_,
    packWord_eq_ofNat 0x21 a 0⟩
  · rw [exec_after, s.after_ldb ((implemented_iff _).2 (by omega)) ((s.received_iff _).2 (by omega))]
    rfl
  · have notReceived : s.received a.toNat = false :=
      Bool.eq_false_iff.2 fun rec => (s.received_iff _).1 rec ⟨low, high, short⟩
    exact exec_ldb_short ((implemented_iff _).2 (.inr ⟨low, high⟩)) notReceived

end Sys2Proof.Machine
end

section
/-! PROOFS. The host's run (R182 to R187): what it receives, the three answers to `CLASS` and the datagram too short for it,
how an attempt ends, the messages numbered from 1, and a run as its successes and what follows them. -/

namespace Sys2Proof.Machine

/-! ### Receiving a datagram (R185) -/

theorem State.afterAll_hostReceive (s : State) (d : List Byte) :
    s.afterAll (hostReceive d) =
      ({ s.writeBytes 0x80 (d.take 92) with rxlen := BitVec.ofNat 8 (d.take 92).length } : State).respond 0 :=
  s.afterAll_ldrx (by simp)

/-- `RXLEN` is the number of bytes received, at most the first 92 (R185). -/
theorem State.rxlen_afterAll_hostReceive (s : State) (d : List Byte) :
    (s.afterAll (hostReceive d)).rxlen.toNat = min 92 d.length := by
  rw [s.afterAll_hostReceive, State.respond_rxlen, BitVec.toNat_ofNat, List.length_take]
  omega

theorem State.esr_afterAll_hostReceive (s : State) (d : List Byte) : (s.afterAll (hostReceive d)).esr = s.esr := by
  rw [s.afterAll_hostReceive, State.respond_esr, State.writeBytes_esr]

/-- A byte of the datagram stands at its place in `RXB` (R36, R185). -/
theorem State.readByte_afterAll_hostReceive (s : State) {d : List Byte} {i : Nat} {b : Byte} (room : i < 92)
    (h : d[i]? = some b) : (s.afterAll (hostReceive d)).readByte (0x80 + i) = b := by
  obtain ⟨inside, -⟩ := List.getElem?_eq_some_iff.1 h
  have length : (d.take 92).length = min 92 d.length := List.length_take
  rw [s.afterAll_hostReceive, State.readByte_respond, State.readByte_with_rxlen, State.readByte_writeBytes,
    if_pos (by omega), Nat.add_sub_cancel_left, List.getElem?_take_of_lt room, h, Option.getD_some]

/-- A receive writes `RXB` and no byte of the template (R185). -/
theorem SameTemplate.afterAll_hostReceive (s : State) (d : List Byte) : SameTemplate s (s.afterAll (hostReceive d)) := by
  intro a ha
  rw [s.afterAll_hostReceive, State.readByte_respond, State.readByte_with_rxlen]
  exact (s.readByte_writeBytes_of_outside _ _ _ (.inl (by omega))).symm

theorem SameTemplate.symm {s t : State} (h : SameTemplate s t) : SameTemplate t s := fun a ha => (h a ha).symm

/-! ### `CLASS` and `DESC` of a datagram received (R144, R145, R185) -/

section received

variable (s : State) {d : List Byte} {t c : Byte}

/-- A datagram that holds a type and a code has at least 22 bytes in `RXB`, the type and the code among them. -/
theorem State.received_type_code (h : Replies d t c) :
    22 ≤ (s.afterAll (hostReceive d)).rxlen.toNat ∧ (s.afterAll (hostReceive d)).readByte 0x94 = t ∧
      (s.afterAll (hostReceive d)).readByte 0x95 = c := by
  obtain ⟨long, type, code⟩ := h
  rw [s.rxlen_afterAll_hostReceive]
  exact ⟨by omega, s.readByte_afterAll_hostReceive (by decide) type, s.readByte_afterAll_hostReceive (by decide) code⟩

theorem State.after_classify_received (h : Replies d t c) :
    (s.afterAll (hostReceive d)).after .classify = (s.afterAll (hostReceive d)).respond (clsOf t c) := by
  obtain ⟨long, type, code⟩ := s.received_type_code h
  rw [← type, ← code]
  exact Host.Outcome.next.inj ((exec_after _ _).symm.trans (exec_classify_long long))

theorem State.after_classify_received_short (short : d.length < 22) :
    (s.afterAll (hostReceive d)).after .classify = (s.afterAll (hostReceive d)).raise .shortDatagram := by
  have few : (s.afterAll (hostReceive d)).rxlen.toNat < 22 := by rw [s.rxlen_afterAll_hostReceive]; omega
  exact Host.Outcome.next.inj ((exec_after _ _).symm.trans (exec_classify_short few))

/-- `DESC` behind the `CLASS` of a datagram answers the descriptor of its type and code. -/
theorem State.after_desc_received (h : Replies d t c) (v : Word) :
    ((s.afterAll (hostReceive d)).respond v).after .desc = (s.afterAll (hostReceive d)).respond (descOf t c) := by
  obtain ⟨long, type, code⟩ := s.received_type_code h
  have answer := exec_desc_long (s := (s.afterAll (hostReceive d)).respond v) long
  rw [State.readByte_respond, State.readByte_respond, type, code] at answer
  exact Host.Outcome.next.inj ((exec_after _ _).symm.trans answer)

/-! ### What the host makes of a datagram (R185) -/

/-- Steps 4 and 5 by the response to `CLASS` (R185). -/
theorem hostClassify_of_class {u : State} (answer : (s.afterAll (hostReceive d)).after .classify = u) :
    hostClassify d s =
      match hostAfterClass u.response with
      | .goOn => ⟨(hostReceive d ++ [Instr.classify]).map .issue, none, u⟩
      | .halt r => ⟨(hostReceive d ++ [Instr.classify]).map .issue, some r, u⟩
      | .describe =>
        ⟨(hostReceive d ++ [Instr.classify, .desc]).map .issue, some (.errorReply (u.after .desc).response.val),
          u.after .desc⟩ := by
  have block : s.afterAll (hostReceive d ++ [.classify]) = u := by rw [State.afterAll_append, ← answer]; rfl
  simp only [hostClassify, block]
  cases hostAfterClass u.response <;> simp

theorem hostClassify_short (short : d.length < 22) :
    hostClassify d s = ⟨(hostReceive d ++ [Instr.classify]).map .issue, some (.fatal .shortDatagram),
      (s.afterAll (hostReceive d)).raise .shortDatagram⟩ :=
  hostClassify_of_class s (s.after_classify_received_short short)

theorem hostClassify_success (h : Replies d 0 0) :
    hostClassify d s = ⟨(hostReceive d ++ [Instr.classify]).map .issue, none, (s.afterAll (hostReceive d)).respond 0⟩ :=
  hostClassify_of_class s (s.after_classify_received h)

theorem hostClassify_selfEcho (h : Replies d 8 0) :
    hostClassify d s = ⟨(hostReceive d ++ [Instr.classify]).map .issue, some .selfEcho,
      (s.afterAll (hostReceive d)).respond 1⟩ :=
  hostClassify_of_class s (s.after_classify_received h)

theorem hostClassify_errorReply (h : Replies d t c) (error : ¬ ((t = 0 ∨ t = 8) ∧ c = 0)) :
    hostClassify d s = ⟨(hostReceive d ++ [Instr.classify, .desc]).map .issue, some (.errorReply (descOf t c)),
      (s.afterAll (hostReceive d)).respond (descOf t c)⟩ := by
  have two : clsOf t c = 2 := by
    rw [clsOf, if_neg fun ⟨zero, code⟩ => error ⟨.inl zero, code⟩,
      if_neg fun ⟨eight, code⟩ => error ⟨.inr eight, code⟩]
  have classified := s.after_classify_received h
  rw [two] at classified
  have described := hostClassify_of_class s classified
  rw [s.after_desc_received h] at described
  exact described

end received

/-! ### How an attempt ends (R183 to R185) -/

/-- What the network does with an attempt, and why the run stops with it: `none` where it does not. -/
inductive AttemptEnds : NetEvent → Option HostStop → Prop where
  | sendFailure : AttemptEnds .sendFailure (some (.fatal .send))
  | timeout : AttemptEnds .timeout (some .timedOut)
  | waitError : AttemptEnds .waitError (some (.fatal .wait))
  | readFailure : AttemptEnds .readFailure (some (.fatal .read))
  | short (d : List Byte) (h : d.length < 22) : AttemptEnds (.datagram d) (some (.fatal .shortDatagram))
  | success (d : List Byte) (h : Replies d 0 0) : AttemptEnds (.datagram d) none
  | selfEcho (d : List Byte) (h : Replies d 8 0) : AttemptEnds (.datagram d) (some .selfEcho)
  | errorReply (d : List Byte) (t c : Byte) (h : Replies d t c) (error : ¬ ((t = 0 ∨ t = 8) ∧ c = 0)) :
      AttemptEnds (.datagram d) (some (.errorReply (descOf t c)))

/-- Every attempt ends in one of these ways. -/
theorem exists_attemptEnds (e : NetEvent) : ∃ o, AttemptEnds e o := by
  cases e with
  | sendFailure => exact ⟨_, .sendFailure⟩
  | timeout => exact ⟨_, .timeout⟩
  | waitError => exact ⟨_, .waitError⟩
  | readFailure => exact ⟨_, .readFailure⟩
  | datagram d =>
    by_cases short : d.length < 22
    · exact ⟨_, .short d short⟩
    obtain ⟨t, c, replies⟩ : ∃ t c, Replies d t c :=
      ⟨d[20], d[21], by omega, List.getElem?_eq_getElem (by omega), List.getElem?_eq_getElem (by omega)⟩
    by_cases echo : (t = 0 ∨ t = 8) ∧ c = 0
    · obtain ⟨rfl | rfl, rfl⟩ := echo
      · exact ⟨_, .success d replies⟩
      · exact ⟨_, .selfEcho d replies⟩
    · exact ⟨_, .errorReply d t c replies echo⟩

theorem Replies.type_code_unique {d : List Byte} {t c t' c' : Byte} (h : Replies d t c) (h' : Replies d t' c') :
    t = t' ∧ c = c' := by
  obtain ⟨-, type, code⟩ := h
  obtain ⟨-, type', code'⟩ := h'
  exact ⟨Option.some.inj (type.symm.trans type'), Option.some.inj (code.symm.trans code')⟩

/-- An attempt that succeeds (R185). -/
abbrev Succeeds (e : NetEvent) : Prop := ∃ d, e = .datagram d ∧ Replies d 0 0

namespace AttemptEnds

variable {e : NetEvent} {o : Option HostStop}

/-- The block after an attempt holds the template that the attempt sent, and `ESR` as before but for the `CLASS` of too
short a datagram. -/
theorem hostAttempt_keeps (h : AttemptEnds e o) (s : State) :
    (hostAttempt e s).stop = o ∧ SameTemplate s (hostAttempt e s).block ∧
      (hostAttempt e s).block.esr = if o = some (.fatal .shortDatagram) then s.esr ||| 0x20 else s.esr := by
  obtain ⟨r, sent⟩ := s.afterAll_hostSend
  have template (d : List Byte) : SameTemplate s (({ s with rsp := r } : State).afterAll (hostReceive d)) :=
    SameTemplate.afterAll_hostReceive { s with rsp := r } d
  have esr (d : List Byte) : (({ s with rsp := r } : State).afterAll (hostReceive d)).esr = s.esr :=
    State.esr_afterAll_hostReceive _ d
  cases h with
  | sendFailure | timeout | waitError | readFailure =>
    rw [hostAttempt, sent]
    exact ⟨rfl, fun _ _ => rfl, rfl⟩
  | short d short =>
    rw [hostAttempt, sent, hostClassify_short _ short]
    exact ⟨rfl, template d, congrArg (esrAfter · .shortDatagram) (esr d)⟩
  | success d replies =>
    rw [hostAttempt, sent, hostClassify_success _ replies]
    exact ⟨rfl, template d, esr d⟩
  | selfEcho d replies =>
    rw [hostAttempt, sent, hostClassify_selfEcho _ replies]
    exact ⟨rfl, template d, esr d⟩
  | errorReply d t c replies error =>
    rw [hostAttempt, sent, hostClassify_errorReply _ replies error]
    exact ⟨rfl, template d, esr d⟩

theorem eq_none_iff (h : AttemptEnds e o) : o = none ↔ Succeeds e := by
  cases h with
  | sendFailure | timeout | waitError | readFailure => simp
  | short d short =>
    refine iff_of_false nofun fun ⟨_, same, replies⟩ => ?_
    cases same
    omega
  | success d replies => exact iff_of_true rfl ⟨d, rfl, replies⟩
  | selfEcho d replies =>
    refine iff_of_false nofun fun ⟨_, same, echo⟩ => ?_
    cases same
    exact absurd (replies.type_code_unique echo).1 (by decide)
  | errorReply d t c replies error =>
    refine iff_of_false nofun fun ⟨_, same, echo⟩ => ?_
    cases same
    obtain ⟨type, code⟩ := replies.type_code_unique echo
    exact error ⟨.inl type, code⟩

end AttemptEnds

/-! ### The commands of an attempt (R187) -/

/-- The stores of a datagram by index (R84). -/
theorem storeRx_eq_map (i : Nat) (bs : List Byte) :
    storeRx i bs =
      (List.range bs.length).map fun j => .stb (BitVec.ofNat 8 (0x80 + (i + j))) ((bs.getD j 0).setWidth 16) := by
  induction bs generalizing i with
  | nil => rfl
  | cons b bs ih =>
    rw [storeRx, ih, List.length_cons, List.range_succ_eq_map, List.map_cons, List.map_map]
    refine congrArg₂ List.cons rfl (List.map_congr_left fun j _ => ?_)
    simp only [Function.comp_apply, List.getD_cons_succ, Nat.succ_eq_add_one, Nat.add_assoc, Nat.add_comm 1 j]

/-- The trace of an attempt is the send, the receive and `CLASS` (R183, R185). -/
theorem attemptTrace_eq (d : List Byte) : attemptTrace d = hostSend ++ (hostReceive d ++ [.classify]) := by
  have length : (d.take 92).length = min d.length 92 := by rw [List.length_take, Nat.min_comm]
  have stores : storeRx 0 (d.take 92) = (List.range (min d.length 92)).map fun i =>
      .stb (BitVec.ofNat 8 (0x80 + i)) ((d.getD i 0).setWidth 16) := by
    rw [storeRx_eq_map, length]
    refine List.map_congr_left fun j hj => ?_
    have inside : j < 92 := by have := List.mem_range.1 hj; omega
    rw [Nat.zero_add, List.getD_eq_getElem?_getD, List.getElem?_take_of_lt inside, List.getD_eq_getElem?_getD]
  rw [hostReceive, Config.rxCap, ldrx, stores, length]
  simp [attemptTrace, sendTrace, hostSend]

theorem commands_hostAttempt_datagram (d : List Byte) (s : State) :
    (hostAttempt (.datagram d) s).actions.filterMap commandOf? =
      hostSend ++ (hostClassify d (s.afterAll hostSend)).actions.filterMap commandOf? := by
  simp [hostAttempt, List.filterMap_cons]

/-- An attempt whose `CLASS` is its last command (R187). -/
theorem commands_hostAttempt_classified {d : List Byte} {s u : State} {o : Option HostStop}
    (h : hostClassify d (s.afterAll hostSend) = ⟨(hostReceive d ++ [Instr.classify]).map .issue, o, u⟩) :
    (hostAttempt (.datagram d) s).actions.filterMap commandOf? = attemptTrace d := by
  rw [commands_hostAttempt_datagram, h, attemptTrace_eq]
  simp

theorem commands_hostAttempt_success {d : List Byte} (h : Replies d 0 0) (s : State) :
    (hostAttempt (.datagram d) s).actions.filterMap commandOf? = attemptTrace d :=
  commands_hostAttempt_classified (hostClassify_success _ h)

theorem commands_hostAttempt_selfEcho {d : List Byte} (h : Replies d 8 0) (s : State) :
    (hostAttempt (.datagram d) s).actions.filterMap commandOf? = attemptTrace d :=
  commands_hostAttempt_classified (hostClassify_selfEcho _ h)

theorem commands_hostAttempt_errorReply {d : List Byte} {t c : Byte} (h : Replies d t c)
    (error : ¬ ((t = 0 ∨ t = 8) ∧ c = 0)) (s : State) :
    (hostAttempt (.datagram d) s).actions.filterMap commandOf? = attemptTrace d ++ [.desc] := by
  rw [commands_hostAttempt_datagram, hostClassify_errorReply _ h error, attemptTrace_eq]
  simp

theorem commands_hostAttempt_timeout (s : State) :
    (hostAttempt .timeout s).actions.filterMap commandOf? = sendTrace := by
  simp [hostAttempt, List.filterMap_cons, sendTrace, hostSend]

/-! ### The messages, numbered from 1 (R182, R183, R186) -/

/-- A block that holds the message of attempt `k`: the template of `BUILD` with sequence number `k`, sealed. -/
def probe (pid k : Nat) : State :=
  ((State.reset.built Config.payloadInit (hostIdent pid)).writeField (fieldOf .tSeq) (BitVec.ofNat 16 k)).sealed

/-- `BUILD` makes the message of attempt 1 (R182). -/
theorem State.after_build_probe (s : State) (pid : Nat) : SameTemplate (s.after (.build (hostIdent pid))) (probe pid 1) :=
  ((s.after_build_template _).trans (SameTemplate.built s State.reset _ _).sealed).trans (State.built_tSeq _ _ _).sealed

/-- `NEXT` makes the message of the next attempt (R186). -/
theorem SameTemplate.after_next_probe {s : State} {pid k : Nat} (h : SameTemplate s (probe pid k)) :
    SameTemplate (s.after .nextSeq) (probe pid (k + 1)) := by
  have count : BitVec.ofNat 16 (k + 1) = BitVec.ofNat 16 k + 1 := BitVec.ofNat_add k 1
  rw [probe, count]
  exact (s.after_next_template.trans h.advanced.sealed).trans (State.advanced_sealed_tSeq _ _)

theorem csum_probe_txb (pid k : Nat) : csum (probe pid k).txb = 0 :=
  (State.sealed_isSealed _).csum_txb

/-- The bytes of a message but for the checksum: those of `BUILD`, the sequence number written over. -/
theorem readByte_probe (pid k : Nat) {x : Nat} (inside : x < 72) (outside : ¬ (x = 2 ∨ x = 3)) :
    (probe pid k).readByte x =
      if x = 6 then hiByte (BitVec.ofNat 16 k) else if x = 7 then loByte (BitVec.ofNat 16 k)
      else (templateBytes Config.payloadInit (hostIdent pid))[x]?.getD 0 := by
  rw [probe, State.readByte_sealed_of_outside _ x outside, ← State.readByte_built _ _ State.reset inside]
  exact State.readByte_writeField_half _ rfl _ x

/-- The message of attempt `k`: type 8, code 0, the checksum, the identifier, the sequence number, the payload (R85, R183). -/
theorem probe_txb (pid k : Nat) :
    (probe pid k).txb =
      [8, 0, (probe pid k).readByte 2, (probe pid k).readByte 3, hiByte (hostIdent pid), loByte (hostIdent pid),
        hiByte (BitVec.ofNat 16 k), loByte (BitVec.ofNat 16 k)] ++ (List.range 64).map Config.payloadInit := by
  have split (u : State) : u.txb = [u.readByte 0, u.readByte 1, u.readByte 2, u.readByte 3, u.readByte 4, u.readByte 5,
      u.readByte 6, u.readByte 7] ++ u.readBytes 8 64 := rfl
  have payload : (probe pid k).readBytes 8 64 = (List.range 64).map Config.payloadInit := by
    rw [State.readBytes_eq_map]
    refine List.map_congr_left fun j hj => ?_
    have inside : j < 64 := List.mem_range.1 hj
    rw [readByte_probe _ _ (by omega) (by omega), if_neg (by omega), if_neg (by omega), templateBytes_eq,
      List.getElem?_append_right (by simp)]
    simp [inside]
  have header (x : Nat) (hx : x < 6) (outside : ¬ (x = 2 ∨ x = 3)) : (probe pid k).readByte x =
      [8, 0, 0, 0, hiByte (hostIdent pid), loByte (hostIdent pid), 0, 1][x]?.getD 0 := by
    rw [readByte_probe _ _ (by omega) outside, if_neg (by omega), if_neg (by omega), templateBytes_eq,
      List.getElem?_append_left (by simp; omega)]
  rw [split, payload, header 0 (by decide) (by decide), header 1 (by decide) (by decide), header 4 (by decide) (by decide),
    header 5 (by decide) (by decide), readByte_probe pid k (x := 6) (by decide) (by decide),
    readByte_probe pid k (x := 7) (by decide) (by decide)]
  rfl

theorem hiByte_ofNat (n : Nat) : hiByte (BitVec.ofNat 16 n) = BitVec.ofNat 8 (n / 256) :=
  BitVec.eq_of_toNat_eq (by rw [hiByte_toNat, BitVec.toNat_ofNat, BitVec.toNat_ofNat]; omega)

theorem loByte_ofNat (n : Nat) : loByte (BitVec.ofNat 16 n) = BitVec.ofNat 8 n :=
  BitVec.eq_of_toNat_eq (by rw [loByte_toNat, BitVec.toNat_ofNat, BitVec.toNat_ofNat]; omega)

/-! ### A run as its successes and what follows (R186) -/

/-- The run `r` issues the commands `cs`, sends the messages `ms`, each answered, and goes on as the run `rest`. -/
structure GoesOn (cs : List Instr) (ms : List (List Byte)) (rest r : HostRun) : Prop where
  commands : r.commands = cs ++ rest.commands
  sent : r.sent = ms ++ rest.sent
  received : r.received = ms.length + rest.received
  stop : r.stop = rest.stop
  block : r.block = rest.block

theorem GoesOn.trans {cs cs' : List Instr} {ms ms' : List (List Byte)} {r r' r'' : HostRun} (h : GoesOn cs ms r' r)
    (h' : GoesOn cs' ms' r'' r') : GoesOn (cs ++ cs') (ms ++ ms') r'' r where
  commands := by rw [h.commands, h'.commands, List.append_assoc]
  sent := by rw [h.sent, h'.sent, List.append_assoc]
  received := by rw [h.received, h'.received, List.length_append, Nat.add_assoc]
  stop := h.stop.trans h'.stop
  block := h.block.trans h'.block

/-- A run begins with `BUILD` and no message (R182). -/
theorem hostRun_goesOn (pid : Nat) (net : Nat → NetEvent) (s : State) :
    GoesOn [.build (hostIdent pid)] [] (hostAttempts net 5 1 (s.after (.build (hostIdent pid)))) (hostRun pid net s) where
  commands := rfl
  sent := rfl
  received := (Nat.zero_add _).symm
  stop := rfl
  block := rfl

/-- An attempt that succeeds: its message is answered, and the next attempt follows behind the advance (R185, R186). -/
theorem hostAttempts_goesOn {net : Nat → NetEvent} {k : Nat} {d : List Byte} (hd : net k = .datagram d) (h : Replies d 0 0)
    (left : Nat) (s : State) :
    GoesOn (attemptTrace d ++ hostAdvance k) [s.txb]
      (hostAttempts net left (k + 1) ((hostAttempt (net k) s).block.afterAll (hostAdvance k)))
      (hostAttempts net (left + 1) k s) := by
  obtain ⟨goOn, -, -⟩ := (AttemptEnds.success d h).hostAttempt_keeps s
  have commands := commands_hostAttempt_success h s
  rw [← hd] at goOn commands
  have pauseCommands : (hostPause k).filterMap commandOf? = [] := by unfold hostPause; split <;> rfl
  have pauseMessages : (hostPause k).filterMap messageOf? = [] := by unfold hostPause; split <;> rfl
  simp only [hostAttempts, goOn]
  constructor
  · simp [HostRun.commands, commands, pauseCommands]
  · simp [HostRun.sent, pauseMessages, -List.filterMap_eq_nil_iff]
  · exact Nat.add_comm _ _
  · rfl
  · rfl

/-- An attempt that stops the run is its last (R184, R185). -/
theorem hostAttempts_stops {net : Nat → NetEvent} {k : Nat} {s : State} {r : HostStop}
    (h : (hostAttempt (net k) s).stop = some r) (left : Nat) :
    hostAttempts net (left + 1) k s = ⟨(hostAttempt (net k) s).actions, 0, r, (hostAttempt (net k) s).block⟩ := by
  simp only [hostAttempts, h]

theorem State.esr_after_build (s : State) (ident : Half) : (s.after (.build ident)).esr = s.esr := by
  simp [State.after, exec, execBuild]

theorem State.esr_after_next (s : State) : (s.after .nextSeq).esr = s.esr := by
  simp [State.after, exec, execNext]

/-- The advance behind attempt `k` makes the message of the next attempt, if there is one (R186, D20). -/
theorem State.afterAll_hostAdvance {s : State} {pid k : Nat} (five : k ≤ 5) (h : SameTemplate s (probe pid k)) :
    SameTemplate (s.afterAll (hostAdvance k)) (probe pid (min (k + 1) 5)) ∧ (s.afterAll (hostAdvance k)).esr = s.esr := by
  by_cases last : k < 5
  · have advance : hostAdvance k = [.nextSeq] := if_pos last
    rw [advance, Nat.min_eq_left last]
    exact ⟨h.after_next_probe, s.esr_after_next⟩
  · have advance : hostAdvance k = [] := if_neg last
    have fifth : min (k + 1) 5 = k := by omega
    rw [advance, fifth]
    exact ⟨h, rfl⟩

/-- After `m` successes a run has issued their commands and sent the messages 1 to `m`, and the block holds the next message
or, after the fifth, still that one. -/
theorem hostRun_after_successes (pid : Nat) (net : Nat → NetEvent) (s : State) (ds : Nat → List Byte) (m : Nat)
    (five : m ≤ 5) (h : ∀ k, 1 ≤ k → k ≤ m → net k = .datagram (ds k) ∧ Replies (ds k) 0 0) :
    ∃ t, GoesOn (successTrace pid ds m) ((List.range m).map fun j => (probe pid (j + 1)).txb)
        (hostAttempts net (5 - m) (m + 1) t) (hostRun pid net s) ∧
      SameTemplate t (probe pid (min (m + 1) 5)) ∧ t.esr = s.esr := by
  induction m with
  | zero =>
    rw [Nat.min_eq_left (by decide)]
    exact ⟨_, hostRun_goesOn pid net s, s.after_build_probe pid, s.esr_after_build _⟩
  | succ m ih =>
    obtain ⟨t, before, template, esr⟩ := ih (by omega) fun k one le => h k one (by omega)
    obtain ⟨hd, replies⟩ := h (m + 1) (by omega) le_rfl
    rw [Nat.min_eq_left five] at template
    obtain ⟨-, kept, keptEsr⟩ := (AttemptEnds.success _ replies).hostAttempt_keeps t
    rw [← hd] at kept keptEsr
    obtain ⟨next, nextEsr⟩ := State.afterAll_hostAdvance five (kept.symm.trans template)
    have left : 5 - m = 5 - (m + 1) + 1 := by omega
    have step := hostAttempts_goesOn hd replies (5 - (m + 1)) t
    rw [← left, template.txb] at step
    refine ⟨_, ?_, next, nextEsr.trans (keptEsr.trans esr)⟩
    have run := before.trans step
    rw [successTrace, List.range_succ, List.flatMap_append, List.map_append]
    simpa [successTrace, hostAdvance] using run

/-! ### The trace of a run (R187) -/

/-- A run that stops with the attempt behind its `m` successes issues the commands of that attempt and no more. -/
theorem GoesOn.stops {cs : List Instr} {ms : List (List Byte)} {net : Nat → NetEvent} {m : Nat} {t : State} {r : HostRun}
    {stop : HostStop} (run : GoesOn cs ms (hostAttempts net (5 - m) (m + 1) t) r) (before : m < 5)
    (h : (hostAttempt (net (m + 1)) t).stop = some stop) :
    r.commands = cs ++ (hostAttempt (net (m + 1)) t).actions.filterMap commandOf? ∧ r.sent = ms ++ [t.txb] ∧
      r.received = ms.length ∧ r.stop = stop ∧ r.block = (hostAttempt (net (m + 1)) t).block := by
  have left : 5 - m = 5 - (m + 1) + 1 := by omega
  rw [left] at run
  obtain ⟨sent, received, stopped⟩ := hostAttempts_stopped net (5 - (m + 1)) (m + 1) t h
  have last := hostAttempts_stops h (5 - (m + 1))
  refine ⟨?_, by rw [run.sent, sent], by rw [run.received, received, Nat.add_zero], run.stop.trans stopped, ?_⟩
  · rw [run.commands, last, HostRun.commands]
  · rw [run.block, last]

/-- Settles O59: the run is its `m` successes and, short of the cap, the attempt that stops it. -/
theorem commandTraceOfAWholeRun : Obligations.CommandTraceOfAWholeRun := by
  intro pid net s ds m five h
  obtain ⟨t, run, -, -⟩ := hostRun_after_successes pid net s ds m five h
  refine ⟨fun cap => ?_, fun before => ⟨fun d hd echo => ?_, fun d type code hd replies error => ?_, fun hd => ?_⟩⟩
  · subst cap
    exact ⟨run.commands.trans (List.append_nil _), run.stop⟩
  · obtain ⟨stop, -, -⟩ := (AttemptEnds.selfEcho d echo).hostAttempt_keeps t
    obtain ⟨commands, -, -, stopped, -⟩ := run.stops before (hd ▸ stop)
    rw [commands, hd, commands_hostAttempt_selfEcho echo]
    exact ⟨rfl, stopped⟩
  · obtain ⟨stop, -, -⟩ := (AttemptEnds.errorReply d type code replies error).hostAttempt_keeps t
    obtain ⟨commands, -, -, stopped, -⟩ := run.stops before (hd ▸ stop)
    rw [commands, hd, commands_hostAttempt_errorReply replies error, List.append_assoc]
    exact ⟨rfl, stopped⟩
  · obtain ⟨stop, -, -⟩ := AttemptEnds.timeout.hostAttempt_keeps t
    obtain ⟨commands, -, -, stopped, -⟩ := run.stops before (hd ▸ stop)
    rw [commands, hd, commands_hostAttempt_timeout]
    exact ⟨rfl, stopped⟩

/-! ### Whatever the network does (R183 to R186, R194, R198) -/

/-- The end of a run of `n` messages: the attempts before the last succeeded, the last ended with `o`, and it succeeded only
as the fifth. -/
structure RunEnds (pid : Nat) (net : Nat → NetEvent) (s : State) (n : Nat) (o : Option HostStop) (r : HostRun) : Prop where
  pos : 1 ≤ n
  cap : n ≤ 5
  replied : ∀ k, 1 ≤ k → k < n → Succeeds (net k)
  ends : AttemptEnds (net n) o
  fifth : o = none → n = 5
  sent : r.sent = (List.range n).map fun j => (probe pid (j + 1)).txb
  stop : r.stop = o.getD .capReached
  received : r.received = if o = none then 5 else n - 1
  template : SameTemplate r.block (probe pid n)
  esr : r.block.esr = if o = some (.fatal .shortDatagram) then s.esr ||| 0x20 else s.esr

/-- Attempts 1 to `m` succeed. -/
abbrev SucceedsTo (net : Nat → NetEvent) (m : Nat) : Prop := ∀ k, 1 ≤ k → k ≤ m → Succeeds (net k)

/-- Attempts succeed up to the fifth or up to one that does not. -/
theorem exists_last_success (net : Nat → NetEvent) :
    ∃ m ≤ 5, SucceedsTo net m ∧ (m < 5 → ¬ Succeeds (net (m + 1))) := by
  classical
  have first : SucceedsTo net (Nat.findGreatest (SucceedsTo net) 5) :=
    Nat.findGreatest_spec (Nat.zero_le 5) fun k one zero => by omega
  refine ⟨_, Nat.findGreatest_le 5, first, fun before next => ?_⟩
  refine Nat.findGreatest_is_greatest (Nat.lt_succ_self _) before fun k one le => ?_
  obtain le | rfl := Nat.le_or_eq_of_le_succ le
  · exact first k one le
  · exact next

/-- Every run ends in this way. -/
theorem exists_runEnds (pid : Nat) (net : Nat → NetEvent) (s : State) :
    ∃ n o, RunEnds pid net s n o (hostRun pid net s) := by
  obtain ⟨m, five, successes, failure⟩ := exists_last_success net
  choose! ds hds using successes
  obtain ⟨t, run, template, esr⟩ := hostRun_after_successes pid net s ds m five hds
  by_cases before : m < 5
  · rw [Nat.min_eq_left before] at template
    obtain ⟨o, ends⟩ := exists_attemptEnds (net (m + 1))
    obtain ⟨r, rfl⟩ : ∃ r, o = some r :=
      Option.ne_none_iff_exists'.1 fun success => failure before (ends.eq_none_iff.1 success)
    obtain ⟨stop, kept, keptEsr⟩ := ends.hostAttempt_keeps t
    obtain ⟨-, sent, received, stopped, block⟩ := run.stops before stop
    have replied : ∀ k, 1 ≤ k → k < m + 1 → Succeeds (net k) := fun k one less => ⟨_, hds k one (by omega)⟩
    refine ⟨m + 1, some r, ⟨by omega, before, replied, ends, nofun, ?_, stopped, ?_, ?_, ?_⟩⟩
    · rw [sent, template.txb, List.range_succ, List.map_append]
      rfl
    · rw [received, List.length_map, List.length_range, if_neg nofun, Nat.add_sub_cancel]
    · rw [block]
      exact kept.symm.trans template
    · rw [block, keptEsr, esr]
  · obtain rfl : m = 5 := by omega
    obtain ⟨hd, replies⟩ := hds 5 (by decide) le_rfl
    have replied : ∀ k, 1 ≤ k → k < 5 → Succeeds (net k) := fun k one less => ⟨_, hds k one less.le⟩
    refine ⟨5, none, ⟨by decide, le_rfl, replied, hd ▸ .success _ replies, fun _ => rfl,
      run.sent.trans (List.append_nil _), run.stop, run.received, ?_, ?_⟩⟩
    · rw [run.block]
      exact template
    · rw [run.block]
      exact esr

namespace AttemptEnds

variable {e : NetEvent} {o : Option HostStop}

/-- The stop of an attempt tells what the network did, for the failures of R183 to R185 and the timeout. -/
theorem stop_iff (h : AttemptEnds e o) :
    (e = .sendFailure ↔ o.getD .capReached = .fatal .send) ∧ (e = .waitError ↔ o.getD .capReached = .fatal .wait) ∧
      (e = .readFailure ↔ o.getD .capReached = .fatal .read) ∧ (e = .timeout ↔ o.getD .capReached = .timedOut) ∧
      (o.getD .capReached = .capReached ↔ o = none) := by
  cases h <;> simp

/-- A run stops with `ShortDatagram` exactly for a datagram of fewer than 22 bytes (R185, D11). -/
theorem short_iff (h : AttemptEnds e o) :
    (∃ d, e = .datagram d ∧ d.length < 22) ↔ o.getD .capReached = .fatal .shortDatagram := by
  cases h with
  | sendFailure | timeout | waitError | readFailure => simp
  | short d short => exact iff_of_true ⟨d, rfl, short⟩ rfl
  | success d replies | selfEcho d replies | errorReply d t c replies error =>
    obtain ⟨long, -, -⟩ := replies
    simp [long]

theorem eq_shortDatagram_iff (h : AttemptEnds e o) :
    o = some (.fatal .shortDatagram) ↔ o.getD .capReached = .fatal .shortDatagram := by
  cases h <;> simp

end AttemptEnds

/-- The block at the end of a run is the block after the commands issued. -/
theorem hostRun_block (pid : Nat) (net : Nat → NetEvent) (s : State) :
    (hostRun pid net s).block = s.afterAll (hostRun pid net s).commands := by
  have run := hostRun_goesOn pid net s
  rw [run.block, run.commands, State.afterAll_append, hostAttempts_block]
  rfl

/-- The message of attempt `k` as the host sends it: 72 bytes of an Echo Request that verifies, with the process id and `k` in
16 bits each (R85, R183, R196). -/
theorem probe_message (pid k : Nat) (small : k < 256) :
    (probe pid k).txb.length = 72 ∧ (probe pid k).txb.take 2 = [8, 0] ∧ csum (probe pid k).txb = 0 ∧
      ((probe pid k).txb.drop 4).take 4 = [BitVec.ofNat 8 (pid / 256), BitVec.ofNat 8 pid, 0, BitVec.ofNat 8 k] ∧
      (probe pid k).txb.drop 8 = (List.range 64).map Config.payloadInit := by
  have high : hiByte (BitVec.ofNat 16 k) = 0 := (hiByte_ofNat k).trans (by rw [Nat.div_eq_of_lt small]; rfl)
  refine ⟨State.length_readBytes _ _ _, ?_, csum_probe_txb pid k, ?_, ?_⟩
  · rw [probe_txb]
    rfl
  · rw [probe_txb, high, loByte_ofNat, hostIdent, hiByte_ofNat, loByte_ofNat]
    rfl
  · rw [probe_txb]
    rfl

namespace RunEnds

variable {pid : Nat} {net : Nat → NetEvent} {s : State} {n : Nat} {o : Option HostStop} {r : HostRun}

theorem sent_length (h : RunEnds pid net s n o r) : r.sent.length = n := by
  rw [h.sent, List.length_map, List.length_range]

theorem sent_getElem (h : RunEnds pid net s n o r) {k : Nat} (hk : k < r.sent.length) :
    r.sent[k] = (probe pid (k + 1)).txb := by
  simp [h.sent]

/-- The last message sent is the one the block holds at the end. -/
theorem sent_getLast? (h : RunEnds pid net s n o r) : r.sent.getLast? = some r.block.txb := by
  have last := h.pos
  rw [List.getLast?_eq_getElem?, h.sent_length, h.sent, h.template.txb, List.getElem?_map,
    List.getElem?_range (by omega), Option.map_some, Nat.sub_add_cancel last]

theorem capReached_iff (h : RunEnds pid net s n o r) : r.stop = .capReached ↔ o = none := by
  obtain ⟨-, -, -, -, capReached⟩ := h.ends.stop_iff
  rw [h.stop, capReached]

theorem shortDatagram_iff (h : RunEnds pid net s n o r) :
    r.stop = .fatal .shortDatagram ↔ o = some (.fatal .shortDatagram) := by
  rw [h.stop, h.ends.eq_shortDatagram_iff]

/-- The cap is reached exactly by a fifth success (R186). -/
theorem capReached_iff_fifth (h : RunEnds pid net s n o r) : r.stop = .capReached ↔ n = 5 ∧ Succeeds (net 5) := by
  rw [h.capReached_iff]
  refine ⟨fun success => ?_, fun ⟨five, success⟩ => h.ends.eq_none_iff.2 (five ▸ success)⟩
  have five := h.fifth success
  exact ⟨five, five ▸ h.ends.eq_none_iff.1 success⟩

end RunEnds

/-- Settles O60: a run is its successes and its end; the messages are those of `BUILD` with their numbers. -/
theorem whateverArrivesTheRunSendsNumberedMessages : Obligations.WhateverArrivesTheRunSendsNumberedMessages := by
  intro pid net s r n
  obtain ⟨m, o, run⟩ : ∃ m o, RunEnds pid net s m o r := exists_runEnds pid net s
  have length : n = m := run.sent_length
  have block : execAll r.commands s = .next r.block := by rw [execAll_afterAll, hostRun_block]
  have message (k : Nat) (h : k < r.sent.length) := probe_message pid (k + 1) (by have := run.cap; omega)
  obtain ⟨send, wait, read, timeout, -⟩ := run.ends.stop_iff
  have short := run.ends.short_iff
  rw [← run.stop, ← length] at send wait read timeout short
  refine ⟨block, length ▸ run.pos, length ▸ run.cap, fun k h => ?_, run.sent_getLast?, length ▸ run.replied,
    length ▸ run.capReached_iff_fifth, ?_, send, wait, read, timeout, short, ?_⟩
  · rw [run.sent_getElem]
    exact message k h
  · rw [run.received, length]
    simp only [run.capReached_iff]
  · rw [run.esr]
    simp only [run.shortDatagram_iff]

end Sys2Proof.Machine
end

section
/-! PROOFS. The causes of the commands (R210 to R217, R222): which cause a command raises by its operands and the state, what a
raised cause changes, and the words and states that raise each. -/

namespace Sys2Proof.Machine

/-! ### A fault, and nothing issued (R210, R230) -/

/-- Settles O17: however the word is answered, it raises a cause or responds with `ERR` 0. -/
theorem faultChangesOnlyItsEsrBit : Obligations.FaultChangesOnlyItsEsrBit := by
  intro s t w q r hq h hrsp fault
  obtain ⟨cs, ends⟩ := issueWord_completes w (s.withInputs q)
  rw [← step_command hq, h] at ends
  cases ends with
  | raises c _ =>
    have code : 1 ≤ causeCode c ∧ causeCode c ≤ 6 := by cases c <;> decide
    obtain rfl := Option.some.inj hrsp
    exact ⟨causeCode c, code.1, code.2, rfl, rfl⟩
  | responds u v _ _ =>
    obtain rfl := Option.some.inj hrsp
    exact absurd rfl fault

/-- Settles O7: an empty queue is the first case of the answer. -/
theorem idleBlockHoldsItsState : Obligations.IdleBlockHoldsItsState := by
  intro s idle
  simp only [step, answer, idle]

/-! ### The selectors (R32, R78, R213) -/

/-- The register selectors are exactly 0 to 4 (R32). -/
theorem regSel?_eq_none_iff (sel : Byte) : regSel? sel = none ↔ 0x04 < sel.toNat := by
  rw [regSel?]
  split
  -- the five selectors, then the others
  iterate 5 exact iff_of_false nofun (by omega)
  simp only [imp_false] at *
  exact iff_of_true trivial (by omega)

/-- The selectors 0 to 4 name the template fields, and 0 and 1 the byte-wide ones (R78). -/
theorem txField?_of_le {sel : Byte} (small : sel.toNat ≤ 0x04) :
    ∃ f, txField? sel = some f ∧ (f.bytes = 1 ↔ sel = 0x00 ∨ sel = 0x01) := by
  have five : sel = 0x00 ∨ sel = 0x01 ∨ sel = 0x02 ∨ sel = 0x03 ∨ sel = 0x04 := by bv_omega
  obtain rfl | rfl | rfl | rfl | rfl := five
  all_goals exact ⟨_, rfl, by decide⟩

/-- The selector lies in one of the three ranges that R213 gives for `RDF`. -/
abbrev NamesField (sel : Byte) : Prop :=
  sel.toNat ≤ 0x04 ∨ (0x10 ≤ sel.toNat ∧ sel.toNat ≤ 0x14) ∨ (0x20 ≤ sel.toNat ∧ sel.toNat ≤ 0x2D)

theorem fieldSel?_eq_none_iff (sel : Byte) : fieldSel? sel = none ↔ ¬ NamesField sel := by
  rw [fieldSel?, NamesField]
  split
  -- the 24 selectors, then the others
  iterate 24 exact iff_of_false nofun (by omega)
  simp only [imp_false] at *
  exact iff_of_true trivial (by omega)

/-- The row of a selector in the field table gives the length its field needs (R143). -/
theorem State.fieldShort_iff_row {sel : Byte} {g : FieldSel} (hg : fieldSel? sel = some g) (s : State) :
    s.fieldShort (fieldOf g) = true ↔ ∃ r ∈ fieldRows, r.sel = sel ∧ s.rxlen.toNat < r.need := by
  rw [s.fieldShort_iff]
  constructor
  · exact fun short => ⟨_, fieldRow_mem hg, rfl, short⟩
  · rintro ⟨r, hr, rfl, short⟩
    obtain ⟨g', hg', row⟩ := eq_fieldRow_of_mem hr
    obtain rfl : g' = g := Option.some.inj (hg'.symm.trans hg)
    rwa [row] at short

/-! ### The addresses (R50, R66, R215, R216) -/

/-- The address lies in neither window of `BUF` (R50). -/
abbrev Hole (a : Nat) : Prop := ¬ (a ≤ 0x47 ∨ (0x80 ≤ a ∧ a ≤ 0xDB))

/-- The address is that of a byte of `RXB` at or past `RXLEN` (R66). -/
abbrev State.Unreceived (s : State) (a : Nat) : Prop := 0x80 ≤ a ∧ a ≤ 0xDB ∧ s.rxlen.toNat ≤ a - 0x80

theorem not_implemented_iff (a : Nat) : (!implemented a) = true ↔ Hole a := by
  rw [Bool.not_eq_true', ← Bool.not_eq_true, implemented_iff]

theorem not_allImplemented_iff (a n : Nat) : (!allImplemented a n) = true ↔ ∃ k < n, Hole (a + k) := by
  rw [Bool.not_eq_true', ← Bool.not_eq_true, allImplemented_iff]
  simp only [implemented_iff, not_forall, exists_prop]

theorem State.not_received_iff (s : State) (a : Nat) : (!s.received a) = true ↔ s.Unreceived a := by
  rw [Bool.not_eq_true', ← Bool.not_eq_true, s.received_iff, not_not]

theorem State.not_allReceived_iff (s : State) (a n : Nat) : (!s.allReceived a n) = true ↔ ∃ k < n, s.Unreceived (a + k) := by
  rw [Bool.not_eq_true', ← Bool.not_eq_true, s.allReceived_iff]
  simp only [s.received_iff, not_forall, not_not, exists_prop]

theorem State.not_hasTypeCode_iff (s : State) : (!s.hasTypeCode) = true ↔ s.rxlen.toNat < 22 := by
  rw [Bool.not_eq_true', ← Bool.not_eq_true, s.hasTypeCode_iff, not_le]

/-! ### The stream (R103, R104, R217) -/

/-- `FEED` overflows exactly when it completes a word that takes `ACC` to 2^32 or more (R103). -/
theorem feed_eq_none_iff (S : Stream) (b : Byte) :
    feed S b = none ↔ S.phase = true ∧ 2 ^ 32 ≤ S.acc.toNat + (S.hold.toNat * 256 + b.toNat) := by
  obtain ⟨acc, hold, phase⟩ := S
  cases phase with
  | false => simp
  | true => simp [feed_second]

/-- `FIN` overflows exactly when a held byte takes `ACC` to 2^32 or more (R104). -/
theorem fin_eq_none_iff (S : Stream) : fin S = none ↔ S.phase = true ∧ 2 ^ 32 ≤ S.acc.toNat + S.hold.toNat * 256 := by
  have word := S.acc.isLt
  rw [fin, finSum]
  cases S.phase with
  | false => simpa using word
  | true => simp

/-! ### The cause a command raises (R212 to R217) -/

/-- The cause a command raises, in the words of R212 to R217: the first that applies, or none. -/
def causeOf? (i : Instr) (s : State) : Option Cause :=
  match i with
  | .rds sel => if 0x04 < sel.toNat then some .illegalField else none
  | .ckput imm =>
    if s.phase = true ∧ 2 ^ 32 ≤ s.acc.toNat + (s.hold.toNat * 256 + imm.toNat % 256) then some .accOverflow else none
  | .ckrun base len =>
    if ∃ k < len.toNat, Hole (base.toNat + k) then some .addressRange
    else if ∃ k < len.toNat, s.Unreceived (base.toNat + k) then some .shortDatagram
    else if feeds s.stream (s.range base.toNat len.toNat) = none then some .accOverflow else none
  | .ckfin => if s.phase = true ∧ 2 ^ 32 ≤ s.acc.toNat + s.hold.toNat * 256 then some .accOverflow else none
  | .stb addr _ => if Hole addr.toNat then some .addressRange else none
  | .ldb addr =>
    if Hole addr.toNat then some .addressRange
    else if s.Unreceived addr.toNat then some .shortDatagram else none
  | .wrf sel imm =>
    if 0x04 < sel.toNat then some .illegalField
    else if (sel = 0x00 ∨ sel = 0x01) ∧ 0xFF < imm.toNat then some .illegalCommand else none
  | .setrxlen n => if 92 < n.toNat then some .lengthRange else none
  | .rdf sel =>
    if ¬ NamesField sel then some .illegalField
    else if ∃ r ∈ fieldRows, r.sel = sel ∧ s.rxlen.toNat < r.need then some .shortDatagram else none
  | .classify | .desc => if s.rxlen.toNat < 22 then some .shortDatagram else none
  | .nop | .srst | .ckclr | .build _ | .sealTx | .nextSeq => none

/-- The codes tell the causes apart (R211). -/
theorem causeErr_inj {c d : Cause} : causeErr c = causeErr d ↔ c = d := by
  cases c <;> cases d <;> decide

/-- A command ends with the cause given, raised on the state it began in (R210), or with none and a response (R15). -/
inductive EndsWith (s : State) : Option Cause → Result → Prop where
  | raises (c : Cause) : EndsWith s (some c) (.next (s.raise c))
  | responds (u : State) (v : Word) : EndsWith s none (.next (u.respond v))

namespace EndsWith

variable {s : State} {p p' : Prop} [Decidable p] [Decidable p'] {c : Cause} {o : Option Cause} {r : Result}

/-- A test that has failed raises its cause. -/
theorem failed (hp : p) : EndsWith s (if p then some c else o) (.next (s.raise c)) := by
  rw [if_pos hp]
  exact .raises c

/-- A test that has passed leaves the rest of the command. -/
theorem passed (hp : ¬ p) (rest : EndsWith s o r) : EndsWith s (if p then some c else o) r := by
  rwa [if_neg hp]

/-- A test before the rest of a command, with the test in the words of the rules. -/
theorem guard (test : p' ↔ p) (rest : EndsWith s o r) :
    EndsWith s (if p then some c else o) (if p' then .next (s.raise c) else r) := by
  by_cases hp : p
  · exact if_pos (test.2 hp) ▸ failed hp
  · exact if_neg (mt test.1 hp) ▸ passed hp rest

/-- The end of a command that feeds the stream (R110, R111). -/
theorem finishFeed {S : Option Stream} (test : S = none ↔ p) :
    EndsWith s (if p then some .accOverflow else none) (finishFeed s S) := by
  cases S with
  | none => exact failed (test.1 rfl)
  | some S => exact passed (mt test.2 nofun) (.responds (s.setStream S) 0)

/-- The response tells the cause. -/
theorem rsp_iff {t : State} (h : EndsWith s o (.next t)) (c : Cause) :
    (∃ v, t.rsp = some ⟨causeErr c, v⟩) ↔ o = some c := by
  cases h with
  | raises d => simp [causeErr_inj]
  | responds u v =>
    have noErr : (0 : Byte) ≠ causeErr c := (causeErr_ne_zero c).symm
    simpa using noErr

end EndsWith

/-- Every command raises the cause that R212 to R217 give for it, or responds. -/
theorem exec_endsWith (i : Instr) (s : State) : EndsWith s (causeOf? i s) (exec i s) := by
  cases i with
  | nop => exact .responds s 0
  | srst => exact .responds s.softReset 0
  | rds sel =>
    have large := regSel?_eq_none_iff sel
    cases h : regSel? sel with
    | none => exact exec_rds_illegal h s ▸ .failed (large.1 h)
    | some r => exact exec_rds_reg h s ▸ .passed (mt large.2 (by simp [h])) (.responds s _)
  | ckclr => exact .responds (s.setStream clearStream) 0
  | ckput imm => exact .finishFeed (by rw [feed_eq_none_iff, loByte_toNat]; rfl)
  | ckrun base len =>
    exact .guard (not_allImplemented_iff _ _) (.guard (s.not_allReceived_iff _ _)
      (.finishFeed (by rw [s.readBytes_eq_map, State.range])))
  | ckfin =>
    have overflow := fin_eq_none_iff s.stream
    rw [exec, execCkfin]
    cases h : fin s.stream with
    | none => exact .failed (overflow.1 h)
    | some c => exact .passed (mt overflow.2 (by simp [h])) (.responds { s with ckr := c } _)
  | stb addr imm => exact .guard (not_implemented_iff _) (.responds (s.writeByte addr.toNat (loByte imm)) 0)
  | ldb addr => exact .guard (not_implemented_iff _) (.guard (s.not_received_iff _) (.responds s _))
  | wrf sel imm =>
    by_cases large : 0x04 < sel.toNat
    · exact exec_wrf_illegal s imm large ▸ .failed large
    · obtain ⟨f, hf, byteWide⟩ := txField?_of_le (not_lt.1 large)
      have wide : hiByte imm ≠ 0 ↔ 0xFF < imm.toNat := by rw [Ne, hiByte_eq_zero_iff]; omega
      simp only [exec, execWrf, hf]
      exact .passed large (.guard (and_congr byteWide wide) (.responds (s.writeField f imm) 0))
  | build ident => exact .responds (s.built Config.payloadInit ident).sealed _
  | sealTx => exact .responds s.sealed _
  | nextSeq => exact .responds s.advanced.sealed _
  | setrxlen n => exact .guard .rfl (.responds { s with rxlen := loByte n } 0)
  | rdf sel =>
    have names := fieldSel?_eq_none_iff sel
    cases h : fieldSel? sel with
    | none => exact exec_rdf_illegal h s ▸ .failed (names.1 h)
    | some g =>
      simp only [exec, execRdf, h]
      exact .passed (mt names.2 (by simp [h])) (.guard (s.fieldShort_iff_row h) (.responds s _))
  | classify => exact .guard s.not_hasTypeCode_iff (.responds s _)
  | desc => exact .guard s.not_hasTypeCode_iff (.responds s _)

/-- A command answers with the `ERR` of a cause exactly when R212 to R217 give that cause for it. -/
theorem rsp_eq_causeErr_iff {i : Instr} {s t : State} (h : exec i s = .next t) (c : Cause) :
    (∃ v, t.rsp = some ⟨causeErr c, v⟩) ↔ causeOf? i s = some c :=
  (h ▸ exec_endsWith i s).rsp_iff c

/-- The cause that R212 to R217 give is raised. -/
theorem exec_eq_raise {i : Instr} {s : State} {c : Cause} (h : causeOf? i s = some c) : exec i s = .next (s.raise c) := by
  have ends := exec_endsWith i s
  rw [h] at ends
  generalize exec i s = r at ends ⊢
  cases ends
  rfl

/-! ### The causes listed for a command (R222) -/

/-- A command answers with `ERR` 0 or the code of a cause listed for it. -/
theorem exec_err {i : Instr} {s t : State} {r : Response} (h : exec i s = .next t) (hrsp : t.rsp = some r) :
    r.err = 0 ∨ ∃ c ∈ causesOf i, r.err = causeErr c := by
  have ends := exec_completes i s
  rw [h] at ends
  cases ends with
  | raises c mem => exact .inr ⟨c, mem, Option.some.inj hrsp ▸ rfl⟩
  | responds u v _ _ => exact .inl (Option.some.inj hrsp ▸ rfl)

/-- A cause not listed for a command is not given for it. -/
theorem causeOf?_of_not_listed {i : Instr} {c : Cause} (h : c ∉ causesOf i) (s : State) :
    causeOf? i s = some c ↔ False := by
  refine iff_false_intro fun given => ?_
  obtain zero | ⟨d, listed, same⟩ := exec_err (exec_eq_raise given) rfl
  · exact causeErr_ne_zero c zero
  · exact h (causeErr_inj.1 same ▸ listed)

/-- A state in which every cause can be raised: nothing is received, and the next byte fed overflows `ACC`. -/
def faultProne : State := { State.reset with acc := 0xFFFFFFFF, hold := 0xFF, phase := true }

/-- A run of one byte overflows there, whatever the byte is. -/
theorem causeOf?_ckrun_faultProne : causeOf? (.ckrun 0x00 1) faultProne = some .accOverflow := by
  have overflow : feeds faultProne.stream (faultProne.range 0x00 1) = none := by
    have big (b : Byte) : 2 ^ 32 ≤ 0xFFFFFFFF + (0xFF * 256 + b.toNat) := by omega
    have completes (b : Byte) : feed faultProne.stream b = none := (feed_eq_none_iff _ _).2 ⟨rfl, big b⟩
    simp [State.range, feeds_cons, completes]
  rw [causeOf?, if_neg (by decide), if_neg (by decide)]
  exact if_pos overflow

/-- Each cause that R222 lists for a command is raised by that command with some operands (R213 to R217). -/
theorem exists_raising : ∀ (i : Instr) (c : Cause), c ∈ causesOf i →
    ∃ j : Instr, j.mnemonic = i.mnemonic ∧ causeOf? j faultProne = some c
  | .rds _, _, .head _ => ⟨.rds 0x05, rfl, rfl⟩
  | .ckput _, _, .head _ => ⟨.ckput 0, rfl, rfl⟩
  | .ckrun _ _, _, .head _ => ⟨.ckrun 0x48 1, rfl, rfl⟩
  | .ckrun _ _, _, .tail _ (.head _) => ⟨.ckrun 0x80 1, rfl, rfl⟩
  | .ckrun _ _, _, .tail _ (.tail _ (.head _)) => ⟨.ckrun 0x00 1, rfl, causeOf?_ckrun_faultProne⟩
  | .ckfin, _, .head _ => ⟨.ckfin, rfl, rfl⟩
  | .stb _ _, _, .head _ => ⟨.stb 0x48 0, rfl, rfl⟩
  | .ldb _, _, .head _ => ⟨.ldb 0x48, rfl, rfl⟩
  | .ldb _, _, .tail _ (.head _) => ⟨.ldb 0x80, rfl, rfl⟩
  | .wrf _ _, _, .head _ => ⟨.wrf 0x05 0, rfl, rfl⟩
  | .wrf _ _, _, .tail _ (.head _) => ⟨.wrf 0x00 0x100, rfl, rfl⟩
  | .setrxlen _, _, .head _ => ⟨.setrxlen 93, rfl, rfl⟩
  | .rdf _, _, .head _ => ⟨.rdf 0x05, rfl, rfl⟩
  | .rdf _, _, .tail _ (.head _) => ⟨.rdf 0x10, rfl, rfl⟩
  | .classify, _, .head _ => ⟨.classify, rfl, rfl⟩
  | .desc, _, .head _ => ⟨.desc, rfl, rfl⟩

/-- Settles O20: a command raises no cause but those listed, and each of those in one and the same state. -/
theorem causesOfEachCommand : Obligations.CausesOfEachCommand := by
  refine ⟨fun i s t r h hrsp => exec_err h hrsp, fun i c hc => ?_⟩
  obtain ⟨j, same, cause⟩ := exists_raising i c hc
  exact ⟨j, faultProne, same, exec_eq_raise cause⟩

/-! ### The causes, exactly -/

/-- `WRF` of a byte-wide field is the one command that raises `IllegalCommand` (R212). -/
theorem causeOf?_eq_illegalCommand_iff (i : Instr) (s : State) :
    causeOf? i s = some .illegalCommand ↔
      ∃ sel imm, i = .wrf sel imm ∧ (sel = 0x00 ∨ sel = 0x01) ∧ 0xFF < imm.toNat := by
  cases i with
  | wrf sel imm =>
    have small : sel = 0x00 ∨ sel = 0x01 → sel.toNat ≤ 0x04 := by rintro (rfl | rfl) <;> decide
    calc causeOf? (.wrf sel imm) s = some .illegalCommand
        ↔ ¬ 0x04 < sel.toNat ∧ (sel = 0x00 ∨ sel = 0x01) ∧ 0xFF < imm.toNat := by simp [causeOf?, ite_eq_iff]
      _ ↔ (sel = 0x00 ∨ sel = 0x01) ∧ 0xFF < imm.toNat :=
        and_iff_right_of_imp fun ⟨byteWide, _⟩ => not_lt.2 (small byteWide)
      _ ↔ _ := by simp
  | _ => exact (causeOf?_of_not_listed (by simp [causesOf]) s).trans (by simp)

/-- Settles O21: a word is a command or fits no row, and of the commands only `WRF` raises this cause. -/
theorem illegalCommandExactly : Obligations.IllegalCommandExactly := by
  intro s t w q hq h
  rw [step_command hq] at h
  have row := exists_decode_eq_ok_iff w
  cases hd : decode w with
  | error e =>
    rw [issueWord_error hd, Host.Outcome.next.injEq] at h
    refine iff_of_true ⟨0, h ▸ rfl⟩ (.inl fun r hr fits => ?_)
    obtain ⟨i, hi⟩ := row.2 ⟨r, hr, fits⟩
    simp [hd] at hi
  | ok i =>
    rw [issueWord_ok hd] at h
    obtain ⟨r, hr, fits⟩ := row.1 ⟨i, hd⟩
    have fitsSome : ¬ ∀ r ∈ commandRows, ¬ r.Fits w := fun fitsNone => fitsNone r hr fits
    rw [or_iff_right fitsSome]
    refine (rsp_eq_causeErr_iff h .illegalCommand).trans ?_
    simp only [causeOf?_eq_illegalCommand_iff, Except.ok.injEq]

/-- Settles O22: the tests of the selectors and of the length come first in their commands. -/
theorem illegalFieldAndLengthRangeExactly : Obligations.IllegalFieldAndLengthRangeExactly := by
  intro i s t h
  refine ⟨(rsp_eq_causeErr_iff h .illegalField).trans ?_, (rsp_eq_causeErr_iff h .lengthRange).trans ?_⟩
  · cases i with
    | rds | wrf | rdf => simp [causeOf?, ite_eq_iff]
    | _ => exact causeOf?_of_not_listed (by simp [causesOf]) s
  · cases i with
    | setrxlen => simp [causeOf?]
    | _ => exact causeOf?_of_not_listed (by simp [causesOf]) s

/-- Only implemented addresses are bytes of `RXB` (R50, R66). -/
theorem State.Unreceived.not_hole {s : State} {a : Nat} (h : s.Unreceived a) : ¬ Hole a := by
  obtain ⟨low, high, -⟩ := h
  exact not_not.2 (.inr ⟨low, high⟩)

theorem namesField_of_mem : ∀ r ∈ fieldRows, NamesField r.sel := by decide

/-- Settles O23: the address test comes first in `STB`, `LDB` and `CKRUN`, and before the length test; the selector test of
`RDF` keeps back no row of the field table. -/
theorem addressRangeAndShortDatagramExactly : Obligations.AddressRangeAndShortDatagramExactly := by
  intro i s t h
  refine ⟨(rsp_eq_causeErr_iff h .addressRange).trans ?_, (rsp_eq_causeErr_iff h .shortDatagram).trans ?_⟩
  · cases i with
    | stb | ldb | ckrun => simp [causeOf?, ite_eq_iff]
    | _ => exact causeOf?_of_not_listed (by simp [causesOf]) s
  · cases i with
    | ldb addr =>
      calc causeOf? (.ldb addr) s = some .shortDatagram
          ↔ ¬ Hole addr.toNat ∧ s.Unreceived addr.toNat := by simp [causeOf?, ite_eq_iff]
        _ ↔ s.Unreceived addr.toNat := and_iff_right_of_imp State.Unreceived.not_hole
    | ckrun base len =>
      calc causeOf? (.ckrun base len) s = some .shortDatagram
          ↔ (¬ ∃ k < len.toNat, Hole (base.toNat + k)) ∧ ∃ k < len.toNat, s.Unreceived (base.toNat + k) := by
            simp [causeOf?, ite_eq_iff]
        _ ↔ _ := by simp only [not_exists, not_and, not_not]
    | rdf sel =>
      calc causeOf? (.rdf sel) s = some .shortDatagram
          ↔ NamesField sel ∧ ∃ r ∈ fieldRows, r.sel = sel ∧ s.rxlen.toNat < r.need := by
            simp only [causeOf?, ite_not, ite_eq_iff, Option.some.injEq, reduceCtorEq, and_true, and_false, or_false]
        _ ↔ _ := and_iff_right_of_imp fun ⟨r, hr, same, _⟩ => same ▸ namesField_of_mem r hr
    | classify | desc => simp [causeOf?]
    | _ => exact causeOf?_of_not_listed (by simp [causesOf]) s

/-- The range of a `CKRUN` passes both tests of R66. -/
theorem State.admitted_iff (s : State) (a n : Nat) :
    (∀ k < n, implemented (a + k) = true ∧ s.received (a + k) = true) ↔
      (¬ ∃ k < n, Hole (a + k)) ∧ ¬ ∃ k < n, s.Unreceived (a + k) := by
  simp only [implemented_iff, s.received_iff, not_exists, not_and, not_not, imp_and, forall_and]

/-- Settles O24: `CKRUN` comes to the stream when both tests of the range pass; 131074 bytes have a raw sum below 2^32. -/
theorem accOverflowExactly : Obligations.AccOverflowExactly := by
  refine ⟨fun i s t h => (rsp_eq_causeErr_iff h .accOverflow).trans ?_, fun bs short => ?_⟩
  · cases i with
    | ckrun base len =>
      calc causeOf? (.ckrun base len) s = some .accOverflow
          ↔ ((¬ ∃ k < len.toNat, Hole (base.toNat + k)) ∧ ¬ ∃ k < len.toNat, s.Unreceived (base.toNat + k)) ∧
              feeds s.stream (s.range base.toNat len.toNat) = none := by simp [causeOf?, ite_eq_iff, and_assoc]
        _ ↔ _ := and_congr_left' (s.admitted_iff _ _).symm
    | ckput | ckfin => simp [causeOf?]
    | _ => exact causeOf?_of_not_listed (by simp [causesOf]) s
  · obtain ⟨-, -, fits⟩ := rawSumIsTheSumOfWireWords bs
    have run := feeds_clearStream_bind_fin bs
    rw [if_neg (not_le.2 (fits short)), Option.bind_eq_some_iff] at run
    obtain ⟨S, fed, finished⟩ := run
    exact ⟨S, _, fed, finished⟩

end Sys2Proof.Machine
end

section
/-! PROOFS. Reset and what holds right after it (R240 to R242): the reset input, and each command with the registers at their
reset values whatever the buffers hold. -/

namespace Sys2Proof.Machine

/-! ### The reset input (R240, R241) -/

/-- The oldest input is the reset input: the step takes it from the queue and resets the block. -/
theorem step_reset {s : State} {q : List HostInput} (h : s.inputs = .reset :: q) :
    step s = .next (s.withInputs q).hardReset := by
  simp only [step, answer, h]

theorem State.registersReset_hardReset (s : State) : s.hardReset.RegistersReset := ⟨rfl, rfl, rfl, rfl, rfl, rfl⟩

/-- Settles O12: the step is the reset of the block, which lists no byte as written. -/
theorem resetInputResetsTheBlock : Obligations.ResetInputResetsTheBlock := by
  intro s q h
  exact ⟨_, step_reset h, State.registersReset_hardReset _, State.readByte_hardReset _, rfl, rfl⟩

/-! ### The registers at their reset values (R242) -/

/-- The fields of `RXB` are those with a selector above the template's, and they alone need a length (R143). -/
theorem fieldRows_need_pos_iff : ∀ r ∈ fieldRows, 0 < r.need ↔ 0x10 ≤ r.sel.toNat := by decide

/-- A selector in the ranges of R213 names a field, of `RXB` exactly from 0x10 on (R78, R143). -/
theorem NamesField.exists_field {sel : Byte} (h : NamesField sel) :
    ∃ g, fieldSel? sel = some g ∧ (0 < (fieldOf g).need ↔ 0x10 ≤ sel.toNat) := by
  obtain ⟨g, hg⟩ := Option.ne_none_iff_exists'.1 ((fieldSel?_eq_none_iff sel).not_left.2 h)
  exact ⟨g, hg, fieldRows_need_pos_iff _ (fieldRow_mem hg)⟩

/-- The commands that seal respond with `ERR` 0 in every state and leave a sealed template (R123, R124). -/
theorem IsSealing.responds {i : Instr} (h : IsSealing i) (s : State) :
    ∃ t v, exec i s = .next t ∧ t.rsp = some ⟨0, v⟩ ∧ t.Sealed := by
  obtain ⟨u, v, answer⟩ := h.ends_sealed s
  exact ⟨_, v, answer, rfl, u.sealed_isSealed.respond v⟩

namespace State.RegistersReset

variable {s : State} (h : s.RegistersReset)
include h

theorem rxlen_toNat : s.rxlen.toNat = 0 := by
  obtain ⟨-, -, -, -, rxlen, -⟩ := h
  simp [rxlen]

/-- `RXLEN` is 0, so no byte of `RXB` is received. -/
theorem unreceived {a : Nat} (low : 0x80 ≤ a) (high : a ≤ 0xDB) : s.Unreceived a :=
  ⟨low, high, by simp [h.rxlen_toNat]⟩

/-- `ESR` is 0, so the fault leaves its own bit alone in it (R210). -/
theorem exec_short {i : Instr} (cause : causeOf? i s = some .shortDatagram) :
    exec i s = .next { s with esr := 0x20, rsp := some ⟨5, 0⟩ } := by
  obtain ⟨-, -, -, -, -, esr⟩ := h
  rw [exec_eq_raise cause, State.raise, esr]
  rfl

theorem readReg_eq_zero (r : RegSel) : s.readReg r = 0 := by
  obtain ⟨acc, hold, phase, ckr, rxlen, esr⟩ := h
  cases r <;> simp [State.readReg, *]

theorem exec_rds {sel : Byte} (small : sel.toNat ≤ 4) : exec (.rds sel) s = .next (s.respond 0) := by
  obtain ⟨r, hr⟩ := Option.ne_none_iff_exists'.1 ((regSel?_eq_none_iff sel).not.2 (not_lt.2 small))
  rw [exec_rds_reg hr, h.readReg_eq_zero]

theorem causeOf?_ldb {a : Byte} (low : 0x80 ≤ a.toNat) (high : a.toNat ≤ 0xDB) :
    causeOf? (.ldb a) s = some .shortDatagram := by
  have short := h.unreceived low high
  rw [causeOf?, if_neg short.not_hole, if_pos short]

/-- A run inside the RX window meets no hole, and its first byte is not received. -/
theorem causeOf?_ckrun {base : Byte} {len : Half} (nonempty : 0 < len.toNat) (low : 0x80 ≤ base.toNat)
    (high : base.toNat + len.toNat ≤ 0xDC) : causeOf? (.ckrun base len) s = some .shortDatagram := by
  have noHole : ¬ ∃ k < len.toNat, Hole (base.toNat + k) := by
    rintro ⟨k, hk, hole⟩
    exact (h.unreceived (by omega) (by omega)).not_hole hole
  have short : ∃ k < len.toNat, s.Unreceived (base.toNat + k) := ⟨0, nonempty, h.unreceived low (by omega)⟩
  rw [causeOf?, if_neg noHole, if_pos short]

/-- `CLASS` and `DESC` need 22 bytes. -/
theorem rxlen_lt_22 : s.rxlen.toNat < 22 := by
  rw [h.rxlen_toNat]
  decide

/-- A field of `RXB` needs at least one byte. -/
theorem causeOf?_rdf {sel : Byte} (names : NamesField sel) (reply : 0x10 ≤ sel.toNat) :
    causeOf? (.rdf sel) s = some .shortDatagram := by
  obtain ⟨g, hg, need⟩ := names.exists_field
  have short : ∃ r ∈ fieldRows, r.sel = sel ∧ s.rxlen.toNat < r.need :=
    ⟨_, fieldRow_mem hg, rfl, h.rxlen_toNat ▸ need.2 reply⟩
  rw [causeOf?, if_neg (not_not.2 names), if_pos short]

end State.RegistersReset

/-- `RDF` of a field of `TXB` returns some value, whatever `RXLEN` is (R142). -/
theorem exec_rdf_txb {sel : Byte} (small : sel.toNat ≤ 4) (s : State) : ∃ v, exec (.rdf sel) s = .next (s.respond v) := by
  have names : NamesField sel := .inl small
  obtain ⟨g, hg, need⟩ := names.exists_field
  exact ⟨_, exec_rdf_long hg (by omega)⟩

/-- Settles O13: an empty stream finishes to 0xFFFF, the registers read as 0, no byte of `RXB` is received, and nothing keeps
back the reads of `TXB` or the seal. -/
theorem resetGuarantees : Obligations.ResetGuarantees := by
  intro s h
  have ckfin : exec .ckfin s = .next { s with ckr := 0xFFFF, rsp := some ⟨0, 0xFFFF⟩ } := by
    obtain ⟨acc, -, phase, -⟩ := h
    obtain ⟨-, -, empty, -⟩ := ckfinResult
    exact empty s acc phase
  refine ⟨ckfin, fun sel small => h.exec_rds small, fun a low high => h.exec_short (h.causeOf?_ldb low high),
    fun base len nonempty low high => h.exec_short (h.causeOf?_ckrun nonempty low high),
    h.exec_short (if_pos h.rxlen_lt_22), h.exec_short (if_pos h.rxlen_lt_22),
    fun sel reply => h.exec_short (h.causeOf?_rdf (.inr reply) (by omega)), fun a low => ?_,
    fun sel small => exec_rdf_txb small s, IsSealing.responds (.inr (.inl rfl)) s, IsSealing.responds (.inr (.inr rfl)) s⟩
  rw [exec_after, s.after_ldb_txb a low]
  rfl

end Sys2Proof.Machine
end
